-- ==== Sys2Proof/Word.lean ====
section
/-! DEFINITION. The data words of the Graviton framer: bytes, the three fixed-size byte strings of
rule R12 and R93, and the 32-bit integer pattern of rule R92. -/

namespace Sys2Proof

/-- One byte: 8 bits, bit 7 the most significant (R9). -/
abbrev Byte := BitVec 8

/-- The checksum accumulator `ACC`: 16 bits, unsigned (R31, `ACC_W` of R6). -/
abbrev Acc := BitVec 16

/-- The 32-bit pattern of the one integer field (R92). -/
abbrev Word32 := BitVec 32

/-- A datagram: exactly 32 bytes, frame offset 0 first (R12, R20). -/
abbrev Datagram := Vector Byte 32

/-- A payload: exactly 26 bytes, payload offset 0 first (R12). -/
abbrev Payload := Vector Byte 26

/-- A unique identifier: 12 opaque bytes, `uid[0]` first (R93). -/
abbrev Uid := Vector Byte 12

end Sys2Proof
end

