-- ==== Sys2Proof/Config.lean ====
section
/-! DEFINITION. The constants of rule R6, the enumerations the parameter tables of rule R7 are indexed
by, and the configuration itself: the open parameters of R7 as plain data with their defaults.
A configuration is fixed when the block is built; `State` only carries it (assumption 2). -/

namespace Sys2Proof

/-! ## Constants (R6). No conforming block gives one of them another value. -/

/-- `FRAME_LEN` (R6). -/
def FRAME_LEN : Nat := 32
/-- `PAYLOAD_LEN` (R6). -/
def PAYLOAD_LEN : Nat := 26
/-- `START`, the start sentinel (R6). -/
def START : Byte := 0x55#8
/-- `STOP`, the stop sentinel (R6). -/
def STOP : Byte := 0x2A#8
/-- `PROTO_PHASON`, the reserved command-layer protocol id (R6). -/
def PROTO_PHASON : Byte := 0xA1#8
/-- `ADDR_CONTROLLER`, the fixed controller address (R6). -/
def ADDR_CONTROLLER : Byte := 0x00#8
/-- `ADDR_PERIPH_MAX`, the maximum peripheral address (R6); the block checks no address (R65). -/
def ADDR_PERIPH_MAX : Byte := 0x80#8
/-- `ADDR_LOGICAL`, the broadcast or logical address (R6); the block gives it no behaviour (R65). -/
def ADDR_LOGICAL : Byte := 0xFF#8
/-- `UID_LEN` (R6). -/
def UID_LEN : Nat := 12
/-- `CRC_K`, the checksum constant (R6). -/
def CRC_K : Acc := 0x1070#16
/-- `CRC_POLY16`, `CRC_K << 3` (R6). -/
def CRC_POLY16 : Acc := CRC_K <<< 3

/-- The opaque context value of `READ` and `CTX` (R29): a number below `2 ^ CTX_W`, which the block
copies and never looks into (assumption 3). -/
abbrev Ctx := Nat

/-! ## The enumerations the parameter tables are indexed by -/

/-- `INT_ORDER` (R58). -/
inductive IntOrder
  | little
  | big
  deriving DecidableEq, Repr

/-- The ten message types in the order of their type index `T` (R96). -/
inductive MsgType
  | getFeederInfoReq
  | getFeederInfoResp
  | resetFeederReq
  | resetFeederResp
  | startFeedReq
  | startFeedResp
  | feedStatusReq
  | feedStatusResp
  | queryByUidReq
  | queryByUidResp
  deriving DecidableEq, Repr

/-- The type index `T` (R96). -/
def MsgType.index : MsgType → Fin 10
  | .getFeederInfoReq => 0
  | .getFeederInfoResp => 1
  | .resetFeederReq => 2
  | .resetFeederResp => 3
  | .startFeedReq => 4
  | .startFeedResp => 5
  | .feedStatusReq => 6
  | .feedStatusResp => 7
  | .queryByUidReq => 8
  | .queryByUidResp => 9

/-- The ten types, element `T` at position `T` (R96). -/
def MsgType.all : List MsgType :=
  [.getFeederInfoReq, .getFeederInfoResp, .resetFeederReq, .resetFeederResp, .startFeedReq,
   .startFeedResp, .feedStatusReq, .feedStatusResp, .queryByUidReq, .queryByUidResp]

/-- The direction column of R96. -/
def MsgType.isResponse : MsgType → Bool
  | .getFeederInfoReq => false
  | .getFeederInfoResp => true
  | .resetFeederReq => false
  | .resetFeederResp => true
  | .startFeedReq => false
  | .startFeedResp => true
  | .feedStatusReq => false
  | .feedStatusResp => true
  | .queryByUidReq => false
  | .queryByUidResp => true

/-- The names of the fields of the command messages besides `command` (R97 to R107). A replacement
layout may hold the firmware build date in one field `firmwareDate` and carry fields `other k` the
source does not name (U17, decision D24; DESIGN CHOICE, assumption 23). -/
inductive Field
  | status
  | protocolVersion
  | firmwareYear
  | firmwareMonth
  | firmwareDay
  | firmwareDate
  | uid
  | sequence
  | micrometers
  | actualMicrometers
  | other (k : Nat)
  deriving DecidableEq, Repr

/-- The widths, in bytes, that no layout may change: the status is one byte (R95), the unique
identifier 12 (R93), the integers 4 (R92, R97). Every other field has the width its slot gives
(DESIGN CHOICE, assumption 23). -/
def Field.fixedWidth : Field → Option Nat
  | .status => some 1
  | .uid => some UID_LEN
  | .micrometers => some 4
  | .actualMicrometers => some 4
  | .protocolVersion => none
  | .firmwareYear => none
  | .firmwareMonth => none
  | .firmwareDay => none
  | .firmwareDate => none
  | .sequence => none
  | .other _ => none

/-- The fields that hold the 4-byte integer (R92, C9). -/
def Field.isInteger : Field → Bool
  | .micrometers => true
  | .actualMicrometers => true
  | .status => false
  | .protocolVersion => false
  | .firmwareYear => false
  | .firmwareMonth => false
  | .firmwareDay => false
  | .firmwareDate => false
  | .uid => false
  | .sequence => false
  | .other _ => false

/-- The contents every layout of a type must carry (R97); the build date in either of two forms (DESIGN
CHOICE, assumption 23). -/
def MsgType.contents : MsgType → List (List Field)
  | .getFeederInfoReq => [[]]
  | .getFeederInfoResp =>
      [[.status, .protocolVersion, .firmwareYear, .firmwareMonth, .firmwareDay, .uid],
       [.status, .protocolVersion, .firmwareDate, .uid]]
  | .resetFeederReq => [[]]
  | .resetFeederResp => [[.status]]
  | .startFeedReq => [[.sequence, .micrometers]]
  | .startFeedResp => [[.status, .sequence]]
  | .feedStatusReq => [[.sequence]]
  | .feedStatusResp => [[.status, .sequence, .actualMicrometers]]
  | .queryByUidReq => [[.uid]]
  | .queryByUidResp => [[.status]]

/-- The fields a layout of a type may hold: no request has a status (R95), and "reset feeder carries
nothing beyond the status" (R97); any further field may stand, so one layout may hold both integer fields
of R92 (DESIGN CHOICE, assumption 23). -/
def MsgType.mayHold : MsgType → Field → Bool
  | .resetFeederReq, _ => false
  | .resetFeederResp, f => decide (f = .status)
  | T, f => T.isResponse || decide (f ≠ .status)

/-- One row of a layout table: a field, the payload offset of its first byte and its width in
bytes. R7 leaves all three open; which slots make a conforming layout is assumption 23. -/
structure Slot where
  field : Field
  offset : Nat
  width : Nat
  deriving DecidableEq, Repr

/-- Whether payload offset `p` is in the slot. -/
def Slot.covers (sl : Slot) (p : Nat) : Bool := decide (sl.offset ≤ p ∧ p < sl.offset + sl.width)

/-- Whether the slot holds the 4-byte integer of R92. -/
def Slot.isInteger (sl : Slot) : Bool := sl.field.isInteger && sl.width == 4

/-- The five application status codes (R95). They are data, never acted on (R176). -/
inductive Status
  | ok
  | error
  | invalidRequest
  | motorError
  | notReady
  deriving DecidableEq, Repr

/-- The order of the status table (R95). -/
def Status.index : Status → Fin 5
  | .ok => 0
  | .error => 1
  | .invalidRequest => 2
  | .motorError => 3
  | .notReady => 4

/-- The five statuses in table order (R95). -/
def Status.all : List Status := [.ok, .error, .invalidRequest, .motorError, .notReady]

/-- The five failure kinds of a read attempt (R211). -/
inductive Failure
  | noStartByte
  | noEndByte
  | badCrc8
  | aborted
  | unknown
  deriving DecidableEq, Repr

/-- `ReadResult` (R12): `OK` or a failure kind. -/
inductive ReadResult
  | ok
  | failed (k : Failure)
  deriving DecidableEq, Repr

/-- The order of the result-code table (R211). -/
def ReadResult.index : ReadResult → Fin 6
  | .ok => 0
  | .failed .noStartByte => 1
  | .failed .noEndByte => 2
  | .failed .badCrc8 => 3
  | .failed .aborted => 4
  | .failed .unknown => 5

/-- The six read results in table order (R211). -/
def ReadResult.all : List ReadResult :=
  [.ok, .failed .noStartByte, .failed .noEndByte, .failed .badCrc8, .failed .aborted,
   .failed .unknown]

/-- The four pull-result tags (R109). -/
inductive PullTag
  | byte
  | retry
  | abort
  | other
  deriving DecidableEq, Repr

/-- The order of the tag table (R109). -/
def PullTag.index : PullTag → Fin 4
  | .byte => 0
  | .retry => 1
  | .abort => 2
  | .other => 3

/-- The four tags in table order (R109). -/
def PullTag.all : List PullTag := [.byte, .retry, .abort, .other]

/-- The twelve operations of the operation port (R110). -/
inductive OpName
  | init
  | computeChecksum
  | setChecksum
  | checkChecksum
  | asBytes
  | fromBytes
  | writePayload
  | read
  | requestToDatagram
  | responseToDatagram
  | fromDatagram
  | discriminate
  deriving DecidableEq, Repr

/-- The order of the selector table (R110). -/
def OpName.index : OpName → Fin 12
  | .init => 0
  | .computeChecksum => 1
  | .setChecksum => 2
  | .checkChecksum => 3
  | .asBytes => 4
  | .fromBytes => 5
  | .writePayload => 6
  | .read => 7
  | .requestToDatagram => 8
  | .responseToDatagram => 9
  | .fromDatagram => 10
  | .discriminate => 11

/-- The twelve operations in table order (R110). -/
def OpName.all : List OpName :=
  [.init, .computeChecksum, .setChecksum, .checkChecksum, .asBytes, .fromBytes, .writePayload,
   .read, .requestToDatagram, .responseToDatagram, .fromDatagram, .discriminate]

/-! ## The configuration (R7) -/

/-- The open parameters of rule R7, all nine. Each table holds one entry per element of its
enumeration, at the element's index. -/
structure Config where
  /-- `INT_ORDER` (D11). -/
  intOrder : IntOrder
  /-- `MICROMETERS_SIGNED` (D23). -/
  micrometersSigned : Bool
  /-- `DISC` (D12, D25). -/
  disc : Vector Byte 10
  /-- `LAYOUT`: the slots of each message type, with their fields, offsets and widths (D13, D24,
  D30). -/
  layout : Vector (List Slot) 10
  /-- `STATUS` (D14). -/
  status : Vector Byte 5
  /-- `RESULT_CODE` (D6). -/
  resultCode : Vector (BitVec 3) 6
  /-- `PULL_ENC` (D5). -/
  pullTag : Vector (BitVec 2) 4
  /-- `OPSEL_ENC` (D7). -/
  opsel : Vector (BitVec 4) 12
  /-- `CTX_W`, the width in bits of the opaque context value (D28). -/
  ctxW : Nat
  deriving DecidableEq, Repr

/-- The discriminator of a type (R96). -/
def Config.discOf (c : Config) (T : MsgType) : Byte := c.disc.get T.index
/-- The layout table of a type (R98 to R107). -/
def Config.slots (c : Config) (T : MsgType) : List Slot := c.layout.get T.index
/-- The numeric status code (R95). -/
def Config.statusCode (c : Config) (k : Status) : Byte := c.status.get k.index
/-- The numeric read-result code (R211). -/
def Config.codeOf (c : Config) (r : ReadResult) : BitVec 3 := c.resultCode.get r.index
/-- The two tag bits of a pull result (R109). -/
def Config.tagOf (c : Config) (t : PullTag) : BitVec 2 := c.pullTag.get t.index
/-- The operation selector (R110). -/
def Config.selOf (c : Config) (o : OpName) : BitVec 4 := c.opsel.get o.index

/-- The default layout (R98 to R107). -/
def Config.defaultLayout : Vector (List Slot) 10 :=
  #v[[],
     [⟨.status, 1, 1⟩, ⟨.protocolVersion, 2, 1⟩, ⟨.firmwareYear, 3, 1⟩, ⟨.firmwareMonth, 4, 1⟩,
      ⟨.firmwareDay, 5, 1⟩, ⟨.uid, 6, 12⟩],
     [],
     [⟨.status, 1, 1⟩],
     [⟨.sequence, 1, 1⟩, ⟨.micrometers, 2, 4⟩],
     [⟨.status, 1, 1⟩, ⟨.sequence, 2, 1⟩],
     [⟨.sequence, 1, 1⟩],
     [⟨.status, 1, 1⟩, ⟨.sequence, 2, 1⟩, ⟨.actualMicrometers, 3, 4⟩],
     [⟨.uid, 1, 12⟩],
     [⟨.status, 1, 1⟩]]

/-- The defaults of rule R7. DESIGN CHOICE (the spec's own decisions D5 to D7, D11 to D14, D23 to
D25, D28, D30; assumption 2): unsafe where a claim names one of them, so claims quantify over `Config`
where they can. -/
def Config.default : Config where
  intOrder := .little
  micrometersSigned := true
  disc := #v[0x01#8, 0x81#8, 0x02#8, 0x82#8, 0x03#8, 0x83#8, 0x04#8, 0x84#8, 0x1F#8, 0x9F#8]
  layout := Config.defaultLayout
  status := #v[0x00#8, 0x01#8, 0x02#8, 0x03#8, 0x04#8]
  resultCode := #v[0#3, 1#3, 2#3, 3#3, 4#3, 5#3]
  pullTag := #v[0#2, 1#2, 2#2, 3#2]
  opsel := #v[0x1#4, 0x2#4, 0x3#4, 0x4#4, 0x5#4, 0x6#4, 0x7#4, 0x8#4, 0x9#4, 0xA#4, 0xB#4, 0xC#4]
  ctxW := 32

/-- What a replacement discriminator table must keep (R96): ten distinct values, bit 7 clear in
every request and set in every response. -/
abbrev Config.discOk (c : Config) : Prop :=
  (MsgType.all.map c.discOf).Nodup ∧ ∀ T ∈ MsgType.all, (c.discOf T).getLsbD 7 = T.isResponse

/-- What a replacement layout of one type must keep (R90, R97; which further fields it may hold is
assumption 23): the contents of the type, no field twice, none the type may not hold, every byte of a
field at payload offset 1 to 25, the widths no layout may change, no byte in two fields. -/
abbrev Config.slotsOk (c : Config) (T : MsgType) : Prop :=
  (∃ need ∈ T.contents, ∀ f ∈ need, f ∈ (c.slots T).map Slot.field) ∧
  ((c.slots T).map Slot.field).Nodup ∧
  (∀ sl ∈ c.slots T, T.mayHold sl.field = true ∧ 1 ≤ sl.offset ∧ 1 ≤ sl.width ∧
    sl.offset + sl.width ≤ 26 ∧ ∀ w ∈ sl.field.fixedWidth, sl.width = w) ∧
  (c.slots T).Pairwise fun a b =>
    a.offset + a.width ≤ b.offset ∨ b.offset + b.width ≤ a.offset

/-- What a replacement of the four tables `STATUS`, `RESULT_CODE`, `PULL_ENC` and `OPSEL_ENC` must keep:
its entries are distinct. The spec gives these tables defaults (D14, D6, D5, D7) and no condition on a
replacement, so a replacement may also use a value the default leaves out, such as the result codes 6
and 7 of R211 (DESIGN CHOICE, assumption 24). -/
abbrev Config.codesOk (c : Config) : Prop :=
  (Status.all.map c.statusCode).Nodup ∧ (ReadResult.all.map c.codeOf).Nodup ∧
  (PullTag.all.map c.tagOf).Nodup ∧ (OpName.all.map c.selOf).Nodup

/-- A conforming configuration: the conditions of R96 on `DISC`, the model's own on `LAYOUT` (assumption
23) and on the four code tables (assumption 24). -/
abbrev Config.wf (c : Config) : Prop :=
  c.discOk ∧ (∀ T ∈ MsgType.all, c.slotsOk T) ∧ c.codesOk

end Sys2Proof
end

