-- ==== Sys2Proof/Syntax.lean ====
section
/-! DEFINITION. The instructions: one constructor per row of spec/opcode_table.json. Twelve are the
requests of the operation port (format OP, R110, R111), four the answers at the pull port (format
PULL, R109), one is the 32-byte frame (format FRAME, R80) and ten are the command messages (format
CMD, R98 to R107). -/

namespace Sys2Proof

/-- The register selector operand `D`: 0 is `RX`, 1 is `TX` (R111). -/
inductive DReg
  | rx
  | tx
  deriving DecidableEq, Repr

/-- One answer of the byte source (R12, R51). -/
inductive PullResult
  | byte (b : Byte)
  | retry
  | abort
  | other
  deriving DecidableEq, Repr

/-- The value of a field: the bytes of a byte or byte array, lowest offset first (R93), or the 32-bit
pattern of the integer (R92). -/
inductive Value
  | bytes (bs : List Byte)
  | int (v : Word32)
  deriving DecidableEq, Repr

/-- One `field=value` of the written form `TYPE{field=value, ...}` of R114. -/
structure Assign where
  field : Field
  value : Value
  deriving DecidableEq, Repr

/-- The fields of a message besides `command`, in the order of its type's layout. Which fields a type
has and how wide each is, is the parameter `LAYOUT` (R7, R97), so a message holds them as a list
(assumption 23). -/
abbrev Fields := List Assign

/-- A command message: its type and the values of its fields besides `command` (R180 to R189). -/
structure Message where
  type : MsgType
  fields : Fields
  deriving DecidableEq, Repr

/-- What a message row carries beside the fields R98 to R107 name: the peripheral address its
conversion names (assumption 6), and the values of the fields a replacement layout gives its type
beside those, none under the layout of R98 to R107 (assumption 23). -/
structure Envelope where
  address : Byte
  further : Fields
  deriving DecidableEq, Repr

/-- The instructions of the block, one constructor per row of the opcode table. A message row is the
written request `REQUEST_TO_DATAGRAM d, dst, TYPE{...}` or `RESPONSE_TO_DATAGRAM d, src, TYPE{...}` of
R114 (assumption 6): the register `d`, the envelope, then the fields in the order of R98 to R107. The
fields whose widths are the layout's are byte lists, those of fixed width have it in their type; one
the layout lacks is empty (assumption 23). -/
inductive Instr
  /-- `INIT D, src, dst, proto` (R121). -/
  | init (d : DReg) (src dst proto : Byte)
  /-- `COMPUTE_CHECKSUM D` (R123). -/
  | computeChecksum (d : DReg)
  /-- `SET_CHECKSUM D` (R124). -/
  | setChecksum (d : DReg)
  /-- `CHECK_CHECKSUM D` (R125). -/
  | checkChecksum (d : DReg)
  /-- `AS_BYTES D` (R127). -/
  | asBytes (d : DReg)
  /-- `FROM_BYTES D, bytes` (R128). -/
  | fromBytes (d : DReg) (bytes : Datagram)
  /-- `WRITE_PAYLOAD D, p, v` (R129). -/
  | writePayload (d : DReg) (p : BitVec 5) (v : Byte)
  /-- `READ ctx` (R142). -/
  | read (ctx : Ctx)
  /-- `REQUEST_TO_DATAGRAM D, dst, msg` (R171). -/
  | requestToDatagram (d : DReg) (dst : Byte) (msg : Payload)
  /-- `RESPONSE_TO_DATAGRAM D, src, msg` (R172). -/
  | responseToDatagram (d : DReg) (src : Byte) (msg : Payload)
  /-- `FROM_DATAGRAM D, T` (R173). -/
  | fromDatagram (d : DReg) (t : BitVec 4)
  /-- `DISCRIMINATE D` (R174). -/
  | discriminate (d : DReg)
  /-- The pull answers `BYTE(b)` (R143 to R146). -/
  | pullByte (b : Byte)
  /-- The pull answers `RETRY` (R147). -/
  | pullRetry
  /-- The pull answers `ABORT` (R148). -/
  | pullAbort
  /-- The pull answers anything else (R149). -/
  | pullOther
  /-- A 32-byte frame on the receive stream (R80); its two sentinels are fixed by the format. -/
  | datagram (src dst proto checksum : Byte) (payload : Payload)
  /-- `PHASON_GET_FEEDER_INFO_REQ` (R180). -/
  | phasonGetFeederInfoReq (d : DReg) (dst : Envelope)
  /-- `PHASON_GET_FEEDER_INFO_RESP` (R181). -/
  | phasonGetFeederInfoResp (d : DReg) (src : Envelope) (status : Byte)
      (protocolVersion firmwareYear firmwareMonth firmwareDay : List Byte) (uid : Uid)
  /-- `PHASON_RESET_FEEDER_REQ` (R182). -/
  | phasonResetFeederReq (d : DReg) (dst : Envelope)
  /-- `PHASON_RESET_FEEDER_RESP` (R183). -/
  | phasonResetFeederResp (d : DReg) (src : Envelope) (status : Byte)
  /-- `PHASON_START_FEED_REQ` (R184). -/
  | phasonStartFeedReq (d : DReg) (dst : Envelope) (sequence : List Byte) (micrometers : Word32)
  /-- `PHASON_START_FEED_RESP` (R185). -/
  | phasonStartFeedResp (d : DReg) (src : Envelope) (status : Byte) (sequence : List Byte)
  /-- `PHASON_FEED_STATUS_REQ` (R186). -/
  | phasonFeedStatusReq (d : DReg) (dst : Envelope) (sequence : List Byte)
  /-- `PHASON_FEED_STATUS_RESP` (R187). -/
  | phasonFeedStatusResp (d : DReg) (src : Envelope) (status : Byte) (sequence : List Byte)
      (actualMicrometers : Word32)
  /-- `PHASON_QUERY_BY_UID_REQ` (R188). -/
  | phasonQueryByUidReq (d : DReg) (dst : Envelope) (uid : Uid)
  /-- `PHASON_QUERY_BY_UID_RESP` (R189). -/
  | phasonQueryByUidResp (d : DReg) (src : Envelope) (status : Byte)
  deriving DecidableEq, Repr

end Sys2Proof
end

