-- ==== Sys2Proof/WellFormed.lean ====
section
/-! DEFINITION. The operand checks: the ranges of rule R111 that an operand's own type does not
already give (a payload offset is 0 to 25, a message type index 0 to 9, a context value has `CTX_W`
bits), and that the fields of a message and the operands of a message row are those of its type's
layout, each of its width. -/

namespace Sys2Proof

/-- `p` is a payload offset (R111). -/
abbrev payloadOffsetOk (p : BitVec 5) : Bool := decide (p.toNat ≤ 25)

/-- `t` is a message type index (R111). -/
abbrev messageIndexOk (t : BitVec 4) : Bool := decide (t.toNat ≤ 9)

/-- `x` is a context value: `CTX_W` bits (R29, R111). -/
abbrev contextOk (c : Config) (x : Ctx) : Bool := decide (x < 2 ^ c.ctxW)

/-- A value fits a slot: the integer where the slot holds one, else as many bytes as the slot. -/
def Value.fits (sl : Slot) : Value → Bool
  | .bytes bs => !sl.isInteger && bs.length == sl.width
  | .int _ => sl.isInteger

/-- The fields of a message are those of the layout, in its order, each of its width (R90, R97). -/
def fieldsFit : List Slot → Fields → Bool
  | [], [] => true
  | sl :: sls, a :: as => decide (a.field = sl.field) && a.value.fits sl && fieldsFit sls as
  | [], _ :: _ => false
  | _ :: _, [] => false

/-- A message as its type's layout has it. -/
abbrev Message.fits (c : Config) (m : Message) : Bool := fieldsFit (c.slots m.type) m.fields

/-- The fields of a type that are operands of its row, in the order of R98 to R107. -/
def MsgType.named : MsgType → List Field
  | .getFeederInfoReq => []
  | .getFeederInfoResp =>
      [.status, .protocolVersion, .firmwareYear, .firmwareMonth, .firmwareDay, .uid]
  | .resetFeederReq => []
  | .resetFeederResp => [.status]
  | .startFeedReq => [.sequence, .micrometers]
  | .startFeedResp => [.status, .sequence]
  | .feedStatusReq => [.sequence]
  | .feedStatusResp => [.status, .sequence, .actualMicrometers]
  | .queryByUidReq => [.uid]
  | .queryByUidResp => [.status]

/-- The slot the layout of a type gives a field, if it has the field. -/
def Config.slotOf (c : Config) (T : MsgType) (f : Field) : Option Slot :=
  (c.slots T).find? fun sl => decide (sl.field = f)

/-- A byte-list operand has the width the layout gives its field; one the layout lacks is empty
(assumption 23). -/
def Config.operandFits (c : Config) (T : MsgType) (f : Field) (bs : List Byte) : Bool :=
  match c.slotOf T f with
  | some sl => bs.length == sl.width
  | none => bs.isEmpty

/-- The slots of a type for fields that are no operands of its row. -/
def Config.furtherSlots (c : Config) (T : MsgType) : List Slot :=
  (c.slots T).filter fun sl => decide (sl.field ∉ T.named)

/-- The further fields of a message row are those of its type's layout. -/
abbrev Config.furtherFit (c : Config) (T : MsgType) (fs : Fields) : Bool :=
  fieldsFit (c.furtherSlots T) fs

/-- The operand ranges a request is accepted by (R113): `p` is 0 to 25, `T` is 0 to 9. -/
def Instr.inRange : Instr → Bool
  | .writePayload _ p _ => payloadOffsetOk p
  | .fromDatagram _ t => messageIndexOk t
  | .read _ => true
  | .init _ _ _ _ => true
  | .computeChecksum _ => true
  | .setChecksum _ => true
  | .checkChecksum _ => true
  | .asBytes _ => true
  | .fromBytes _ _ => true
  | .requestToDatagram _ _ _ => true
  | .responseToDatagram _ _ _ => true
  | .discriminate _ => true
  | .pullByte _ => true
  | .pullRetry => true
  | .pullAbort => true
  | .pullOther => true
  | .datagram _ _ _ _ _ => true
  | .phasonGetFeederInfoReq _ _ => true
  | .phasonGetFeederInfoResp _ _ _ _ _ _ _ _ => true
  | .phasonResetFeederReq _ _ => true
  | .phasonResetFeederResp _ _ _ => true
  | .phasonStartFeedReq _ _ _ _ => true
  | .phasonStartFeedResp _ _ _ _ => true
  | .phasonFeedStatusReq _ _ _ => true
  | .phasonFeedStatusResp _ _ _ _ _ => true
  | .phasonQueryByUidReq _ _ _ => true
  | .phasonQueryByUidResp _ _ _ => true

/-- An instruction that a word can name under the configuration: its operands have the ranges and
widths of R111, and those of a message row are what its type's layout has. -/
def Instr.wf (c : Config) : Instr → Bool
  | .writePayload _ p _ => payloadOffsetOk p
  | .fromDatagram _ t => messageIndexOk t
  | .read x => contextOk c x
  | .init _ _ _ _ => true
  | .computeChecksum _ => true
  | .setChecksum _ => true
  | .checkChecksum _ => true
  | .asBytes _ => true
  | .fromBytes _ _ => true
  | .requestToDatagram _ _ _ => true
  | .responseToDatagram _ _ _ => true
  | .discriminate _ => true
  | .pullByte _ => true
  | .pullRetry => true
  | .pullAbort => true
  | .pullOther => true
  | .datagram _ _ _ _ _ => true
  | .phasonGetFeederInfoReq _ e => c.furtherFit .getFeederInfoReq e.further
  | .phasonGetFeederInfoResp _ e _ ver y mo dd _ =>
      c.operandFits .getFeederInfoResp .protocolVersion ver &&
      c.operandFits .getFeederInfoResp .firmwareYear y &&
      c.operandFits .getFeederInfoResp .firmwareMonth mo &&
      c.operandFits .getFeederInfoResp .firmwareDay dd &&
      c.furtherFit .getFeederInfoResp e.further
  | .phasonResetFeederReq _ e => c.furtherFit .resetFeederReq e.further
  | .phasonResetFeederResp _ e _ => c.furtherFit .resetFeederResp e.further
  | .phasonStartFeedReq _ e q _ =>
      c.operandFits .startFeedReq .sequence q && c.furtherFit .startFeedReq e.further
  | .phasonStartFeedResp _ e _ q =>
      c.operandFits .startFeedResp .sequence q && c.furtherFit .startFeedResp e.further
  | .phasonFeedStatusReq _ e q =>
      c.operandFits .feedStatusReq .sequence q && c.furtherFit .feedStatusReq e.further
  | .phasonFeedStatusResp _ e _ q _ =>
      c.operandFits .feedStatusResp .sequence q && c.furtherFit .feedStatusResp e.further
  | .phasonQueryByUidReq _ e _ => c.furtherFit .queryByUidReq e.further
  | .phasonQueryByUidResp _ e _ => c.furtherFit .queryByUidResp e.further

end Sys2Proof
end

