-- ==== Sys2Proof/Decode.lean ====
section
/-! DEFINITION. The four encodings (30_encoding.md): the datagram layout, the command messages in a
payload, the pull word and the operation request; the decoder, total on every word of each format,
rejecting by name; after it the encoder, written from the same tables; last the numbering of
spec/opcode_table.json. -/

namespace Sys2Proof

/-! ## Byte strings and the integer field -/

/-- A byte list of exactly `n` bytes as a fixed-size byte string. -/
def bytesOfList (n : Nat) (l : List Byte) : Option (Vector Byte n) :=
  if h : l.length = n then some ⟨l.toArray, by simp [h]⟩ else none

/-- Byte `k` of a 32-bit pattern: bits `8k+7` to `8k` (R92). -/
def byteOf (v : Word32) (k : Nat) : Byte := v.extractLsb' (8 * k) 8

/-- Disassembly of the integer field, lowest payload offset first (R92). -/
def intBytes : IntOrder → Word32 → List Byte
  | .little, v => [byteOf v 0, byteOf v 1, byteOf v 2, byteOf v 3]
  | .big, v => [byteOf v 3, byteOf v 2, byteOf v 1, byteOf v 0]

/-- The little-endian assembly of R92. -/
def assemble (b0 b1 b2 b3 : Byte) : Word32 :=
  b0.zeroExtend 32 ||| (b1.zeroExtend 32 <<< 8) ||| (b2.zeroExtend 32 <<< 16) |||
    (b3.zeroExtend 32 <<< 24)

/-- Assembly of the integer field from its four bytes, lowest payload offset first (R58, R92). -/
def intOf : IntOrder → Byte → Byte → Byte → Byte → Word32
  | .little, b0, b1, b2, b3 => assemble b0 b1 b2 b3
  | .big, b0, b1, b2, b3 => assemble b3 b2 b1 b0

/-- The first `n` bytes of a number, byte `k` its bits `8k+7` to `8k`. -/
def numBytes (n w : Nat) : List Byte := (List.range n).map fun k => BitVec.ofNat 8 (w >>> (8 * k))

/-- The number whose bytes a list is, its lowest byte first. -/
def numOf : List Byte → Nat
  | [] => 0
  | b :: bs => b.toNat + 256 * numOf bs

/-- The bytes a context value takes: the least number that hold `CTX_W` bits. -/
def Config.ctxBytes (c : Config) : Nat := (c.ctxW + 7) / 8

/-! ## Format FRAME: the datagram layout (R80) -/

/-- The 32 bytes of a datagram whose sentinels are the constants (R21, R80). -/
def frameBytes (src dst proto checksum : Byte) (payload : Payload) : Datagram :=
  #v[START, src, dst, proto, checksum] ++ payload ++ #v[STOP]

/-- The payload of a datagram: payload offset `p` is frame offset `p + 5` (R10). -/
def payloadOf (d : Datagram) : Payload := Vector.ofFn fun p => d[p.val + 5]

/-! ## Format CMD: the messages in a payload (R90 to R107, R175) -/

/-- The slot of type `T` that payload offset `p` belongs to, if any. -/
def Config.slotAt (c : Config) (T : MsgType) (p : Nat) : Option Slot :=
  (c.slots T).find? fun sl => sl.covers p

/-- The bytes of a value, lowest offset first (R92, R93). -/
def Value.toBytes (o : IntOrder) : Value → List Byte
  | .bytes bs => bs
  | .int v => intBytes o v

/-- The value a message gives a field, if it gives one. -/
def Message.value (m : Message) (f : Field) : Option Value :=
  (m.fields.find? fun a => decide (a.field = f)).map Assign.value

/-- The bytes of one field of a message, lowest offset first; a field the message lacks has none. -/
def Message.fieldBytes (o : IntOrder) (m : Message) (f : Field) : List Byte :=
  match m.value f with
  | some v => v.toBytes o
  | none => []

/-! The message of each message row: the operands as the values of the fields R98 to R107 name, then the
further fields of its envelope. -/

/-- `PHASON_GET_FEEDER_INFO_REQ` (R98). -/
def Message.getFeederInfoReq (further : Fields) : Message := ⟨.getFeederInfoReq, further⟩

/-- `PHASON_GET_FEEDER_INFO_RESP` (R99). -/
def Message.getFeederInfoResp (status : Byte) (ver y mo dd : List Byte) (uid : Uid)
    (further : Fields) : Message :=
  ⟨.getFeederInfoResp, [⟨.status, .bytes [status]⟩, ⟨.protocolVersion, .bytes ver⟩,
    ⟨.firmwareYear, .bytes y⟩, ⟨.firmwareMonth, .bytes mo⟩, ⟨.firmwareDay, .bytes dd⟩,
    ⟨.uid, .bytes uid.toList⟩] ++ further⟩

/-- `PHASON_RESET_FEEDER_REQ` (R100). -/
def Message.resetFeederReq (further : Fields) : Message := ⟨.resetFeederReq, further⟩

/-- `PHASON_RESET_FEEDER_RESP` (R101). -/
def Message.resetFeederResp (status : Byte) (further : Fields) : Message :=
  ⟨.resetFeederResp, [⟨.status, .bytes [status]⟩] ++ further⟩

/-- `PHASON_START_FEED_REQ` (R102). -/
def Message.startFeedReq (q : List Byte) (um : Word32) (further : Fields) : Message :=
  ⟨.startFeedReq, [⟨.sequence, .bytes q⟩, ⟨.micrometers, .int um⟩] ++ further⟩

/-- `PHASON_START_FEED_RESP` (R103). -/
def Message.startFeedResp (status : Byte) (q : List Byte) (further : Fields) : Message :=
  ⟨.startFeedResp, [⟨.status, .bytes [status]⟩, ⟨.sequence, .bytes q⟩] ++ further⟩

/-- `PHASON_FEED_STATUS_REQ` (R104). -/
def Message.feedStatusReq (q : List Byte) (further : Fields) : Message :=
  ⟨.feedStatusReq, [⟨.sequence, .bytes q⟩] ++ further⟩

/-- `PHASON_FEED_STATUS_RESP` (R105). -/
def Message.feedStatusResp (status : Byte) (q : List Byte) (um : Word32) (further : Fields) : Message :=
  ⟨.feedStatusResp, [⟨.status, .bytes [status]⟩, ⟨.sequence, .bytes q⟩,
    ⟨.actualMicrometers, .int um⟩] ++ further⟩

/-- `PHASON_QUERY_BY_UID_REQ` (R106). -/
def Message.queryByUidReq (uid : Uid) (further : Fields) : Message :=
  ⟨.queryByUidReq, [⟨.uid, .bytes uid.toList⟩] ++ further⟩

/-- `PHASON_QUERY_BY_UID_RESP` (R107). -/
def Message.queryByUidResp (status : Byte) (further : Fields) : Message :=
  ⟨.queryByUidResp, [⟨.status, .bytes [status]⟩] ++ further⟩

/-! The operands of a message row found in a message. -/

/-- The bytes of a field; none if the message lacks it. -/
def Message.bytesAt (m : Message) (f : Field) : List Byte :=
  match m.value f with
  | some (.bytes bs) => bs
  | some (.int _) => []
  | none => []

/-- The 32-bit pattern of a field. -/
def Message.intAt (m : Message) (f : Field) : Word32 :=
  match m.value f with
  | some (.int v) => v
  | some (.bytes _) => 0
  | none => 0

/-- The status byte (R95). -/
def Message.statusByte (m : Message) : Byte := (m.bytesAt .status).headD 0

/-- The unique identifier (R93). -/
def Message.uniqueId (m : Message) : Uid := Vector.ofFn fun k => (m.bytesAt .uid).getD k 0

/-- The fields that are no operands of the row of the message's type. -/
def Message.further (m : Message) : Fields :=
  m.fields.filter fun a => decide (a.field ∉ m.type.named)

/-- `encode_T` (R175): byte 0 is the discriminator, each field's bytes stand at its offsets, every
other byte is zero. -/
def Message.payload (c : Config) (m : Message) : Payload :=
  Vector.ofFn fun p =>
    if p.val = 0 then c.discOf m.type
    else match c.slotAt m.type p.val with
      | some sl => (m.fieldBytes c.intOrder sl.field).getD (p.val - sl.offset) 0
      | none => 0

/-- The payload byte at an offset (an offset past the end reads as zero; no conforming layout has
one). -/
def payloadByte (p : Payload) (o : Nat) : Byte := p.toList.getD o 0

/-- The payload bytes of a slot, lowest offset first. -/
def slotBytes (sl : Slot) (p : Payload) : List Byte :=
  (List.range sl.width).map fun k => payloadByte p (sl.offset + k)

/-- The value found in a slot: the integer where the slot holds one (R92), else its bytes (R93). -/
def slotValue (o : IntOrder) (sl : Slot) (p : Payload) : Value :=
  if sl.isInteger then
    .int (intOf o (payloadByte p sl.offset) (payloadByte p (sl.offset + 1))
      (payloadByte p (sl.offset + 2)) (payloadByte p (sl.offset + 3)))
  else .bytes (slotBytes sl p)

/-- `decode_T` (R175) without its field `command`: the values at the offsets of `T`'s fields, whatever
the discriminator and the padding are (R94, R173). -/
def messageOf (c : Config) (T : MsgType) (p : Payload) : Message :=
  ⟨T, (c.slots T).map fun sl => ⟨sl.field, slotValue c.intOrder sl p⟩⟩

/-- The type whose discriminator a byte is, if any (R96, R174). -/
def Config.typeOf (c : Config) (b : Byte) : Option MsgType :=
  MsgType.all.find? fun T => decide (c.discOf T = b)

/-- The operation a selector names, if any (R110). -/
def Config.opOf (c : Config) (sel : BitVec 4) : Option OpName :=
  OpName.all.find? fun o => decide (c.selOf o = sel)

/-- The pull result a tag names, if any (R109). -/
def Config.pullOf (c : Config) (tag : BitVec 2) : Option PullTag :=
  PullTag.all.find? fun t => decide (c.tagOf t = tag)

/-! ## The words at the ports -/

/-- A word the caller puts on the operation port: a request of format OP as its bytes, or a command
message of format CMD with the operands of its conversion (assumption 6). -/
inductive RequestWord
  | op (bytes : List Byte)
  | cmd (bytes : List Byte)
  deriving DecidableEq, Repr

/-- What the byte source has ready on the receive stream: one pull word (R109), or a whole 32-byte
frame (assumption 5). -/
inductive StreamWord
  | pull (w : BitVec 10)
  | frame (d : Datagram)
  deriving DecidableEq, Repr

/-- A word of any of the four formats. -/
inductive PortWord
  | request (r : RequestWord)
  | stream (x : StreamWord)
  deriving DecidableEq, Repr

/-- Why a word is no instruction. -/
inductive Reject
  /-- A request of no bytes. -/
  | emptyRequest
  /-- `OPSEL` 0x0, 0xD, 0xE, 0xF: no operation (R108, R110). -/
  | reservedSelector (sel : BitVec 4)
  /-- A bit of a request that belongs to no operand is not zero (assumption 4). -/
  | reservedBits
  /-- The operand bytes of a request are too few or too many (R111). -/
  | operandLength
  /-- Byte 0 or byte 31 of a frame is not its sentinel (R80). -/
  | notSentinel
  /-- The first byte of a message is no discriminator of `DISC` (R108). -/
  | unknownDiscriminator (b : Byte)
  /-- The two tag bits of a pull word name no pull result under the configuration (R109). -/
  | unassignedTag (tag : BitVec 2)
  deriving DecidableEq, Repr

/-! ## The decoder -/

/-- The register selector of one bit (R111). -/
def regOfBit : Bool → DReg
  | false => .rx
  | true => .tx

/-- A fixed-size operand taken from the operand bytes. -/
def sized (n : Nat) (l : List Byte) (k : Vector Byte n → Instr) : Except Reject Instr :=
  match bytesOfList n l with
  | some v => .ok (k v)
  | none => .error .operandLength

/-- The operands of a request, in the order and widths of R111, each in bytes of its own
(assumption 4). -/
def decodeOperands (c : Config) (o : OpName) (bit : Bool) (rest : List Byte) : Except Reject Instr :=
  let d := regOfBit bit
  match o with
  | .init => match rest with
    | [src, dst, proto] => .ok (.init d src dst proto)
    | _ => .error .operandLength
  | .computeChecksum => match rest with
    | [] => .ok (.computeChecksum d)
    | _ => .error .operandLength
  | .setChecksum => match rest with
    | [] => .ok (.setChecksum d)
    | _ => .error .operandLength
  | .checkChecksum => match rest with
    | [] => .ok (.checkChecksum d)
    | _ => .error .operandLength
  | .asBytes => match rest with
    | [] => .ok (.asBytes d)
    | _ => .error .operandLength
  | .fromBytes => sized 32 rest fun bs => .fromBytes d bs
  | .writePayload => match rest with
    | [p, v] =>
      if p.extractLsb' 5 3 = 0#3 then .ok (.writePayload d (p.extractLsb' 0 5) v)
      else .error .reservedBits
    | _ => .error .operandLength
  | .read =>
    if rest.length = c.ctxBytes then
      if bit = false ∧ numOf rest < 2 ^ c.ctxW then .ok (.read (numOf rest))
      else .error .reservedBits
    else .error .operandLength
  | .requestToDatagram => match rest with
    | dst :: msg => sized 26 msg fun m => .requestToDatagram d dst m
    | _ => .error .operandLength
  | .responseToDatagram => match rest with
    | src :: msg => sized 26 msg fun m => .responseToDatagram d src m
    | _ => .error .operandLength
  | .fromDatagram => match rest with
    | [t] =>
      if t.extractLsb' 4 4 = 0#4 then .ok (.fromDatagram d (t.extractLsb' 0 4))
      else .error .reservedBits
    | _ => .error .operandLength
  | .discriminate => match rest with
    | [] => .ok (.discriminate d)
    | _ => .error .operandLength

/-- A request of format OP: the selector in bits 3:0 of its first byte, `D` in bit 4, bits 7:5 zero,
then the operands (R110, R111; assumption 4). -/
def decodeOp (c : Config) : List Byte → Except Reject Instr
  | [] => .error .emptyRequest
  | b :: rest =>
    if b.extractLsb' 5 3 = 0#3 then
      match c.opOf (b.extractLsb' 0 4) with
      | some o => decodeOperands c o (b.getLsbD 4) rest
      | none => .error (.reservedSelector (b.extractLsb' 0 4))
    else .error .reservedBits

/-- The instruction of a message with the operands of its conversion (assumption 6). -/
def Message.instr (d : DReg) (a : Byte) (m : Message) : Instr :=
  let e : Envelope := ⟨a, m.further⟩
  match m.type with
  | .getFeederInfoReq => .phasonGetFeederInfoReq d e
  | .getFeederInfoResp => .phasonGetFeederInfoResp d e m.statusByte (m.bytesAt .protocolVersion)
      (m.bytesAt .firmwareYear) (m.bytesAt .firmwareMonth) (m.bytesAt .firmwareDay) m.uniqueId
  | .resetFeederReq => .phasonResetFeederReq d e
  | .resetFeederResp => .phasonResetFeederResp d e m.statusByte
  | .startFeedReq => .phasonStartFeedReq d e (m.bytesAt .sequence) (m.intAt .micrometers)
  | .startFeedResp => .phasonStartFeedResp d e m.statusByte (m.bytesAt .sequence)
  | .feedStatusReq => .phasonFeedStatusReq d e (m.bytesAt .sequence)
  | .feedStatusResp => .phasonFeedStatusResp d e m.statusByte (m.bytesAt .sequence)
      (m.intAt .actualMicrometers)
  | .queryByUidReq => .phasonQueryByUidReq d e m.uniqueId
  | .queryByUidResp => .phasonQueryByUidResp d e m.statusByte

/-- A message of format CMD: 26 message bytes, then the register in bit 0 of a byte, then the
address (assumption 6). The padding of the message is not examined (R94). -/
def decodeCmd (c : Config) (bytes : List Byte) : Except Reject Instr :=
  match bytesOfList 26 (bytes.take 26), bytes.drop 26 with
  | some p, [reg, a] =>
    if reg.extractLsb' 1 7 = 0#7 then
      match c.typeOf p[0] with
      | some T => .ok ((messageOf c T p).instr (regOfBit (reg.getLsbD 0)) a)
      | none => .error (.unknownDiscriminator p[0])
    else .error .reservedBits
  | _, _ => .error .operandLength

/-- A word of the operation port. -/
def decodeRequest (c : Config) : RequestWord → Except Reject Instr
  | .op bytes => decodeOp c bytes
  | .cmd bytes => decodeCmd c bytes

/-- The instruction a pull result is. -/
def PullResult.instr : PullResult → Instr
  | .byte b => .pullByte b
  | .retry => .pullRetry
  | .abort => .pullAbort
  | .other => .pullOther

/-- A pull word: tag in bits 9:8, data in bits 7:0, the data ignored unless the tag is `BYTE`
(R109). -/
def decodePull (c : Config) (w : BitVec 10) : Except Reject PullResult :=
  match c.pullOf (w.extractLsb' 8 2) with
  | some .byte => .ok (.byte (w.extractLsb' 0 8))
  | some .retry => .ok .retry
  | some .abort => .ok .abort
  | some .other => .ok .other
  | none => .error (.unassignedTag (w.extractLsb' 8 2))

/-- A frame: its two sentinels must stand (the match and mask of R81); the checksum is the reader's
to test. -/
def decodeFrame (d : Datagram) : Except Reject Instr :=
  if d[0] = START ∧ d[31] = STOP then .ok (.datagram d[1] d[2] d[3] d[4] (payloadOf d))
  else .error .notSentinel

/-- A word of the receive stream. -/
def decodeStream (c : Config) : StreamWord → Except Reject Instr
  | .pull w => (decodePull c w).map PullResult.instr
  | .frame d => decodeFrame d

/-- The decoder: total, and every word of every format that is no instruction is rejected by name. -/
def decode (c : Config) : PortWord → Except Reject Instr
  | .request r => decodeRequest c r
  | .stream x => decodeStream c x

/-! ## The encoder -/

/-- The register selector bit (R111). -/
def bitOfReg : DReg → Bool
  | .rx => false
  | .tx => true

/-- The first byte of a request (R110; assumption 4). -/
def opHeader (c : Config) (o : OpName) (bit : Bool) : Byte :=
  0#3 ++ (BitVec.ofBool bit ++ c.selOf o)

/-- A request of format OP. -/
def opWord (c : Config) (o : OpName) (bit : Bool) (rest : List Byte) : PortWord :=
  .request (.op (opHeader c o bit :: rest))

/-- The pull word of a pull result, its data zero where the data is ignored (R109). -/
def encodePull (c : Config) : PullResult → BitVec 10
  | .byte b => c.tagOf .byte ++ b
  | .retry => c.tagOf .retry ++ 0#8
  | .abort => c.tagOf .abort ++ 0#8
  | .other => c.tagOf .other ++ 0#8

/-- A pull word of the receive stream. -/
def pullWord (c : Config) (r : PullResult) : StreamWord := .pull (encodePull c r)

/-- A message of format CMD with the operands of its conversion. -/
def cmdWord (c : Config) (d : DReg) (a : Byte) (m : Message) : PortWord :=
  .request (.cmd ((m.payload c).toList ++ [(BitVec.ofBool (bitOfReg d)).zeroExtend 8, a]))

/-- The word of an instruction. -/
def encode (c : Config) : Instr → PortWord
  | .init d src dst proto => opWord c .init (bitOfReg d) [src, dst, proto]
  | .computeChecksum d => opWord c .computeChecksum (bitOfReg d) []
  | .setChecksum d => opWord c .setChecksum (bitOfReg d) []
  | .checkChecksum d => opWord c .checkChecksum (bitOfReg d) []
  | .asBytes d => opWord c .asBytes (bitOfReg d) []
  | .fromBytes d bytes => opWord c .fromBytes (bitOfReg d) bytes.toList
  | .writePayload d p v => opWord c .writePayload (bitOfReg d) [p.zeroExtend 8, v]
  | .read ctx => opWord c .read false (numBytes c.ctxBytes ctx)
  | .requestToDatagram d dst msg =>
      opWord c .requestToDatagram (bitOfReg d) (dst :: msg.toList)
  | .responseToDatagram d src msg =>
      opWord c .responseToDatagram (bitOfReg d) (src :: msg.toList)
  | .fromDatagram d t => opWord c .fromDatagram (bitOfReg d) [t.zeroExtend 8]
  | .discriminate d => opWord c .discriminate (bitOfReg d) []
  | .pullByte b => .stream (pullWord c (.byte b))
  | .pullRetry => .stream (pullWord c .retry)
  | .pullAbort => .stream (pullWord c .abort)
  | .pullOther => .stream (pullWord c .other)
  | .datagram src dst proto checksum payload =>
      .stream (.frame (frameBytes src dst proto checksum payload))
  | .phasonGetFeederInfoReq d e => cmdWord c d e.address (.getFeederInfoReq e.further)
  | .phasonGetFeederInfoResp d e st ver y mo dd uid =>
      cmdWord c d e.address (.getFeederInfoResp st ver y mo dd uid e.further)
  | .phasonResetFeederReq d e => cmdWord c d e.address (.resetFeederReq e.further)
  | .phasonResetFeederResp d e st => cmdWord c d e.address (.resetFeederResp st e.further)
  | .phasonStartFeedReq d e q um => cmdWord c d e.address (.startFeedReq q um e.further)
  | .phasonStartFeedResp d e st q => cmdWord c d e.address (.startFeedResp st q e.further)
  | .phasonFeedStatusReq d e q => cmdWord c d e.address (.feedStatusReq q e.further)
  | .phasonFeedStatusResp d e st q um => cmdWord c d e.address (.feedStatusResp st q um e.further)
  | .phasonQueryByUidReq d e uid => cmdWord c d e.address (.queryByUidReq uid e.further)
  | .phasonQueryByUidResp d e st => cmdWord c d e.address (.queryByUidResp st e.further)

/-! ## The numbering of spec/opcode_table.json -/

/-- The number of operand bytes of a request (R111; assumption 4). -/
def OpName.operandBytes (c : Config) : OpName → Nat
  | .init => 3
  | .computeChecksum => 0
  | .setChecksum => 0
  | .checkChecksum => 0
  | .asBytes => 0
  | .fromBytes => 32
  | .writePayload => 2
  | .read => c.ctxBytes
  | .requestToDatagram => 27
  | .responseToDatagram => 27
  | .fromDatagram => 1
  | .discriminate => 0

/-- A table word as a request: format OP where its first byte is an OP header, else format CMD. The
table gives the OP and CMD rows eight bits each and the same values 0x01 to 0x04 stand in both, so
those four are read as OP (assumption 7). -/
def tableRequest (c : Config) (w : Nat) : RequestWord :=
  let b := BitVec.ofNat 8 w
  if b.extractLsb' 5 3 = 0#3 then
    match c.opOf (b.extractLsb' 0 4) with
    | some o => .op (numBytes (1 + o.operandBytes c) w)
    | none => .cmd (numBytes 28 w)
  else .cmd (numBytes 28 w)

/-- A table word as a frame: byte 0 in the low bits, or, since the table writes the DATAGRAM row
with offset 0 leftmost, byte 0 in the high bits; the sentinels tell which (assumption 7). -/
def tableFrame (w : Nat) : Option StreamWord :=
  match bytesOfList 32 (numBytes 32 w), bytesOfList 32 (numBytes 32 w).reverse with
  | some d, some r => if d[0] = START then some (.frame d) else some (.frame r)
  | _, _ => none

/-- The port word a table word is: a row of up to 8 bits stands at the operation port, one of 10
bits (two whole bytes) at the pull port, one of 208 or 224 bits is a message, one of 256 bits a
frame. -/
def tableWord (c : Config) (nbits w : Nat) : Option PortWord :=
  if nbits ≤ 8 then some (.request (tableRequest c w))
  else if nbits ≤ 16 then
    if w < 1024 then some (.stream (.pull (BitVec.ofNat 10 w))) else none
  else if nbits = 208 ∨ nbits = 224 then some (.request (.cmd (numBytes 28 w)))
  else if nbits = 256 then (tableFrame w).map PortWord.stream
  else some (.request (tableRequest c w))

/-- The instruction the decoder reads from a table word, under the default configuration. -/
def decodeTableWord (nbits w : Nat) : Option Instr :=
  match tableWord Config.default nbits w with
  | some x => match decode Config.default x with
    | .ok i => some i
    | .error _ => none
  | none => none

end Sys2Proof
end

