-- ==== Sys2Proof/Machine/State.lean ====
section
/-! DEFINITION. The state of the block (10_state.md) as plain data, the reasons a step can stop, and
the state after reset (R40). -/

namespace Sys2Proof.Machine

/-- `RSTATE` (R26). `ReadingBody(n)` is `readingBody` with `CNT = n`: the two are redundant in the
busy states and R26 lets a model keep `n` once. -/
inductive RState
  | idle
  | awaitStart
  | readingBody
  | validating
  | ok
  | failed (k : Failure)
  deriving DecidableEq, Repr

/-- A datagram register: its 32 cells and its valid flag (R20, R22). -/
structure DatagramReg where
  cells : Datagram
  valid : Bool
  deriving DecidableEq, Repr

/-- What `DISCRIMINATE` finds a payload to be (R174). -/
inductive Kind
  | message (T : MsgType)
  | unknown
  | notPhason
  deriving DecidableEq, Repr

/-- The fields `FROM_DATAGRAM` returns (R173, R175): `command` and the fields of the type, with the
name of its status byte under `STATUS` (R95, R176) and the number its integer field, the first in
layout order, is read as under `MICROMETERS_SIGNED` (R92), where it has them (assumption 21). -/
structure View where
  command : Byte
  message : Message
  statusName : Option Status
  micrometers : Option Int
  deriving DecidableEq, Repr

/-- A value on the result port (R111, R112). -/
inductive Returned
  /-- The byte of `COMPUTE_CHECKSUM`. -/
  | checksum (b : Byte)
  /-- The bit of `CHECK_CHECKSUM`. -/
  | verdict (b : Bool)
  /-- The 32 bytes of `AS_BYTES`. -/
  | bytes (d : Datagram)
  /-- The outcome of `READ`, its code on the port (R211), and the datagram only when it is `OK`. -/
  | readResult (r : ReadResult) (code : BitVec 3) (d : Option Datagram)
  /-- The fields of `FROM_DATAGRAM`. -/
  | fields (v : View)
  /-- `proto_ok`, `disc`, `is_response`, `kind` of `DISCRIMINATE`. -/
  | discriminated (protoOk : Bool) (disc : Byte) (isResponse : Bool) (kind : Kind)
  deriving DecidableEq, Repr

/-- The state. The fields `rx` to `ctx` are the block's own (R20 to R29); `ACC` is a local variable
of the checksum function, as R31 asks. `cfg` is the fixed configuration (R7); the others are the
block's ports (D3): what the caller and the byte source have ready, the reset input, and what the
block last put out (assumptions 1, 2, 8). -/
structure State where
  /-- `RX` and `RX.valid`. -/
  rx : DatagramReg
  /-- `TX` and `TX.valid`. -/
  tx : DatagramReg
  /-- `CNT`, the bytes stored by the attempt (R25). -/
  cnt : BitVec 6
  /-- `RSTATE` (R26). -/
  rstate : RState
  /-- `RESULT` (R27). -/
  result : Option ReadResult
  /-- `CTX` (R29). -/
  ctx : Ctx
  /-- The configuration, which no step changes. -/
  cfg : Config
  /-- The operation port: the requests the caller will make, next first. -/
  requests : List RequestWord
  /-- The pull port: the answers the byte source will give, next first. -/
  stream : List StreamWord
  /-- The reset input (R240). -/
  resetPin : Bool
  /-- The result port in the step just taken (R112). -/
  resultPort : Option Returned
  /-- The context the step just taken presented on the pull port, if it pulled (R50). -/
  pullCtx : Option Ctx
  /-- The transmit stream: every byte handed to the byte sink, oldest first (R33, R56). -/
  sink : List Byte
  deriving DecidableEq, Repr

/-- The faults: none. "Nothing in this list makes the block fault" (R108); the failures of a read
attempt are next states (R216). Nothing raises one, which is safe. -/
inductive Fault
  deriving DecidableEq, Repr

/-- Why a request has no step. Every one is safe: it can only make a claim unprovable (R220). -/
inductive Refusal
  /-- Raised by an arm of `exec` for an instruction without a meaning yet; no arm is one now. -/
  | notModelled (mnemonic : String)
  /-- Raised by every request while a read attempt is busy (R113). Safe. -/
  | readerBusy
  /-- Raised by a reading operation on a register whose valid flag is 0 (R22, R113). Safe. -/
  | registerInvalid (d : DReg)
  /-- Raised by `WRITE_PAYLOAD` for `p` above 25 (R113). Safe. -/
  | payloadOffset (p : BitVec 5)
  /-- Raised by `FROM_DATAGRAM` for `T` above 9 (R113). Safe. -/
  | messageIndex (t : BitVec 4)
  /-- Raised by `step` for a port word that is no instruction, the reserved selectors among them
  (R108, R113). Safe. -/
  | noInstruction (why : Reject)
  deriving DecidableEq, Repr

/-- A register after reset: valid flag 0 (R40), cells zero (DESIGN CHOICE, assumption 9: R40 leaves
them unspecified; unsafe, though no operation can read them). -/
def DatagramReg.reset : DatagramReg := ⟨Vector.replicate 32 0#8, false⟩

/-- The state after reset (R40): `Idle`, `CNT` 0, `RESULT` none, both valid flags 0. `CTX` and the
cells are zero (DESIGN CHOICE, assumption 9). Nothing waits at a port. -/
def State.reset : State where
  rx := DatagramReg.reset
  tx := DatagramReg.reset
  cnt := 0#6
  rstate := .idle
  result := none
  ctx := 0
  cfg := Config.default
  requests := []
  stream := []
  resetPin := false
  resultPort := none
  pullCtx := none
  sink := []

/-- The outcome of a step of this machine. -/
abbrev Outcome := Host.Outcome State Fault Refusal

end Sys2Proof.Machine
end

