-- ==== Sys2Proof/Machine/Checksum.lean ====
section
/-! DEFINITION. The checksum function (R122, R123) and the pure functions of the Framing Codec built
on it (R121, R124, R125). `ACC` is the local accumulator of these functions (R31). -/

namespace Sys2Proof.Machine

/-- One inner step: "bit 15 is tested before each left shift, and if set, the accumulator is XORed
with the constant `0x1070 << 3` before the shift" (R122). -/
def crcStep (acc : Acc) : Acc :=
  (if acc.getLsbD 15 then acc ^^^ CRC_POLY16 else acc) <<< 1

/-- The inner step repeated. -/
def crcSteps : Nat → Acc → Acc
  | 0, acc => acc
  | n + 1, acc => crcSteps n (crcStep acc)

/-- `crc_byte`: the byte into the high byte, then eight inner steps (R122). -/
def crcByte (acc : Acc) (b : Byte) : Acc := crcSteps 8 (acc ^^^ (b.zeroExtend 16 <<< 8))

/-- The accumulator after a list of bytes, seeded with `acc` (R122). -/
def crcFold (acc : Acc) (bs : List Byte) : Acc := bs.foldl crcByte acc

/-- `crc_raw`: seeded at zero, the high byte of the accumulator (R122). -/
def crcRaw (bs : List Byte) : Byte := (crcFold 0#16 bs).extractLsb' 8 8

/-- `compute_checksum`: offset 4 is read as zero, nothing is written (R123, decision D9). -/
def computeChecksum (d : Datagram) : Byte := crcRaw (d.set 4 0#8).toList

/-- `set_checksum` (R124). -/
def setChecksum (d : Datagram) : Datagram := d.set 4 (computeChecksum d)

/-- `check_checksum` (R125). -/
def checkChecksum (d : Datagram) : Bool := decide (d[4] = computeChecksum d)

/-- `init`: the sentinels, addresses and protocol id, checksum zero, payload zero-filled (R121). -/
def initFrame (src dst proto : Byte) : Datagram :=
  frameBytes src dst proto 0#8 (Vector.replicate 26 0#8)

/-- `d[5..30] <- msg`, verbatim (R171). -/
def withPayload (d : Datagram) (msg : Payload) : Datagram :=
  Vector.ofFn fun o =>
    if h : 5 ≤ o.val ∧ o.val ≤ 30 then msg[o.val - 5] else d[o.val]

/-- `request_to_datagram`: from the controller, protocol id 0xA1, the message verbatim, the checksum
last (R171). -/
def requestFrame (dst : Byte) (msg : Payload) : Datagram :=
  setChecksum (withPayload (initFrame ADDR_CONTROLLER dst PROTO_PHASON) msg)

/-- `response_to_datagram`: to the controller, the rest as for a request (R172). -/
def responseFrame (src : Byte) (msg : Payload) : Datagram :=
  setChecksum (withPayload (initFrame src ADDR_CONTROLLER PROTO_PHASON) msg)

end Sys2Proof.Machine
end

