-- ==== Sys2Proof/Machine/Operands.lean ====
section
/-! DEFINITION. The operand forms (R10, R111): the register selector, the payload offset, the message
type index, and the views a payload is read through (R92, R95, R173, R174). -/

namespace Sys2Proof.Machine

/-- The register a selector names (R20, R111). -/
def State.reg (s : State) : DReg → DatagramReg
  | .rx => s.rx
  | .tx => s.tx

/-- Writing the register a selector names; the other keeps its cells and flag (R20). -/
def State.setReg (s : State) (d : DReg) (r : DatagramReg) : State :=
  match d with
  | .rx => { s with rx := r }
  | .tx => { s with tx := r }

/-- The frame offset of a payload offset (R10). -/
def frameOffset (p : BitVec 5) : Nat := p.toNat + 5

/-- The message type of a type index, if it is 0 to 9 (R96, R111). -/
def messageType (t : BitVec 4) : Option MsgType := MsgType.all[t.toNat]?

/-- The status a status byte names under `STATUS`; a byte with no name gives none (R95, R176). -/
def statusOf (c : Config) (b : Byte) : Option Status :=
  Status.all.find? fun k => decide (c.statusCode k = b)

/-- The number an integer field is read as under `MICROMETERS_SIGNED` (R92). -/
def micrometersOf (c : Config) (v : Word32) : Int :=
  if c.micrometersSigned then v.toInt else (v.toNat : Int)

/-- The status byte of a message, if it has one (R95). -/
def messageStatus (m : Message) : Option Byte :=
  match m.value .status with
  | some (.bytes [b]) => some b
  | _ => none

/-- The integer of a value, if it is one (R92). -/
def Value.int? : Value → Option Word32
  | .int v => some v
  | .bytes _ => none

/-- The integer field of a message, if it has one (R92). R92 and C9 give no message more than one; a
replacement layout may (assumption 23), and then this is the first in the order of the layout (DESIGN
CHOICE, assumption 21). -/
def messageInt (m : Message) : Option Word32 := m.fields.findSome? fun a => Value.int? a.value

/-- What `FROM_DATAGRAM` returns of a payload read as type `T` (R173, R175): byte 0 as `command`, the
fields of the type, no validation of any kind. -/
def viewOf (c : Config) (T : MsgType) (p : Payload) : View :=
  let m := messageOf c T p
  { command := p[0], message := m, statusName := (messageStatus m).bind (statusOf c),
    micrometers := (messageInt m).map (micrometersOf c) }

/-- `kind` of R174: a foreign protocol id first, then the discriminator table. -/
def kindOf (c : Config) (d : Datagram) : Kind :=
  if d[3] = PROTO_PHASON then
    match c.typeOf d[5] with
    | some T => .message T
    | none => .unknown
  else .notPhason

/-- `discriminate` (R174). -/
def discriminateOf (c : Config) (d : Datagram) : Returned :=
  .discriminated (decide (d[3] = PROTO_PHASON)) d[5] (d[5].getLsbD 7) (kindOf c d)

end Sys2Proof.Machine
end

