-- ==== Sys2Proof/Machine/Flags.lean ====
section
/-! DEFINITION. The flag-like state (R28): which reader states are busy, terminal or pulling, the
verdict of the validating step, and `RESULT` as a function of `RSTATE`. -/

namespace Sys2Proof.Machine

/-- The busy values of `RSTATE` (R26); the others are terminal. -/
def RState.busy : RState → Bool
  | .idle => false
  | .awaitStart => true
  | .readingBody => true
  | .validating => true
  | .ok => false
  | .failed _ => false

/-- The states in which the block pulls (R50). -/
def RState.pulling : RState → Bool
  | .idle => false
  | .awaitStart => true
  | .readingBody => true
  | .validating => false
  | .ok => false
  | .failed _ => false

/-- The `RESULT` an `RSTATE` determines (R27). -/
def RState.result : RState → Option ReadResult
  | .idle => none
  | .awaitStart => none
  | .readingBody => none
  | .validating => none
  | .ok => some .ok
  | .failed k => some (.failed k)

/-- The verdict on 32 captured bytes: the stop sentinel first, then the checksum (R150, R214). -/
def verdictOf (d : Datagram) : ReadResult :=
  if d[31] = STOP then
    if checkChecksum d then .ok else .failed .badCrc8
  else .failed .noEndByte

/-- What makes 32 bytes a valid frame (R81). -/
def validFrame (d : Datagram) : Bool :=
  decide (d[0] = START) && decide (d[31] = STOP) && checkChecksum d

/-- The state of the reader after the `n`th byte of an attempt was stored (R143, R145, R146). -/
def afterStored (n : Nat) : RState := if n = 32 then .validating else .readingBody

end Sys2Proof.Machine
end

