-- ==== Sys2Proof/Machine/Ops.lean ====
section
/-! DEFINITION. The named operations the meanings share: the ports, the acceptance of a request
(R113), the writes of a datagram register, the pull and its storing step, the raising of a failure
(R216: the block's only exceptions), validation (R150), reset (R240), and what brings a word to the
point where `step` takes it. There is no return from a failure but a new request (R217). -/

namespace Sys2Proof.Machine

/-! ## The ports -/

/-- A step that returns nothing and pulls nothing. -/
def State.quiet (s : State) : State := { s with resultPort := none, pullCtx := none }

/-- A step that puts a value on the result port (R112); nothing else keeps it (R28). -/
def State.returning (v : Returned) (s : State) : State := { s.quiet with resultPort := some v }

/-- A step that pulls: `CTX` is presented, nothing is returned (R50). -/
def State.pulled (s : State) : State := { s with resultPort := none, pullCtx := some s.ctx }

/-- `Emit` of each byte in order; it always succeeds (R56). -/
def State.emit (bs : List Byte) (s : State) : State := { s with sink := s.sink ++ bs }

/-! ## Acceptance of requests (R113) -/

/-- A request is taken only in a terminal state (R113). -/
def accepting (s : State) (k : Outcome) : Outcome :=
  if s.rstate.busy then .refused .readerBusy else k

/-- A request that reads register `d` is taken only if that register's valid flag is 1 (R22,
R113). -/
def reading (d : DReg) (s : State) (k : Datagram → Outcome) : Outcome :=
  accepting s <|
    if (s.reg d).valid then k (s.reg d).cells else .refused (.registerInvalid d)

/-! ## Writes of a datagram register -/

/-- `MemWrite(D, 0, 32, g); D.valid <- 1` (R121). -/
def State.writeDatagram (d : DReg) (g : Datagram) (s : State) : State :=
  (s.setReg d ⟨g, true⟩).quiet

/-- `D[o] <- v`; the valid flag and the other cells stay (R124, R129). -/
def State.writeCell (d : DReg) (o : Nat) (v : Byte) (s : State) : State :=
  (s.setReg d { s.reg d with cells := (s.reg d).cells.setIfInBounds o v }).quiet

/-! ## Failures (R216) -/

/-- `raise k`: `RSTATE <- Failed(k); RESULT <- k`, the result port shows `k`, and nothing else: no
state is saved, no control transferred, `CNT`, `CTX`, `TX` and the valid flags stay (R216). -/
def State.raise (k : Failure) (s : State) : State :=
  { s with
    rstate := .failed k
    result := some (.failed k)
    resultPort := some (.readResult (.failed k) (s.cfg.codeOf (.failed k)) none) }

/-! ## Steps of a read attempt -/

/-- The start of an attempt (R142). -/
def State.startRead (ctx : Ctx) (s : State) : State :=
  { s.quiet with
    ctx := ctx
    cnt := 0#6
    result := none
    rx := { s.rx with valid := false }
    rstate := .awaitStart }

/-- The byte is stored at the frame offset `CNT` holds and `CNT` advances by one (R25, R143, R145,
R146). -/
def State.storeByte (b : Byte) (s : State) : State :=
  { s with
    rx := { s.rx with cells := s.rx.cells.setIfInBounds s.cnt.toNat b }
    cnt := s.cnt + 1#6
    rstate := afterStored (s.cnt.toNat + 1) }

/-- The step of a pull that answered `BYTE(b)`: in `AwaitStart` a byte that is not the start sentinel
is consumed, not stored, and fails the attempt (R143, R144); elsewhere any byte is stored (R145,
R146). -/
def State.takeByte (b : Byte) (s : State) : State :=
  if s.rstate = .awaitStart ∧ b ≠ START then (s.pulled).raise .noStartByte
  else (s.pulled).storeByte b

/-- The step of one pull in a pulling state (R143 to R149). -/
def State.takePull (r : PullResult) (s : State) : State :=
  match r with
  | .byte b => s.takeByte b
  | .retry => s.pulled
  | .abort => s.pulled.raise .aborted
  | .other => s.pulled.raise .unknown

/-- Words the block did not pull stay next on the receive stream: outside a pulling state "the reader
makes no step and no pull" (R151; assumption 5). -/
def State.unread (ws : List StreamWord) (s : State) : State :=
  { s.quiet with stream := ws ++ s.stream }

/-- A pull answer offered to the block: taken in a pulling state, left unread in any other. -/
def offer (r : PullResult) (s : State) : Outcome :=
  if s.rstate.pulling then .next (s.takePull r) else .next (s.unread [pullWord s.cfg r])

/-- The validating step (R150): the verdict on the captured bytes, in the order of R214. -/
def State.validate (s : State) : State :=
  match verdictOf s.rx.cells with
  | .ok =>
    { s.quiet with
      rx := { s.rx with valid := true }
      result := some .ok
      rstate := .ok
      resultPort := some (.readResult .ok (s.cfg.codeOf .ok) (some s.rx.cells)) }
  | .failed k => s.quiet.raise k

/-- The bytes of a frame behind its first, as the pull words that follow it on the stream (R53, R82). -/
def frameRest (c : Config) (d : Datagram) : List StreamWord :=
  (d.toList.drop 1).map fun b => pullWord c (.byte b)

/-- A whole frame offered to the block: 32 bytes the source has ready. A step pulls one of them (R13,
R50): in a pulling state this pull answers the first, and the others are next on the stream; in any
other state the frame stays unread (assumption 5). -/
def offerFrame (d : Datagram) (s : State) : Outcome :=
  if s.rstate.pulling then
    .next ({ s with stream := frameRest s.cfg d ++ s.stream }.takeByte d[0])
  else .next (s.unread [.frame d])

/-! ## Reset (R240) -/

/-- Asserting reset puts the block's own state at the values of R40, whatever it was doing; the
attempt ends without a result and the byte source is not told. The unspecified cells and `CTX` take
the values of `State.reset` (assumption 9); the reset input is a pulse (assumption 8). -/
def State.applyReset (s : State) : State :=
  { s.quiet with
    rx := DatagramReg.reset
    tx := DatagramReg.reset
    cnt := 0#6
    rstate := .idle
    result := none
    ctx := 0
    resetPin := false }

/-! ## What the ports have ready -/

/-- The instruction the receive stream has ready and the stream behind it. A frame word whose
sentinels do not stand is no DATAGRAM: it is its 32 bytes, pulled one by one (R108). -/
def nextOfStream (c : Config) : List StreamWord → Option (Except Reject Instr × List StreamWord)
  | [] => none
  | .pull w :: rest => some (decodeStream c (.pull w), rest)
  | .frame d :: rest =>
    match decodeFrame d with
    | .ok i => some (.ok i, rest)
    | .error _ =>
      some (.ok (.pullByte d[0]), frameRest c d ++ rest)

/-- The state in which the next step takes a request: reset not asserted, the reader terminal
(R113). -/
def State.forRequest (s : State) : State :=
  if s.rstate.busy then
    { s with resetPin := false, rstate := .idle, result := none, cnt := 0#6 }
  else { s with resetPin := false }

/-- The state in which the next step pulls: reset not asserted, an attempt under way; where none
is, the one `READ` with the context at hand starts (R142). -/
def State.forPull (s : State) : State :=
  if s.rstate.pulling then { s with resetPin := false }
  else { s.startRead s.ctx with resetPin := false }

/-- A port word placed where the next step takes it (assumption 7). -/
def State.place (x : PortWord) (s : State) : State :=
  match x with
  | .request r => { s.forRequest with requests := r :: s.requests }
  | .stream w => { s.forPull with stream := w :: s.stream }

end Sys2Proof.Machine
end

