-- ==== Sys2Proof/Machine/FramingCodec.lean ====
section
/-! DEFINITION. The meanings of the Framing Codec's operations (40_framing_codec.md). Each is one
step, and none can fail (R120, R219). -/

namespace Sys2Proof.Machine

/-- `INIT D, src, dst, proto` (R121). -/
def execInit (d : DReg) (src dst proto : Byte) (s : State) : Outcome :=
  accepting s (.next (s.writeDatagram d (initFrame src dst proto)))

/-- `COMPUTE_CHECKSUM D` (R123): `D` is not changed. -/
def execComputeChecksum (d : DReg) (s : State) : Outcome :=
  reading d s fun g => .next (s.returning (.checksum (computeChecksum g)))

/-- `SET_CHECKSUM D` (R124): only cell 4 changes. -/
def execSetChecksum (d : DReg) (s : State) : Outcome :=
  reading d s fun g => .next (s.writeCell d 4 (computeChecksum g))

/-- `CHECK_CHECKSUM D` (R125): `D` is not changed. -/
def execCheckChecksum (d : DReg) (s : State) : Outcome :=
  reading d s fun g => .next (s.returning (.verdict (checkChecksum g)))

/-- `AS_BYTES D` (R127): the 32 cells are emitted in frame-offset order and returned. -/
def execAsBytes (d : DReg) (s : State) : Outcome :=
  reading d s fun g => .next ((s.emit g.toList).returning (.bytes g))

/-- `FROM_BYTES D, bytes` (R128): no test of any kind. -/
def execFromBytes (d : DReg) (bytes : Datagram) (s : State) : Outcome :=
  accepting s (.next (s.writeDatagram d bytes))

/-- `WRITE_PAYLOAD D, p, v` (R129): one payload cell; `p` above 25 is not accepted (R113). -/
def execWritePayload (d : DReg) (p : BitVec 5) (v : Byte) (s : State) : Outcome :=
  reading d s fun _ =>
    if p.toNat ≤ 25 then .next (s.writeCell d (frameOffset p) v)
    else .refused (.payloadOffset p)

end Sys2Proof.Machine
end

