-- ==== Sys2Proof/Machine/CommandLayer.lean ====
section
/-! DEFINITION. The meanings of the Command Layer's operations (R171 to R174) and the two conversions
the message rows share. -/

namespace Sys2Proof.Machine

/-- A request payload into a datagram in `D` (R171): no check of the message or the address. -/
def sendRequest (d : DReg) (dst : Byte) (msg : Payload) (s : State) : Outcome :=
  accepting s (.next (s.writeDatagram d (requestFrame dst msg)))

/-- A response payload into a datagram in `D` (R172). -/
def sendResponse (d : DReg) (src : Byte) (msg : Payload) (s : State) : Outcome :=
  accepting s (.next (s.writeDatagram d (responseFrame src msg)))

/-- `REQUEST_TO_DATAGRAM D, dst, msg` (R171). -/
def execRequestToDatagram (d : DReg) (dst : Byte) (msg : Payload) (s : State) : Outcome :=
  sendRequest d dst msg s

/-- `RESPONSE_TO_DATAGRAM D, src, msg` (R172). -/
def execResponseToDatagram (d : DReg) (src : Byte) (msg : Payload) (s : State) : Outcome :=
  sendResponse d src msg s

/-- `FROM_DATAGRAM D, T` (R173): the fields of type `T`, nothing validated, `D` not changed; `T`
above 9 is not accepted (R113). -/
def execFromDatagram (d : DReg) (t : BitVec 4) (s : State) : Outcome :=
  reading d s fun g =>
    match messageType t with
    | some T => .next (s.returning (.fields (viewOf s.cfg T (payloadOf g))))
    | none => .refused (.messageIndex t)

/-- `DISCRIMINATE D` (R174). -/
def execDiscriminate (d : DReg) (s : State) : Outcome :=
  reading d s fun g => .next (s.returning (discriminateOf s.cfg g))

end Sys2Proof.Machine
end

