-- ==== Sys2Proof/Machine/Phason.lean ====
section
/-! DEFINITION. The meanings of the ten message rows (R180 to R189): `encode_T` of the fields (R175),
wrapped by the conversion of the message's direction into register `d` (R171, R172; assumption 6).
The other direction, `decode_T`, is `FROM_DATAGRAM`. -/

namespace Sys2Proof.Machine

/-- `PHASON_GET_FEEDER_INFO_REQ` (R180). -/
def execPhasonGetFeederInfoReq (d : DReg) (dst : Envelope) (s : State) : Outcome :=
  sendRequest d dst.address ((Message.getFeederInfoReq dst.further).payload s.cfg) s

/-- `PHASON_GET_FEEDER_INFO_RESP` (R181). -/
def execPhasonGetFeederInfoResp (d : DReg) (src : Envelope) (status : Byte)
    (protocolVersion firmwareYear firmwareMonth firmwareDay : List Byte) (uid : Uid) (s : State) :
    Outcome :=
  sendResponse d src.address ((Message.getFeederInfoResp status protocolVersion firmwareYear
    firmwareMonth firmwareDay uid src.further).payload s.cfg) s

/-- `PHASON_RESET_FEEDER_REQ` (R182): a message, not a reset of the block (R240). -/
def execPhasonResetFeederReq (d : DReg) (dst : Envelope) (s : State) : Outcome :=
  sendRequest d dst.address ((Message.resetFeederReq dst.further).payload s.cfg) s

/-- `PHASON_RESET_FEEDER_RESP` (R183). -/
def execPhasonResetFeederResp (d : DReg) (src : Envelope) (status : Byte) (s : State) : Outcome :=
  sendResponse d src.address ((Message.resetFeederResp status src.further).payload s.cfg) s

/-- `PHASON_START_FEED_REQ` (R184). -/
def execPhasonStartFeedReq (d : DReg) (dst : Envelope) (sequence : List Byte)
    (micrometers : Word32) (s : State) : Outcome :=
  sendRequest d dst.address ((Message.startFeedReq sequence micrometers dst.further).payload s.cfg) s

/-- `PHASON_START_FEED_RESP` (R185): the block copies whatever sequence number it is given. -/
def execPhasonStartFeedResp (d : DReg) (src : Envelope) (status : Byte)
    (sequence : List Byte) (s : State) : Outcome :=
  sendResponse d src.address ((Message.startFeedResp status sequence src.further).payload s.cfg) s

/-- `PHASON_FEED_STATUS_REQ` (R186). -/
def execPhasonFeedStatusReq (d : DReg) (dst : Envelope) (sequence : List Byte) (s : State) :
    Outcome :=
  sendRequest d dst.address ((Message.feedStatusReq sequence dst.further).payload s.cfg) s

/-- `PHASON_FEED_STATUS_RESP` (R187). -/
def execPhasonFeedStatusResp (d : DReg) (src : Envelope) (status : Byte)
    (sequence : List Byte) (actualMicrometers : Word32) (s : State) : Outcome :=
  sendResponse d src.address ((Message.feedStatusResp status sequence
    actualMicrometers src.further).payload s.cfg) s

/-- `PHASON_QUERY_BY_UID_REQ` (R188): to any destination, which the spec leaves to the caller. -/
def execPhasonQueryByUidReq (d : DReg) (dst : Envelope) (uid : Uid) (s : State) : Outcome :=
  sendRequest d dst.address ((Message.queryByUidReq uid dst.further).payload s.cfg) s

/-- `PHASON_QUERY_BY_UID_RESP` (R189). -/
def execPhasonQueryByUidResp (d : DReg) (src : Envelope) (status : Byte) (s : State) : Outcome :=
  sendResponse d src.address ((Message.queryByUidResp status src.further).payload s.cfg) s

end Sys2Proof.Machine
end

