-- ==== Sys2Proof/Machine/StreamReader.lean ====
section
/-! DEFINITION. The meanings of the Stream Reader (41_stream_reader.md): `READ`, the four pull
answers, a whole frame; and the attempt as one function (R156). -/

namespace Sys2Proof.Machine

/-- `READ ctx` (R142): the start step of an attempt. -/
def execRead (ctx : Ctx) (s : State) : Outcome := accepting s (.next (s.startRead ctx))

/-- A pull answered `BYTE(b)` (R143 to R146). -/
def execPullByte (b : Byte) (s : State) : Outcome := offer (.byte b) s

/-- A pull answered `RETRY`: no state of the block changes (R147). -/
def execPullRetry (s : State) : Outcome := offer .retry s

/-- A pull answered `ABORT` (R148). -/
def execPullAbort (s : State) : Outcome := offer .abort s

/-- A pull answered anything else (R149). -/
def execPullOther (s : State) : Outcome := offer .other s

/-- A 32-byte frame on the receive stream (R80, R81, R156). -/
def execDatagram (src dst proto checksum : Byte) (payload : Payload) (s : State) : Outcome :=
  offerFrame (frameBytes src dst proto checksum payload) s

/-- The verdict on the bytes captured so far (R156 after its loop). -/
def readVerdict (buf : Datagram) (rest : List PullResult) :
    ReadResult × Option Datagram × List PullResult :=
  match verdictOf buf with
  | .ok => (.ok, some buf, rest)
  | .failed k => (.failed k, none, rest)

/-- The loop of `read(s)` (R156) with `buf` and `n` as they stand: none where the pull results run
out with the attempt still busy. -/
def readLoop (buf : Datagram) (n : Nat) :
    List PullResult → Option (ReadResult × Option Datagram × List PullResult)
  | [] => if n = 32 then some (readVerdict buf []) else none
  | r :: rest =>
    if n = 32 then some (readVerdict buf (r :: rest))
    else match r with
      | .retry => readLoop buf n rest
      | .abort => some (.failed .aborted, none, rest)
      | .other => some (.failed .unknown, none, rest)
      | .byte b =>
        if n = 0 ∧ b ≠ START then some (.failed .noStartByte, none, rest)
        else readLoop (buf.setIfInBounds n b) (n + 1) rest

/-- The attempt as one function of the pull results (R156). -/
def readAttempt (rs : List PullResult) : Option (ReadResult × Option Datagram × List PullResult) :=
  readLoop (Vector.replicate 32 0#8) 0 rs

end Sys2Proof.Machine
end

