-- ==== Sys2Proof/Machine/Dispatch.lean ====
section
/-! DEFINITION. One arm per constructor of `Instr`, each one direct call of its meaning. -/

namespace Sys2Proof.Machine

open Sys2Proof

/-- What an instruction does at a state. -/
def exec (i : Instr) (s : State) : Host.Outcome State Fault Refusal :=
  match i with
  -- Framing Codec (R121 to R129)
  | .init d src dst proto => Sys2Proof.Machine.execInit d src dst proto s
  | .computeChecksum d => Sys2Proof.Machine.execComputeChecksum d s
  | .setChecksum d => Sys2Proof.Machine.execSetChecksum d s
  | .checkChecksum d => Sys2Proof.Machine.execCheckChecksum d s
  | .asBytes d => Sys2Proof.Machine.execAsBytes d s
  | .fromBytes d bytes => Sys2Proof.Machine.execFromBytes d bytes s
  | .writePayload d p v => Sys2Proof.Machine.execWritePayload d p v s
  -- Stream Reader (R142) and Command Layer (R171 to R174)
  | .read ctx => Sys2Proof.Machine.execRead ctx s
  | .requestToDatagram d dst msg => Sys2Proof.Machine.execRequestToDatagram d dst msg s
  | .responseToDatagram d src msg => Sys2Proof.Machine.execResponseToDatagram d src msg s
  | .fromDatagram d t => Sys2Proof.Machine.execFromDatagram d t s
  | .discriminate d => Sys2Proof.Machine.execDiscriminate d s
  -- the pull answers (R143 to R149) and the frame (R80, R156)
  | .pullByte b => Sys2Proof.Machine.execPullByte b s
  | .pullRetry => Sys2Proof.Machine.execPullRetry s
  | .pullAbort => Sys2Proof.Machine.execPullAbort s
  | .pullOther => Sys2Proof.Machine.execPullOther s
  | .datagram src dst proto checksum payload => Sys2Proof.Machine.execDatagram src dst proto checksum payload s
  -- the command messages (R180 to R189)
  | .phasonGetFeederInfoReq d dst => Sys2Proof.Machine.execPhasonGetFeederInfoReq d dst s
  | .phasonGetFeederInfoResp d src st v y m dd u => Sys2Proof.Machine.execPhasonGetFeederInfoResp d src st v y m dd u s
  | .phasonResetFeederReq d dst => Sys2Proof.Machine.execPhasonResetFeederReq d dst s
  | .phasonResetFeederResp d src st => Sys2Proof.Machine.execPhasonResetFeederResp d src st s
  | .phasonStartFeedReq d dst q um => Sys2Proof.Machine.execPhasonStartFeedReq d dst q um s
  | .phasonStartFeedResp d src st q => Sys2Proof.Machine.execPhasonStartFeedResp d src st q s
  | .phasonFeedStatusReq d dst q => Sys2Proof.Machine.execPhasonFeedStatusReq d dst q s
  | .phasonFeedStatusResp d src st q um => Sys2Proof.Machine.execPhasonFeedStatusResp d src st q um s
  | .phasonQueryByUidReq d dst u => Sys2Proof.Machine.execPhasonQueryByUidReq d dst u s
  | .phasonQueryByUidResp d src st => Sys2Proof.Machine.execPhasonQueryByUidResp d src st s

end Sys2Proof.Machine
end

