-- ==== Sys2Proof/Machine/Step.lean ====
section
/-! DEFINITION. One step of the block (R13): reset first (R240); then, by `RSTATE`, the validating
step (R150), one pull (R143 to R149), or one request (R113). There is no stored program: a request
is the next word of the operation port, a pull answer the next word of the receive stream (R72). -/

namespace Sys2Proof.Machine

/-- A pull: the answer the receive stream has ready; with none the block waits, suspended in the pull
with `CTX` presented (R52, R229). -/
def pullStep (s : State) : Outcome :=
  match nextOfStream s.cfg s.stream with
  | none => .next s.pulled
  | some (.ok i, rest) => exec i { s with stream := rest }
  | some (.error why, _) => .refused (.noInstruction why)

/-- A request: the word the operation port has ready; with none the block stays idle (R151). -/
def requestStep (s : State) : Outcome :=
  match s.requests with
  | [] => .next s.quiet
  | r :: rest =>
    match decodeRequest s.cfg r with
    | .ok i => exec i { s with requests := rest }
    | .error why => .refused (.noInstruction why)

/-- One step. -/
def step (s : State) : Host.Outcome State Fault Refusal :=
  if s.resetPin then .next s.applyReset
  else match s.rstate with
    | .awaitStart => pullStep s
    | .readingBody => pullStep s
    | .validating => .next s.validate
    | .idle => requestStep s
    | .ok => requestStep s
    | .failed _ => requestStep s

/-- `s` with a table word placed where the next step takes it; a number that is no port word changes
nothing (assumption 7). -/
def State.withFetchWord (s : State) (nbits w : Nat) : State :=
  match tableWord s.cfg nbits w with
  | some x => s.place x
  | none => s

end Sys2Proof.Machine
end

