-- ==== Sys2Proof/Machine/PseudoOps.lean ====
section
/-! DEFINITION. The pseudo-operations of rule R115, each its expansion, and the runs they and the
claims are stated with. They are shorthand; none is an instruction. -/

namespace Sys2Proof.Machine

/-- Instructions one after another, up to the first that has no next state. -/
def execAll : List Instr → State → Outcome
  | [], s => .next s
  | i :: is, s =>
    match exec i s with
    | .next t => execAll is t
    | .fault r => .fault r
    | .refused r => .refused r

/-- `n` steps, up to the first that has no next state. -/
def runSteps : Nat → State → Outcome
  | 0, s => .next s
  | n + 1, s =>
    match step s with
    | .next t => runSteps n t
    | .fault r => .fault r
    | .refused r => .refused r

/-- `BUILD D, src, dst, proto, payload` (R115): the sender lifecycle, the checksum last. -/
def buildOps (d : DReg) (src dst proto : Byte) (payload : Payload) : List Instr :=
  [.init d src dst proto] ++
    (List.finRange 26).map (fun p => .writePayload d (BitVec.ofNat 5 p.val) payload[p.val]) ++
    [.setChecksum d]

/-- `SEND D` (R115). -/
def sendOps (d : DReg) : List Instr := [.asBytes d]

/-- `VALIDATE D` (R115). -/
def validateOps (d : DReg) : List Instr := [.checkChecksum d]

/-- The byte source that answers exactly the given bytes next (R115). -/
def State.feedBytes (bs : List Byte) (s : State) : State :=
  { s with stream := bs.map (fun b => pullWord s.cfg (.byte b)) ++ s.stream }

/-- `LOOPBACK` (R115): `AS_BYTES TX`, then `READ` with a byte source that answers those 32 bytes. The
state answered is the one in which the attempt has started. -/
def loopback (ctx : Ctx) (s : State) : Outcome :=
  match exec (.asBytes .tx) s with
  | .next t => exec (.read ctx) (t.feedBytes s.tx.cells.toList)
  | .fault r => .fault r
  | .refused r => .refused r

/-- What the caller's loop does from a state of the block, at most `n` times: while an attempt is busy
the block takes its next step; when it ended with `NO_START_BYTE` the caller reads again; any other
end ends the loop. -/
def retryNoStart (ctx : Ctx) : Nat → State → Outcome
  | 0, s => .next s
  | n + 1, s =>
    if s.rstate.busy then
      match step s with
      | .next t => retryNoStart ctx n t
      | .fault r => .fault r
      | .refused r => .refused r
    else if s.result = some (.failed .noStartByte) then
      match exec (.read ctx) s with
      | .next t => retryNoStart ctx n t
      | .fault r => .fault r
      | .refused r => .refused r
    else .next s

/-- `READ_UNTIL_START ctx` (R115): `READ ctx`, repeated while the result is `NO_START_BYTE`; at most
`n` steps of the block and repeated requests follow the first (a run that is not over by then is cut
there, still busy or still to be repeated). -/
def readUntilStart (n : Nat) (ctx : Ctx) (s : State) : Outcome :=
  match exec (.read ctx) s with
  | .next t => retryNoStart ctx n t
  | .fault r => .fault r
  | .refused r => .refused r

end Sys2Proof.Machine
end

