-- ==== Sys2Proof/Safety.lean ====
section
/-! DEFINITION. The words the claims use: the invariant of the block, which port an instruction
comes from, when a request is accepted, and what a step leaves unchanged. -/

namespace Sys2Proof

/-- The instructions that come from the caller's operation port: the requests of format OP and the
command messages. The others are answers at the pull port. -/
def Instr.isRequest : Instr → Bool
  | .init _ _ _ _ => true
  | .computeChecksum _ => true
  | .setChecksum _ => true
  | .checkChecksum _ => true
  | .asBytes _ => true
  | .fromBytes _ _ => true
  | .writePayload _ _ _ => true
  | .read _ => true
  | .requestToDatagram _ _ _ => true
  | .responseToDatagram _ _ _ => true
  | .fromDatagram _ _ => true
  | .discriminate _ => true
  | .pullByte _ => false
  | .pullRetry => false
  | .pullAbort => false
  | .pullOther => false
  | .datagram _ _ _ _ _ => false
  | .phasonGetFeederInfoReq _ _ => true
  | .phasonGetFeederInfoResp _ _ _ _ _ _ _ _ => true
  | .phasonResetFeederReq _ _ => true
  | .phasonResetFeederResp _ _ _ => true
  | .phasonStartFeedReq _ _ _ _ => true
  | .phasonStartFeedResp _ _ _ _ => true
  | .phasonFeedStatusReq _ _ _ => true
  | .phasonFeedStatusResp _ _ _ _ _ => true
  | .phasonQueryByUidReq _ _ _ => true
  | .phasonQueryByUidResp _ _ _ => true

/-- The register a request reads before it answers, if any (R113's list of reading operations). -/
def Instr.readsReg : Instr → Option DReg
  | .computeChecksum d => some d
  | .setChecksum d => some d
  | .checkChecksum d => some d
  | .asBytes d => some d
  | .writePayload d _ _ => some d
  | .fromDatagram d _ => some d
  | .discriminate d => some d
  | .init _ _ _ _ => none
  | .fromBytes _ _ => none
  | .read _ => none
  | .requestToDatagram _ _ _ => none
  | .responseToDatagram _ _ _ => none
  | .pullByte _ => none
  | .pullRetry => none
  | .pullAbort => none
  | .pullOther => none
  | .datagram _ _ _ _ _ => none
  | .phasonGetFeederInfoReq _ _ => none
  | .phasonGetFeederInfoResp _ _ _ _ _ _ _ _ => none
  | .phasonResetFeederReq _ _ => none
  | .phasonResetFeederResp _ _ _ => none
  | .phasonStartFeedReq _ _ _ _ => none
  | .phasonStartFeedResp _ _ _ _ => none
  | .phasonFeedStatusReq _ _ _ => none
  | .phasonFeedStatusResp _ _ _ _ _ => none
  | .phasonQueryByUidReq _ _ _ => none
  | .phasonQueryByUidResp _ _ _ => none

/-- The register a request writes, if any (the table of R23; `READ` and its steps apart). -/
def Instr.writesReg : Instr → Option DReg
  | .init d _ _ _ => some d
  | .computeChecksum _ => none
  | .setChecksum d => some d
  | .checkChecksum _ => none
  | .asBytes _ => none
  | .fromBytes d _ => some d
  | .writePayload d _ _ => some d
  | .read _ => none
  | .requestToDatagram d _ _ => some d
  | .responseToDatagram d _ _ => some d
  | .fromDatagram _ _ => none
  | .discriminate _ => none
  | .pullByte _ => none
  | .pullRetry => none
  | .pullAbort => none
  | .pullOther => none
  | .datagram _ _ _ _ _ => none
  | .phasonGetFeederInfoReq d _ => some d
  | .phasonGetFeederInfoResp d _ _ _ _ _ _ _ => some d
  | .phasonResetFeederReq d _ => some d
  | .phasonResetFeederResp d _ _ => some d
  | .phasonStartFeedReq d _ _ _ => some d
  | .phasonStartFeedResp d _ _ _ => some d
  | .phasonFeedStatusReq d _ _ => some d
  | .phasonFeedStatusResp d _ _ _ _ => some d
  | .phasonQueryByUidReq d _ _ => some d
  | .phasonQueryByUidResp d _ _ => some d

/-- The other register. -/
def DReg.other : DReg → DReg
  | .rx => .tx
  | .tx => .rx

namespace Machine

/-- When a request is accepted (R113): the reader is terminal, the operands are in range, and the
register it reads is valid. -/
def Accepts (i : Instr) (s : State) : Prop :=
  s.rstate.busy = false ∧ i.inRange = true ∧ ∀ d, i.readsReg = some d → (s.reg d).valid = true

/-- What `CNT` is in each reader state (R25, R152). -/
def RState.cntOk : RState → Nat → Bool
  | .idle, n => n == 0
  | .awaitStart, n => n == 0
  | .readingBody, n => decide (1 ≤ n ∧ n ≤ 31)
  | .validating, n => n == 32
  | .ok, n => n == 32
  | .failed .noStartByte, n => n == 0
  | .failed .noEndByte, n => n == 32
  | .failed .badCrc8, n => n == 32
  | .failed .aborted, n => decide (n ≤ 31)
  | .failed .unknown, n => decide (n ≤ 31)

/-- The states in which an attempt has stored its start byte and is not yet over. -/
def RState.started : RState → Bool
  | .idle => false
  | .awaitStart => false
  | .readingBody => true
  | .validating => true
  | .ok => false
  | .failed _ => false

/-- The invariant of the block: `RESULT` is what `RSTATE` determines (R27), `CNT` fits `RSTATE`
(R25), `RX` is invalid while an attempt is busy (R22), an attempt past its first byte holds the start
sentinel (R143, R150), after `Ok` the datagram is readable (R150), and `CTX` has `CTX_W` bits (R29). -/
structure State.Inv (s : State) : Prop where
  result_eq : s.result = s.rstate.result
  cnt_ok : s.rstate.cntOk s.cnt.toNat = true
  busy_invalid : s.rstate.busy = true → s.rx.valid = false
  start_held : s.rstate.started = true → s.rx.cells[0] = START
  ok_valid : s.rstate = .ok → s.rx.valid = true
  ctx_fits : s.ctx < 2 ^ s.cfg.ctxW

/-- The reader's registers are unchanged. -/
def SameReader (s t : State) : Prop :=
  t.cnt = s.cnt ∧ t.rstate = s.rstate ∧ t.result = s.result ∧ t.ctx = s.ctx

/-- The configuration and what waits at the ports are unchanged. -/
def SameInputs (s t : State) : Prop :=
  t.cfg = s.cfg ∧ t.requests = s.requests ∧ t.stream = s.stream ∧ t.resetPin = s.resetPin

/-- Both datagram registers, cells and flags, are unchanged. -/
def SameRegs (s t : State) : Prop := t.rx = s.rx ∧ t.tx = s.tx

/-- Everything but one datagram register and the output ports is unchanged. -/
def OnlyReg (d : DReg) (s t : State) : Prop :=
  t.reg d.other = s.reg d.other ∧ SameReader s t ∧ SameInputs s t ∧ t.sink = s.sink

end Machine
end Sys2Proof
end

