-- ==== Sys2Proof/Certificates/Slice0/Obligations.lean ====
section
/-! DEFINITION. The statements for the provers. Each docstring names the rule of spec/ the statement
formalises, or says that it rests on a decision and which assumption-log entry names it. -/

namespace Sys2Proof.Claims

open Sys2Proof Sys2Proof.Machine

/-! ## Words the statements share, written from the spec's own tables -/

/-- The 32 bytes of a checksummed frame with the given addresses, protocol id and 26 payload bytes:
the checksum is `crc_raw` of the same bytes with the field held at zero (R80, R123). -/
def framed (src dst proto : Byte) (payload : List Byte) : List Byte :=
  [0x55#8, src, dst, proto, crcRaw ([0x55#8, src, dst, proto, 0x00#8] ++ payload ++ [0x2A#8])] ++
    payload ++ [0x2A#8]

/-- The integer field read from its four bytes, lowest offset first (R58, R92): with `little` the byte
at the lowest offset is bits 7 to 0, with `big` it is bits 31 to 24. -/
def intRead : IntOrder → Byte → Byte → Byte → Byte → Word32
  | .little, b0, b1, b2, b3 => b3 ++ (b2 ++ (b1 ++ b0))
  | .big, b0, b1, b2, b3 => b0 ++ (b1 ++ (b2 ++ b3))

/-- The integer field written as four bytes, lowest offset first (R58, R92). -/
def intWritten : IntOrder → Word32 → List Byte
  | .little, v =>
      [v.extractLsb' 0 8, v.extractLsb' 8 8, v.extractLsb' 16 8, v.extractLsb' 24 8]
  | .big, v => [v.extractLsb' 24 8, v.extractLsb' 16 8, v.extractLsb' 8 8, v.extractLsb' 0 8]

/-- The name of a status byte in the table of R95; none from 0x05 on. -/
def statusNamed (b : Byte) : Option Status :=
  if b = 0x00#8 then some .ok else if b = 0x01#8 then some .error
  else if b = 0x02#8 then some .invalidRequest else if b = 0x03#8 then some .motorError
  else if b = 0x04#8 then some .notReady else none

/-- A field of one byte. -/
def byteField (f : Field) (b : Byte) : Assign := ⟨f, .bytes [b]⟩

/-- A step that only puts a value on the result port. -/
def ReturnsOnly (v : Returned) (s : State) : State :=
  { s with resultPort := some v, pullCtx := none }

/-- What a request does to the register it writes as a whole: 32 given cells, the valid flag 1,
everything but the output ports as before. -/
def WritesDatagram (d : DReg) (bytes : List Byte) (s t : State) : Prop :=
  (t.reg d).cells.toList = bytes ∧ (t.reg d).valid = true ∧ OnlyReg d s t

/-- What a step of the reader that raises failure `k` does: `RSTATE` and `RESULT` show `k`, and
nothing else changes but the output ports (`x` is the context it presented, if it pulled). -/
def Raises (k : Failure) (x : Option Ctx) (s t : State) : Prop :=
  t = { s with
    rstate := .failed k, result := some (.failed k), resultPort := t.resultPort, pullCtx := x }

/-- The instructions that return a value (R111, R112; `READ` returns when its attempt ends). -/
def returns : Instr → Bool
  | .computeChecksum _ => true
  | .checkChecksum _ => true
  | .asBytes _ => true
  | .fromDatagram _ _ => true
  | .discriminate _ => true
  | _ => false

/-- What the result port shows of a reader state (R112, R211): the outcome of a finished attempt, with
the datagram only when it is `OK`. -/
def shownOf (t : State) : Option Returned :=
  match t.rstate with
  | .ok => some (.readResult .ok (t.cfg.codeOf .ok) (some t.rx.cells))
  | .failed k => some (.readResult (.failed k) (t.cfg.codeOf (.failed k)) none)
  | _ => none

/-- The selectors R110 reserves. -/
def reservedSelectors : List (BitVec 4) := [0x0#4, 0xD#4, 0xE#4, 0xF#4]

/-- The bytewise CRC-8 with generator 0x107 of R126 (b): one step on the high byte. -/
def crc8Step (c : Byte) : Byte := if c.getLsbD 7 then (c <<< 1) ^^^ 0x07#8 else c <<< 1

/-- The bytewise CRC-8 of R126 (b): one byte. -/
def crc8Byte (c b : Byte) : Byte :=
  crc8Step (crc8Step (crc8Step (crc8Step (crc8Step (crc8Step (crc8Step (crc8Step (c ^^^ b))))))))

/-- A datagram with bit `k` of byte `o` flipped. -/
def flipBit (d : Datagram) (o k : Nat) : Datagram :=
  d.setIfInBounds o (d.toList.getD o 0#8 ^^^ (1#8 <<< k))

end Sys2Proof.Claims

open Sys2Proof Sys2Proof.Machine Sys2Proof.Claims

/-! ## Encodings -/

/-- Decoding an encoded well-formed instruction gives it back, every operand at every value, under
every conforming configuration (R80, R90, R109 to R111). The operand places of format OP and the conversion
operands of format CMD are assumptions 4 and 6; which context and which message row are well formed
are assumptions 3 and 23; which configurations conform is R96 and assumptions 23 and 24. -/
def Obligations.DecodeOfEncodeIsTheInstruction : Prop :=
  ∀ (c : Config) (i : Instr), c.wf → i.wf c = true → decode c (encode c i) = .ok i

/-- Every request word of format OP that decodes is the encoding of what it decodes to: no bit of a
request is dropped (R110, R111; assumptions 3 and 4). -/
def Obligations.RequestWordHasOneMeaning : Prop :=
  ∀ (c : Config) (bytes : List Byte) (i : Instr), decodeRequest c (.op bytes) = .ok i →
    encode c i = .request (.op bytes)

/-- Words written out from the tables of R80, R96, R102 and R109 to R111 decode to their instructions
under the default configuration: requests, pull words, a message and the frame V20, so each of the four
formats. The operand places of format OP and the conversion operands of format CMD are assumptions 4
and 6. -/
def Obligations.TableWordsDecode : Prop :=
  decodeRequest Config.default (.op [0x11#8, 0x00#8, 0x01#8, 0xA1#8]) =
      .ok (.init .tx 0x00#8 0x01#8 0xA1#8) ∧
  decodeRequest Config.default (.op [0x04#8]) = .ok (.checkChecksum .rx) ∧
  decodeRequest Config.default (.op [0x17#8, 0x19#8, 0x7E#8]) =
      .ok (.writePayload .tx 25#5 0x7E#8) ∧
  decodeRequest Config.default (.op [0x0B#8, 0x07#8]) = .ok (.fromDatagram .rx 7#4) ∧
  decodeStream Config.default (.pull 0b0001010101#10) = .ok (.pullByte 0x55#8) ∧
  decodeStream Config.default (.pull 0b0111111111#10) = .ok .pullRetry ∧
  decodeStream Config.default (.pull 0b1000000000#10) = .ok .pullAbort ∧
  decodeStream Config.default (.pull 0b1111111111#10) = .ok .pullOther ∧
  decodeRequest Config.default
      (.cmd ([0x03#8, 0x07#8, 0xA0#8, 0x0F#8, 0x00#8, 0x00#8] ++ List.replicate 20 0x00#8 ++
        [0x01#8, 0x01#8])) =
      .ok (.phasonStartFeedReq .tx ⟨0x01#8, []⟩ [0x07#8] 4000#32) ∧
  decodeStream Config.default (.frame (#v[0x55#8, 0x00#8, 0x01#8, 0xA1#8, 0x47#8, 0x01#8] ++
      Vector.replicate 25 0x00#8 ++ #v[0x2A#8])) =
    .ok (.datagram 0x00#8 0x01#8 0xA1#8 0x47#8 (#v[0x01#8] ++ Vector.replicate 25 0x00#8))

/-- The selectors the table reserves, 0x0 and 0xD to 0xF, name no operation under the default
configuration, whatever follows (R108, R110; decision D7), and a block to which the caller puts such
a request takes no step (R113; decision D21). Where the selector stands in the request's first byte is
assumption 4; the refusal's name is assumption 12. -/
def Obligations.ReservedSelectorHasNoStep : Prop :=
  ∀ (s : State) (sel : BitVec 4) (bit : Bool) (operands : List Byte) (rest : List RequestWord),
    sel ∈ reservedSelectors → s.cfg = Config.default → s.resetPin = false →
    s.rstate.busy = false →
    s.requests = .op ((0#3 ++ (BitVec.ofBool bit ++ sel)) :: operands) :: rest →
    step s = .refused (.noInstruction (.reservedSelector sel))

/-- Every pull word of a conforming configuration is one of the four pull results, with its data
where the tag is `BYTE` and whatever its data otherwise (R109; decision D5). That a conforming table has
four distinct tags is the model's choice (assumption 24). -/
def Obligations.PullWordIsOneOfFourResults : Prop :=
  ∀ (c : Config) (data : Byte), c.wf →
    decodePull c (c.tagOf .byte ++ data) = .ok (.byte data) ∧
    decodePull c (c.tagOf .retry ++ data) = .ok .retry ∧
    decodePull c (c.tagOf .abort ++ data) = .ok .abort ∧
    decodePull c (c.tagOf .other ++ data) = .ok .other ∧
    ∀ w : BitVec 10, ∃ r, decodePull c w = .ok r

/-! ## The checksum -/

/-- R122's worked bytes and the checks of R126 (b) and R123: the code fragment of the source as
written. -/
def Obligations.ChecksumWorkedValues : Prop :=
  crcByte 0x0000#16 0x00#8 = 0x0000#16 ∧ crcByte 0x0000#16 0x01#8 = 0x0700#16 ∧
  crcByte 0x0000#16 0x02#8 = 0x0E00#16 ∧ crcByte 0x0000#16 0x55#8 = 0xAC00#16 ∧
  crcByte 0x0000#16 0x80#8 = 0x8900#16 ∧ crcByte 0x0000#16 0xFF#8 = 0xF300#16 ∧
  crcRaw [0x31#8, 0x32#8, 0x33#8, 0x34#8, 0x35#8, 0x36#8, 0x37#8, 0x38#8, 0x39#8] = 0xF4#8 ∧
  computeChecksum (initFrame 0x00#8 0x01#8 0xA1#8) = 0x79#8

/-- R126 (a) and (b): with the low byte of the accumulator zero, a byte leaves it zero and acts on
the high byte as the plain most-significant-bit-first CRC-8 with generator 0x107. -/
def Obligations.ChecksumActsOnTheHighByte : Prop :=
  ∀ (c b : Byte), crcByte (c ++ 0x00#8) b = crc8Byte c b ++ 0x00#8

/-- R126 (c): `crc_raw` is linear over exclusive or of equal-length lists, and zero on zeros. -/
def Obligations.ChecksumIsLinear : Prop :=
  (∀ a b : List Byte, a.length = b.length →
    crcRaw (List.zipWith (· ^^^ ·) a b) = crcRaw a ^^^ crcRaw b) ∧
  ∀ n : Nat, crcRaw (List.replicate n 0x00#8) = 0x00#8

/-- R123: the stored checksum does not enter the computation, and the result is `crc_raw` of the 32
bytes with offset 4 read as zero. -/
def Obligations.ComputedChecksumIgnoresStoredOne : Prop :=
  ∀ (d : Datagram) (v : Byte), computeChecksum (d.setIfInBounds 4 v) = computeChecksum d ∧
    computeChecksum d = crcRaw (d.toList.take 4 ++ [0x00#8] ++ d.toList.drop 5)

/-- R130: for every 32-byte value, and for every value in either register by the two operations,
`CHECK_CHECKSUM` after `SET_CHECKSUM` is true. -/
def Obligations.CheckAfterSetIsTrue : Prop :=
  (∀ g : Datagram, checkChecksum (setChecksum g) = true) ∧
  ∀ (d : DReg) (s : State), s.rstate.busy = false → (s.reg d).valid = true →
    ∃ t u, exec (.setChecksum d) s = .next t ∧ exec (.checkChecksum d) t = .next u ∧
      u.resultPort = some (.verdict true)

/-- R131: flipping any single bit of the 32 bytes of a datagram whose checksum matches makes the
check fail; its example of two flipped bits, bit 0 of offset 1 with bit 1 of offset 17, goes
undetected in every datagram. -/
def Obligations.SingleBitFlipsAreDetected : Prop :=
  ∀ d : Datagram, checkChecksum d = true →
    (∀ o k : Nat, o < 32 → k < 8 → checkChecksum (flipBit d o k) = false) ∧
    checkChecksum (flipBit (flipBit d 1 0) 17 1) = true

/-- S7 of the source's properties: a frame that differs from a valid one in one payload byte, read
by an attempt that awaits its start, fails with `BAD_CRC8`. The frame is offered as one word: its first
byte is pulled by the instruction, the other 31 and the validation are 32 steps more (assumption 5; the
pull tags of a conforming configuration are distinct, assumption 24). -/
def Obligations.OneCorruptedPayloadByteIsBadCrc : Prop :=
  ∀ (s : State) (src dst proto checksum : Byte) (payload : Payload) (p : Fin 26) (v : Byte),
    s.cfg.wf → s.resetPin = false → s.rstate = .awaitStart → s.cnt = 0#6 →
    checkChecksum (frameBytes src dst proto checksum payload) = true → v ≠ payload[p] →
    ∃ t u, exec (.datagram src dst proto checksum (payload.set p v)) s = .next t ∧
      runSteps 32 t = .next u ∧
      u.rstate = .failed .badCrc8 ∧ u.result = some (.failed .badCrc8) ∧ u.rx.valid = s.rx.valid

/-! ## Framing Codec -/

/-- R121: `INIT` in any terminal state writes the sentinels, the addresses and protocol id, a zero
checksum and a zero payload, sets the valid flag, and changes nothing else. -/
def Obligations.InitWritesAFreshDatagram : Prop :=
  ∀ (d : DReg) (src dst proto : Byte) (s : State), s.rstate.busy = false →
    ∃ t, exec (.init d src dst proto) s = .next t ∧
      WritesDatagram d
        ([0x55#8, src, dst, proto, 0x00#8] ++ List.replicate 26 0x00#8 ++ [0x2A#8]) s t

/-- R123 and R125: `COMPUTE_CHECKSUM` and `CHECK_CHECKSUM` of a valid register complete in any
terminal state, return the checksum of its bytes with the field read as zero and whether the stored
one equals it, and change nothing. -/
def Obligations.ComputeAndCheckOnlyReturn : Prop :=
  ∀ (d : DReg) (s : State), s.rstate.busy = false → (s.reg d).valid = true →
    exec (.computeChecksum d) s = .next (ReturnsOnly (.checksum
      (crcRaw ((s.reg d).cells.toList.take 4 ++ [0x00#8] ++ (s.reg d).cells.toList.drop 5))) s) ∧
    exec (.checkChecksum d) s = .next (ReturnsOnly (.verdict (decide ((s.reg d).cells[4] =
      crcRaw ((s.reg d).cells.toList.take 4 ++ [0x00#8] ++ (s.reg d).cells.toList.drop 5)))) s)

/-- R124: `SET_CHECKSUM` of a valid register stores its checksum at offset 4; every other cell, the
flag and everything else stay. -/
def Obligations.SetChecksumStoresOneCell : Prop :=
  ∀ (d : DReg) (s : State), s.rstate.busy = false → (s.reg d).valid = true →
    ∃ t, exec (.setChecksum d) s = .next t ∧
      (t.reg d).cells[4] =
        crcRaw ((s.reg d).cells.toList.take 4 ++ [0x00#8] ++ (s.reg d).cells.toList.drop 5) ∧
      (∀ o : Fin 32, o ≠ 4 → (t.reg d).cells[o] = (s.reg d).cells[o]) ∧
      (t.reg d).valid = true ∧ OnlyReg d s t

/-- R127: `AS_BYTES` of a valid register emits its 32 cells in frame-offset order to the byte sink
and returns them; the register and everything else stay. -/
def Obligations.AsBytesEmitsTheCellsInOrder : Prop :=
  ∀ (d : DReg) (s : State), s.rstate.busy = false → (s.reg d).valid = true →
    exec (.asBytes d) s = .next { s with
      sink := s.sink ++ (s.reg d).cells.toList
      resultPort := some (.bytes (s.reg d).cells)
      pullCtx := none }

/-- R128 (decision D33): `FROM_BYTES` in any terminal state writes the 32 given bytes, whatever they
are, and `AS_BYTES` then gives them back. -/
def Obligations.FromBytesThenAsBytesIsIdentity : Prop :=
  ∀ (d : DReg) (bytes : Datagram) (s : State), s.rstate.busy = false →
    ∃ t, exec (.fromBytes d bytes) s = .next t ∧ WritesDatagram d bytes.toList s t ∧
      ∃ u, exec (.asBytes d) t = .next u ∧ u.resultPort = some (.bytes bytes) ∧
        u.sink = s.sink ++ bytes.toList ∧ (u.reg d).cells = bytes

/-- R129 (decision D33): `WRITE_PAYLOAD` of a valid register at a payload offset 0 to 25 writes that
one cell, frame offset `p + 5`; every other cell, the flag and everything else stay. -/
def Obligations.WritePayloadStoresOneCell : Prop :=
  ∀ (d : DReg) (p : BitVec 5) (v : Byte) (s : State), s.rstate.busy = false →
    (s.reg d).valid = true → p.toNat ≤ 25 →
    ∃ t, exec (.writePayload d p v) s = .next t ∧
      (∀ o : Fin 32, (t.reg d).cells[o] =
        if o.val = p.toNat + 5 then v else (s.reg d).cells[o]) ∧
      (t.reg d).valid = true ∧ OnlyReg d s t

/-- R115's `BUILD` (decision D19): `INIT`, the 26 payload writes and `SET_CHECKSUM`, in any terminal
state, leave in the register exactly the checksummed frame of its operands. -/
def Obligations.BuildLeavesAChecksummedFrame : Prop :=
  ∀ (d : DReg) (src dst proto : Byte) (payload : Payload) (s : State), s.rstate.busy = false →
    ∃ t, execAll (buildOps d src dst proto payload) s = .next t ∧
      WritesDatagram d (framed src dst proto payload.toList) s t

/-! ## Command Layer -/

/-- R171: `REQUEST_TO_DATAGRAM` in any terminal state builds the frame from the controller with
protocol id 0xA1, the 26 bytes verbatim and the checksum of the whole; no message and no address is
rejected. -/
def Obligations.RequestToDatagramWrapsTheMessage : Prop :=
  ∀ (d : DReg) (dst : Byte) (msg : Payload) (s : State), s.rstate.busy = false →
    ∃ t, exec (.requestToDatagram d dst msg) s = .next t ∧
      WritesDatagram d (framed 0x00#8 dst 0xA1#8 msg.toList) s t ∧
      checkChecksum (t.reg d).cells = true

/-- R172: `RESPONSE_TO_DATAGRAM` in any terminal state builds the frame from the peripheral to the
controller, otherwise as a request. -/
def Obligations.ResponseToDatagramWrapsTheMessage : Prop :=
  ∀ (d : DReg) (src : Byte) (msg : Payload) (s : State), s.rstate.busy = false →
    ∃ t, exec (.responseToDatagram d src msg) s = .next t ∧
      WritesDatagram d (framed src 0x00#8 0xA1#8 msg.toList) s t ∧
      checkChecksum (t.reg d).cells = true

/-- R173: `FROM_DATAGRAM` with a type index 0 to 9 completes on every valid register in any terminal
state, changes nothing but the result port, and returns a view of that type whose fields depend on
the 26 payload bytes alone: no checksum, sentinel, header, discriminator or padding test. -/
def Obligations.FromDatagramIsATotalView : Prop :=
  ∀ (d : DReg) (t : BitVec 4) (s : State), s.rstate.busy = false → (s.reg d).valid = true →
    t.toNat ≤ 9 →
    ∃ v, exec (.fromDatagram d t) s = .next (ReturnsOnly (.fields v) s) ∧
      v.message.type.index.val = t.toNat ∧ v.command = (s.reg d).cells[5] ∧
      ∀ s' : State, s'.rstate.busy = false → (s'.reg d).valid = true → s'.cfg = s.cfg →
        (∀ o : Fin 32, 5 ≤ o.val → o.val ≤ 30 → (s'.reg d).cells[o] = (s.reg d).cells[o]) →
        exec (.fromDatagram d t) s' = .next (ReturnsOnly (.fields v) s')

/-- The fields `FROM_DATAGRAM` returns under the default configuration in either byte order of R92, type
by type: the payload bytes at the offsets of R98 to R107, payload offset `p` at frame offset `p + 5`
(decisions D11, D13, D30; assumptions 2 and 23). -/
def Obligations.FromDatagramFieldsAtTheirOffsets : Prop :=
  ∀ (d : DReg) (s : State) (g : Datagram) (o : IntOrder), s.rstate.busy = false →
    s.reg d = ⟨g, true⟩ → s.cfg = { Config.default with intOrder := o } →
    ∃ v0 v1 v2 v3 v4 v5 v6 v7 v8 v9,
      exec (.fromDatagram d 0#4) s = .next (ReturnsOnly (.fields v0) s) ∧
      exec (.fromDatagram d 1#4) s = .next (ReturnsOnly (.fields v1) s) ∧
      exec (.fromDatagram d 2#4) s = .next (ReturnsOnly (.fields v2) s) ∧
      exec (.fromDatagram d 3#4) s = .next (ReturnsOnly (.fields v3) s) ∧
      exec (.fromDatagram d 4#4) s = .next (ReturnsOnly (.fields v4) s) ∧
      exec (.fromDatagram d 5#4) s = .next (ReturnsOnly (.fields v5) s) ∧
      exec (.fromDatagram d 6#4) s = .next (ReturnsOnly (.fields v6) s) ∧
      exec (.fromDatagram d 7#4) s = .next (ReturnsOnly (.fields v7) s) ∧
      exec (.fromDatagram d 8#4) s = .next (ReturnsOnly (.fields v8) s) ∧
      exec (.fromDatagram d 9#4) s = .next (ReturnsOnly (.fields v9) s) ∧
      v0.message = ⟨.getFeederInfoReq, []⟩ ∧
      v1.message = ⟨.getFeederInfoResp, [byteField .status g[6], byteField .protocolVersion g[7],
        byteField .firmwareYear g[8], byteField .firmwareMonth g[9], byteField .firmwareDay g[10],
        ⟨.uid, .bytes [g[11], g[12], g[13], g[14], g[15], g[16], g[17], g[18], g[19], g[20], g[21],
          g[22]]⟩]⟩ ∧
      v2.message = ⟨.resetFeederReq, []⟩ ∧
      v3.message = ⟨.resetFeederResp, [byteField .status g[6]]⟩ ∧
      v4.message = ⟨.startFeedReq, [byteField .sequence g[6],
        ⟨.micrometers, .int (intRead o g[7] g[8] g[9] g[10])⟩]⟩ ∧
      v5.message = ⟨.startFeedResp, [byteField .status g[6], byteField .sequence g[7]]⟩ ∧
      v6.message = ⟨.feedStatusReq, [byteField .sequence g[6]]⟩ ∧
      v7.message = ⟨.feedStatusResp, [byteField .status g[6], byteField .sequence g[7],
        ⟨.actualMicrometers, .int (intRead o g[8] g[9] g[10] g[11])⟩]⟩ ∧
      v8.message = ⟨.queryByUidReq, [⟨.uid, .bytes [g[6], g[7], g[8], g[9], g[10], g[11], g[12],
        g[13], g[14], g[15], g[16], g[17]]⟩]⟩ ∧
      v9.message = ⟨.queryByUidResp, [byteField .status g[6]]⟩

/-- R95 and R92 under the default tables, in either byte order and either reading of
`MICROMETERS_SIGNED` (decisions D11, D14, D23): the view of each of the five response types names its
status byte from the table of R95, and has no name from 0x05 on; the integer of the two types that
carry one is read as two's complement where it is signed and as unsigned where it is not; the other
types have no integer, and no request has a status. That a view holds the name and the number beside
the raw field is the model's choice (assumption 21; R176: decode returns the raw byte). -/
def Obligations.ViewNamesStatusAndReadsMicrometers : Prop :=
  ∀ (d : DReg) (s : State) (g : Datagram) (o : IntOrder) (signed : Bool), s.rstate.busy = false →
    s.reg d = ⟨g, true⟩ →
    s.cfg = { Config.default with intOrder := o, micrometersSigned := signed } →
    let number (v : Word32) : Int := if signed then v.toInt else v.toNat
    ∃ v0 v1 v2 v3 v4 v5 v6 v7 v8 v9,
      exec (.fromDatagram d 0#4) s = .next (ReturnsOnly (.fields v0) s) ∧
      exec (.fromDatagram d 1#4) s = .next (ReturnsOnly (.fields v1) s) ∧
      exec (.fromDatagram d 2#4) s = .next (ReturnsOnly (.fields v2) s) ∧
      exec (.fromDatagram d 3#4) s = .next (ReturnsOnly (.fields v3) s) ∧
      exec (.fromDatagram d 4#4) s = .next (ReturnsOnly (.fields v4) s) ∧
      exec (.fromDatagram d 5#4) s = .next (ReturnsOnly (.fields v5) s) ∧
      exec (.fromDatagram d 6#4) s = .next (ReturnsOnly (.fields v6) s) ∧
      exec (.fromDatagram d 7#4) s = .next (ReturnsOnly (.fields v7) s) ∧
      exec (.fromDatagram d 8#4) s = .next (ReturnsOnly (.fields v8) s) ∧
      exec (.fromDatagram d 9#4) s = .next (ReturnsOnly (.fields v9) s) ∧
      (∀ v ∈ [v1, v3, v5, v7, v9], v.statusName = statusNamed g[6]) ∧
      (∀ v ∈ [v0, v2, v4, v6, v8], v.statusName = none) ∧
      v4.micrometers = some (number (intRead o g[7] g[8] g[9] g[10])) ∧
      v7.micrometers = some (number (intRead o g[8] g[9] g[10] g[11])) ∧
      ∀ v ∈ [v0, v1, v2, v3, v5, v6, v8, v9], v.micrometers = none

/-- R174 (decisions D26, D27): `DISCRIMINATE` of a valid register in any terminal state returns
whether the protocol id is 0xA1, payload byte 0, its bit 7, and the kind: foreign protocol, the type
whose discriminator the byte is, or unknown; and it changes nothing else. Which configurations conform
is R96 (all the statement needs) and assumptions 23 and 24. -/
def Obligations.DiscriminateClassifiesThePayload : Prop :=
  ∀ (d : DReg) (s : State) (g : Datagram), s.rstate.busy = false → s.reg d = ⟨g, true⟩ →
    s.cfg.wf →
    ∃ k, exec (.discriminate d) s =
        .next (ReturnsOnly (.discriminated (decide (g[3] = 0xA1#8)) g[5] (g[5].getLsbD 7) k) s) ∧
      (k = .notPhason ↔ g[3] ≠ 0xA1#8) ∧
      (∀ T, k = .message T ↔ g[3] = 0xA1#8 ∧ s.cfg.discOf T = g[5]) ∧
      (k = .unknown ↔ g[3] = 0xA1#8 ∧ ∀ T, s.cfg.discOf T ≠ g[5])

/-- R180, R182, R184, R186, R188 under the default configuration in either byte order of R92 (decisions
D11 to D13, D30; assumptions 6 and 23): each request message, in any terminal state, leaves in the
register the frame from the controller to its destination with exactly the payload of its
`encode_T`. -/
def Obligations.RequestMessagesBuildTheirFrames : Prop :=
  ∀ (d : DReg) (dst q : Byte) (um : Word32) (uid : Uid) (o : IntOrder) (s : State),
    s.rstate.busy = false → s.cfg = { Config.default with intOrder := o } →
    ∃ t0 t2 t4 t6 t8,
      (exec (.phasonGetFeederInfoReq d ⟨dst, []⟩) s = .next t0 ∧ WritesDatagram d
        (framed 0x00#8 dst 0xA1#8 ([0x01#8] ++ List.replicate 25 0x00#8)) s t0) ∧
      (exec (.phasonResetFeederReq d ⟨dst, []⟩) s = .next t2 ∧ WritesDatagram d
        (framed 0x00#8 dst 0xA1#8 ([0x02#8] ++ List.replicate 25 0x00#8)) s t2) ∧
      (exec (.phasonStartFeedReq d ⟨dst, []⟩ [q] um) s = .next t4 ∧ WritesDatagram d
        (framed 0x00#8 dst 0xA1#8 ([0x03#8, q] ++ intWritten o um ++ List.replicate 20 0x00#8))
          s t4) ∧
      (exec (.phasonFeedStatusReq d ⟨dst, []⟩ [q]) s = .next t6 ∧ WritesDatagram d
        (framed 0x00#8 dst 0xA1#8 ([0x04#8, q] ++ List.replicate 24 0x00#8)) s t6) ∧
      (exec (.phasonQueryByUidReq d ⟨dst, []⟩ uid) s = .next t8 ∧ WritesDatagram d
        (framed 0x00#8 dst 0xA1#8 ([0x1F#8] ++ uid.toList ++ List.replicate 13 0x00#8)) s t8)

/-- R181, R183, R185, R187, R189 under the default configuration in either byte order of R92 (decisions
D11 to D14, D24, D30; assumptions 6 and 23): each response message, in any terminal state, leaves in
the register the frame from its source to the controller with exactly the payload of its
`encode_T`. -/
def Obligations.ResponseMessagesBuildTheirFrames : Prop :=
  ∀ (d : DReg) (src st ver y mo dd q : Byte) (um : Word32) (uid : Uid) (o : IntOrder) (s : State),
    s.rstate.busy = false → s.cfg = { Config.default with intOrder := o } →
    ∃ t1 t3 t5 t7 t9,
      (exec (.phasonGetFeederInfoResp d ⟨src, []⟩ st [ver] [y] [mo] [dd] uid) s = .next t1 ∧
        WritesDatagram d
        (framed src 0x00#8 0xA1#8
          ([0x81#8, st, ver, y, mo, dd] ++ uid.toList ++ List.replicate 8 0x00#8)) s t1) ∧
      (exec (.phasonResetFeederResp d ⟨src, []⟩ st) s = .next t3 ∧ WritesDatagram d
        (framed src 0x00#8 0xA1#8 ([0x82#8, st] ++ List.replicate 24 0x00#8)) s t3) ∧
      (exec (.phasonStartFeedResp d ⟨src, []⟩ st [q]) s = .next t5 ∧ WritesDatagram d
        (framed src 0x00#8 0xA1#8 ([0x83#8, st, q] ++ List.replicate 23 0x00#8)) s t5) ∧
      (exec (.phasonFeedStatusResp d ⟨src, []⟩ st [q] um) s = .next t7 ∧ WritesDatagram d
        (framed src 0x00#8 0xA1#8
          ([0x84#8, st, q] ++ intWritten o um ++ List.replicate 19 0x00#8)) s t7) ∧
      (exec (.phasonQueryByUidResp d ⟨src, []⟩ st) s = .next t9 ∧ WritesDatagram d
        (framed src 0x00#8 0xA1#8 ([0x9F#8, st] ++ List.replicate 24 0x00#8)) s t9)

/-- The source's round trip (R175, S9) through the machine, under every conforming configuration: a
message that has its layout's fields, put into a register and read back as its own type, gives its
fields, with `command` its discriminator, and `DISCRIMINATE` names its type (R174; assumptions 6 and
23, and 24 for which configurations conform). -/
def Obligations.MessageSurvivesTheDatagram : Prop :=
  ∀ (d : DReg) (a : Byte) (m : Message) (s : State), s.rstate.busy = false → s.cfg.wf →
    m.fits s.cfg = true →
    ∃ t u w v, exec (m.instr d a) s = .next t ∧
      exec (.fromDatagram d (BitVec.ofNat 4 m.type.index.val)) t = .next u ∧
      u.resultPort = some (.fields v) ∧ v.message = m ∧ v.command = s.cfg.discOf m.type ∧
      exec (.discriminate d) t = .next w ∧
      w.resultPort = some (.discriminated true (s.cfg.discOf m.type) m.type.isResponse
        (.message m.type))

/-- The laws of R175, under every conforming configuration: `encode_T` puts the discriminator in byte 0, each
field's bytes at its offsets and zero elsewhere; `decode_T` returns the bytes found at those offsets
and byte 0 as `command`; decoding an encoded message that has its layout's fields gives it back;
encoding what a payload decodes to gives the payload back exactly when its byte 0 is `T`'s
discriminator and its padding is zero. Which layouts conform, what a message holds, and that a message
whose fields are not its layout's is encoded with zeros for a lacking byte or field and without the
bytes or fields beyond, are the model's choices (assumption 23; 24 for the code tables). -/
def Obligations.EncodeAndDecodeOfMessages : Prop :=
  ∀ c : Config, c.wf →
    (∀ m : Message, (m.payload c)[0] = c.discOf m.type ∧
      (∀ sl ∈ c.slots m.type, ∀ k < sl.width,
        payloadByte (m.payload c) (sl.offset + k) = (m.fieldBytes c.intOrder sl.field).getD k 0x00#8) ∧
      (∀ o : Fin 26, 1 ≤ o.val →
        (∀ sl ∈ c.slots m.type, ¬(sl.offset ≤ o.val ∧ o.val < sl.offset + sl.width)) →
        (m.payload c)[o] = 0x00#8) ∧
      (m.fits c = true → messageOf c m.type (m.payload c) = m)) ∧
    ∀ (T : MsgType) (p : Payload), (viewOf c T p).command = p[0] ∧
      (viewOf c T p).message = messageOf c T p ∧ (messageOf c T p).fits c = true ∧
      (∀ sl ∈ c.slots T, ∀ k < sl.width,
        ((messageOf c T p).fieldBytes c.intOrder sl.field).getD k 0x00#8 =
          payloadByte p (sl.offset + k)) ∧
      ((messageOf c T p).payload c = p ↔
        p[0] = c.discOf T ∧ ∀ o : Fin 26, 1 ≤ o.val →
          (∀ sl ∈ c.slots T, ¬(sl.offset ≤ o.val ∧ o.val < sl.offset + sl.width)) →
          p[o] = 0x00#8)

/-! ## Stream Reader -/

/-- R142: `READ` in any terminal state loads `CTX`, zeroes `CNT`, clears `RESULT` and `RX.valid` and
enters `AwaitStart`; the cells of `RX`, all of `TX` and everything else stay. A context beyond `CTX_W`
bits, which no word decodes to, is treated the same (assumption 3). -/
def Obligations.ReadStartsAnAttempt : Prop :=
  ∀ (ctx : Ctx) (s : State), s.rstate.busy = false →
    exec (.read ctx) s = .next { s with
      ctx := ctx, cnt := 0#6, result := none, rx := { s.rx with valid := false }
      rstate := .awaitStart, resultPort := none, pullCtx := none }

/-- R143: the start sentinel in `AwaitStart` (where `CNT` is 0) is stored at offset 0 and the state
becomes `ReadingBody(1)`; nothing else changes but the output ports. -/
def Obligations.StartSentinelIsStored : Prop :=
  ∀ s : State, s.rstate = .awaitStart → s.cnt = 0#6 →
    ∃ v, exec (.pullByte 0x55#8) s = .next { s with
      rx := { s.rx with cells := s.rx.cells.set 0 0x55#8 }
      cnt := 1#6, rstate := .readingBody, resultPort := v, pullCtx := some s.ctx }

/-- R144: any other byte in `AwaitStart` fails the attempt with `NO_START_BYTE`; it is not stored and
`CNT` stays. -/
def Obligations.OtherFirstByteIsNoStartByte : Prop :=
  ∀ (s : State) (b : Byte), s.rstate = .awaitStart → b ≠ 0x55#8 →
    ∃ t, exec (.pullByte b) s = .next t ∧ Raises .noStartByte (some s.ctx) s t

/-- R145 and R146: in `ReadingBody(n)` any byte is stored at offset `n`; the state becomes
`ReadingBody(n + 1)` for `n` up to 30 and `Validating` for `n` = 31. -/
def Obligations.BodyByteIsStoredAtItsOffset : Prop :=
  ∀ (s : State) (b : Byte) (n : Fin 32), 1 ≤ n.val → s.rstate = .readingBody →
    s.cnt = BitVec.ofNat 6 n.val →
    ∃ v, exec (.pullByte b) s = .next { s with
      rx := { s.rx with cells := s.rx.cells.set n.val b }
      cnt := BitVec.ofNat 6 (n.val + 1)
      rstate := if n.val = 31 then .validating else .readingBody
      resultPort := v, pullCtx := some s.ctx }

/-- R147: `RETRY` in a pulling state changes no state of the block; the next step pulls again with
the same `CTX`. -/
def Obligations.RetryChangesNothing : Prop :=
  ∀ s : State, s.rstate = .awaitStart ∨ s.rstate = .readingBody →
    ∃ v, exec .pullRetry s = .next { s with resultPort := v, pullCtx := some s.ctx }

/-- R148 and R149: in a pulling state `ABORT` fails the attempt with `ABORTED` and any unlisted
answer with `UNKNOWN`; `CNT`, the cells, the flags, `CTX` and `TX` stay. -/
def Obligations.AbortAndOtherFailTheAttempt : Prop :=
  ∀ s : State, s.rstate = .awaitStart ∨ s.rstate = .readingBody →
    (∃ t, exec .pullAbort s = .next t ∧ Raises .aborted (some s.ctx) s t) ∧
    ∃ t, exec .pullOther s = .next t ∧ Raises .unknown (some s.ctx) s t

/-- R150: the validating step tests the stop sentinel first, then the checksum, and on success sets
`RX.valid` and ends `Ok`; it pulls nothing. -/
def Obligations.ValidatingStepGivesTheVerdict : Prop :=
  ∀ s : State, s.resetPin = false → s.rstate = .validating →
    (s.rx.cells[31] ≠ 0x2A#8 →
      ∃ t, step s = .next t ∧ Raises .noEndByte none s t) ∧
    (s.rx.cells[31] = 0x2A#8 → checkChecksum s.rx.cells = false →
      ∃ t, step s = .next t ∧ Raises .badCrc8 none s t) ∧
    (s.rx.cells[31] = 0x2A#8 → checkChecksum s.rx.cells = true →
      ∃ v, step s = .next { s with
        rx := { s.rx with valid := true }, result := some .ok, rstate := .ok
        resultPort := v, pullCtx := none })

/-- A whole frame at an attempt that awaits its start (R80, R81, R156): the instruction pulls its first
byte, the 32 steps behind it the other 31 and the validation (R13, R141; that the source has a frame
ready as one word is assumption 5). Then `RX` holds its 32 bytes, `CNT` is 32, and the attempt has
ended `Ok` with the datagram readable exactly when its checksum field matches, else `BAD_CRC8`,
whatever the addresses and the protocol id (R35). The pull tags of a conforming configuration are
distinct by assumption 24. -/
def Obligations.FrameIsReadAndJudged : Prop :=
  ∀ (s : State) (src dst proto k : Byte) (payload : Payload), s.cfg.wf → s.resetPin = false →
    s.rstate = .awaitStart → s.cnt = 0#6 →
    ∃ t u, exec (.datagram src dst proto k payload) s = .next t ∧ runSteps 32 t = .next u ∧
      u.rx.cells.toList = [0x55#8, src, dst, proto, k] ++ payload.toList ++ [0x2A#8] ∧
      u.cnt = 32#6 ∧ u.tx = s.tx ∧ u.ctx = s.ctx ∧ SameInputs s u ∧ u.sink = s.sink ∧
      u.pullCtx = none ∧
      (k = crcRaw ([0x55#8, src, dst, proto, 0x00#8] ++ payload.toList ++ [0x2A#8]) →
        u.rstate = .ok ∧ u.result = some .ok ∧ u.rx.valid = true ∧
        u.resultPort = some (.readResult .ok (s.cfg.codeOf .ok) (some u.rx.cells))) ∧
      (k ≠ crcRaw ([0x55#8, src, dst, proto, 0x00#8] ++ payload.toList ++ [0x2A#8]) →
        u.rstate = .failed .badCrc8 ∧ u.result = some (.failed .badCrc8) ∧
        u.rx.valid = s.rx.valid ∧
        u.resultPort =
          some (.readResult (.failed .badCrc8) (s.cfg.codeOf (.failed .badCrc8)) none))

/-- A whole frame that arrives inside an attempt is body bytes like any other (R82, R145, R146;
assumption 5): its first `32 - n` bytes complete the capture from offset `n`, one a step, the step
behind them ends the attempt with a verdict, and its last `n` bytes stay unread on the receive
stream. The pull tags of a conforming configuration are distinct by assumption 24. -/
def Obligations.FrameInsideAnAttemptIsBodyBytes : Prop :=
  ∀ (s : State) (src dst proto k : Byte) (payload : Payload) (n : Fin 32), s.cfg.wf →
    s.resetPin = false → 1 ≤ n.val → s.rstate = .readingBody → s.cnt = BitVec.ofNat 6 n.val →
    ∃ t u, exec (.datagram src dst proto k payload) s = .next t ∧
      runSteps (32 - n.val) t = .next u ∧
      u.rx.cells.toList =
        s.rx.cells.toList.take n.val ++
          ([0x55#8, src, dst, proto, k] ++ payload.toList ++ [0x2A#8]).take (32 - n.val) ∧
      u.stream = (([0x55#8, src, dst, proto, k] ++ payload.toList ++ [0x2A#8]).drop
        (32 - n.val)).map (fun b => pullWord s.cfg (.byte b)) ++ s.stream ∧
      u.cnt = 32#6 ∧ u.rstate.busy = false ∧ u.result = some (verdictOf u.rx.cells) ∧
      u.tx = s.tx ∧ u.ctx = s.ctx ∧ u.cfg = s.cfg ∧ u.requests = s.requests ∧
      u.resetPin = s.resetPin ∧ u.sink = s.sink

/-- Outside the pulling states nothing is pulled (R151): a pull answer and a frame offered there stay
next on the receive stream and the block's own state does not change (assumption 5). -/
def Obligations.NothingIsPulledOutsideAnAttempt : Prop :=
  ∀ (s : State) (r : PullResult) (src dst proto k : Byte) (payload : Payload),
    s.rstate.pulling = false →
    exec r.instr s = .next { s with
      stream := pullWord s.cfg r :: s.stream, resultPort := none, pullCtx := none } ∧
    exec (.datagram src dst proto k payload) s = .next { s with
      stream := .frame (frameBytes src dst proto k payload) :: s.stream
      resultPort := none, pullCtx := none }

/-- The machine agrees with the attempt function of R156 step for step: an attempt at its start, fed
any pull results as pull words, reaches exactly the outcome `read(s)` gives, with the datagram in
`RX` when it is `OK` and the rest of the stream unread; and where `read(s)` has no result the attempt
is still busy when the stream is used up. The stream is assumption 1; that the pull tags of a conforming
configuration are distinct is assumption 24. -/
def Obligations.AttemptAgreesWithTheReadFunction : Prop :=
  ∀ (s : State) (rs : List PullResult), s.cfg.wf → s.rstate = .awaitStart → s.cnt = 0#6 →
    s.result = none → s.resetPin = false → s.stream = rs.map (pullWord s.cfg) →
    (∀ r d rest, readAttempt rs = some (r, d, rest) →
      ∃ n t, runSteps n s = .next t ∧ t.result = some r ∧ t.rstate.busy = false ∧
        t.stream = rest.map (pullWord s.cfg) ∧
        t.resultPort = some (.readResult r (s.cfg.codeOf r) d) ∧
        (r = .ok → d = some t.rx.cells ∧ t.rx.valid = true)) ∧
    (readAttempt rs = none →
      ∃ t, runSteps rs.length s = .next t ∧ t.rstate.busy = true ∧ t.result = none ∧
        t.stream = [])

/-- A whole 32-byte word on the receive stream, whatever its bytes, is 32 pull words: in a pulling state
a step with the one is a step with the others, so a frame takes one step for each byte it delivers
(R13, R50, R53; assumption 5; the pull tags of a conforming configuration are distinct by assumption
24). -/
def Obligations.FrameWordStepsAsItsBytes : Prop :=
  ∀ (s : State) (g : Datagram) (rest : List StreamWord), s.cfg.wf → s.resetPin = false →
    s.rstate.pulling = true →
    step { s with stream := .frame g :: rest } =
      step { s with stream := g.toList.map (fun b => pullWord s.cfg (.byte b)) ++ rest }

/-- A byte source that answers `RETRY` any number of times leaves the attempt where it was (R147,
R154): the block never gives up by itself. The stream is assumption 1, its distinct pull tags
assumption 24. -/
def Obligations.RetriesHangForAsLongAsTheyCome : Prop :=
  ∀ (n : Nat) (s : State) (rest : List StreamWord), s.cfg.wf → s.resetPin = false →
    s.rstate = .awaitStart ∨ s.rstate = .readingBody →
    s.stream = List.replicate n (pullWord s.cfg .retry) ++ rest →
    ∃ t, runSteps n s = .next t ∧ t.rx = s.rx ∧ t.tx = s.tx ∧ SameReader s t ∧
      t.stream = rest ∧ t.requests = s.requests ∧ t.sink = s.sink

/-- `LOOPBACK` (R115, P1): a valid frame in `TX`, sent and read back, is in `RX` byte for byte with
result `OK`, in 33 steps after the two requests, `CTX` being the operand of its `READ`. The stream is
assumption 1, its distinct pull tags assumption 24; that `READ` runs on a context beyond `CTX_W` bits
too, which no word decodes to, is assumption 3. -/
def Obligations.LoopbackReturnsTheFrame : Prop :=
  ∀ (ctx : Ctx) (s : State), s.cfg.wf → s.resetPin = false → s.rstate.busy = false →
    s.tx.valid = true → validFrame s.tx.cells = true →
    ∃ t u, loopback ctx s = .next t ∧ runSteps 33 t = .next u ∧ u.result = some .ok ∧
      u.rx = s.tx ∧ u.tx = s.tx ∧ u.ctx = ctx ∧ u.stream = s.stream ∧
      u.sink = s.sink ++ s.tx.cells.toList

/-! ## Acceptance -/

/-- R113 and R220 (decisions D10, D21): a request has a next state exactly when the reader is
terminal, its operands are in range and the register it reads is valid. That a message row is a request,
that it runs with operands of any width, and that `READ` runs on a context beyond `CTX_W` bits, are the
model's choices (assumptions 6, 23 and 3): no word decodes to such operands. -/
def Obligations.RequestRunsExactlyWhenAccepted : Prop :=
  ∀ (i : Instr) (s : State), i.isRequest = true →
    ((∃ t, exec i s = .next t) ↔ Accepts i s)

/-- R113: while a read attempt is busy every request is turned away (decision D21). That the busy reader
is named, by one name and before any other condition that fails, and that the message rows are requests,
are the model's choices (assumptions 12 and 6). -/
def Obligations.BusyReaderTurnsRequestsAway : Prop :=
  ∀ (i : Instr) (s : State), i.isRequest = true → s.rstate.busy = true →
    exec i s = .refused .readerBusy

/-- The pull answers and the frame have a next state in every state: nothing a byte source answers stops
the block (R51, R52). That they have one outside the pulling states too, where R155 says no pull result
can arrive, and that a frame is one instruction, are the model's choices (assumption 5). -/
def Obligations.EveryPullAnswerCompletes : Prop :=
  ∀ (i : Instr) (s : State), i.isRequest = false → ∃ t, exec i s = .next t

/-! ## The step -/

/-- With reset not asserted and the reader terminal, a step runs the request the operation port has
ready, at the state with that word taken off (R13, R113). -/
def Obligations.StepRunsTheDecodedRequest : Prop :=
  ∀ (s : State) (w : RequestWord) (rest : List RequestWord) (i : Instr), s.resetPin = false →
    s.rstate.busy = false → s.requests = w :: rest → decodeRequest s.cfg w = .ok i →
    step s = exec i { s with requests := rest }

/-- With reset not asserted and an attempt pulling, a step runs the answer the receive stream has
ready, at the state with that word taken off; with none ready it waits, presenting `CTX` (R13, R50,
R52). A 32-byte word whose sentinels do not stand is no frame (R81): the step pulls its first byte and
leaves the other 31 as pull words (assumption 5). -/
def Obligations.StepRunsTheDecodedPull : Prop :=
  ∀ (s : State) (rest : List StreamWord), s.resetPin = false → s.rstate.pulling = true →
    (∀ w i, s.stream = w :: rest → decodeStream s.cfg w = .ok i →
      step s = exec i { s with stream := rest }) ∧
    (∀ g : Datagram, s.stream = .frame g :: rest → g[0] ≠ 0x55#8 ∨ g[31] ≠ 0x2A#8 →
      step s = exec (.pullByte g[0]) { s with
        stream := (g.toList.drop 1).map (fun b => pullWord s.cfg (.byte b)) ++ rest }) ∧
    (s.stream = [] → step s = .next { s with resultPort := none, pullCtx := some s.ctx })

/-- A terminal block to which nothing is requested makes no step of its own and no pull (R151). -/
def Obligations.TerminalBlockPullsNothing : Prop :=
  ∀ s : State, s.resetPin = false → s.rstate.busy = false → s.requests = [] →
    step s = .next { s with resultPort := none, pullCtx := none }

/-- R40 and R240 (decisions D8, D31): the state after reset and the state after asserting reset at
any time, mid-attempt included: `Idle`, `CNT` 0, no result, both registers invalid. That the reset input
is a pulse, released by the step that sees it, and that what waits at the ports and what was emitted
stay, is the model's choice (assumption 8). -/
def Obligations.ResetLeavesTheBlockIdle : Prop :=
  (State.reset.rstate = .idle ∧ State.reset.cnt = 0#6 ∧ State.reset.result = none ∧
    State.reset.rx.valid = false ∧ State.reset.tx.valid = false) ∧
  ∀ s : State, s.resetPin = true → ∃ t, step s = .next t ∧ t.rstate = .idle ∧ t.cnt = 0#6 ∧
    t.result = none ∧ t.rx.valid = false ∧ t.tx.valid = false ∧ t.resetPin = false ∧
    t.resultPort = none ∧ t.cfg = s.cfg ∧ t.requests = s.requests ∧ t.stream = s.stream ∧
    t.sink = s.sink

/-! ## Whole-machine rules -/

/-- The invariant holds after reset, and the defaults of R7 are a conforming configuration (R96;
assumptions 23 and 24). -/
def Obligations.InvariantHoldsAfterReset : Prop := State.reset.Inv ∧ State.reset.cfg.wf

/-- Every step keeps the invariant: `RESULT` is what `RSTATE` determines, `CNT` fits `RSTATE`, `RX` is
invalid while an attempt is busy, an attempt past its first byte holds the start sentinel, after `Ok`
the datagram is readable, and `CTX` has `CTX_W` bits (R22, R25 to R27, R29). -/
def Obligations.EveryStepKeepsTheInvariant : Prop :=
  ∀ s t : State, s.Inv → step s = .next t → t.Inv

/-- R81, R150: whenever a step ends an attempt `Ok`, the bytes in `RX` are a valid frame: both
sentinels and the checksum stand. -/
def Obligations.OkMeansAValidFrame : Prop :=
  ∀ s t : State, s.Inv → step s = .next t → s.rstate.busy = true → t.rstate = .ok →
    t.rx.valid = true ∧ t.rx.cells[0] = 0x55#8 ∧ t.rx.cells[31] = 0x2A#8 ∧
      checkChecksum t.rx.cells = true

/-- R22 (decision D10): no partial datagram is exposed: a step from a busy attempt leaves `RX` invalid
unless it ends the attempt `Ok`, and the reading operations on `RX` have no next state while it is
invalid. -/
def Obligations.NoPartialDatagramIsExposed : Prop :=
  (∀ s t : State, s.Inv → step s = .next t → s.rstate.busy = true → t.rstate ≠ .ok →
    t.rx.valid = false) ∧
  ∀ (i : Instr) (s t : State), i.readsReg = some .rx → s.rx.valid = false → exec i s ≠ .next t

/-- R29: `READ` writes its operand to `CTX` and nothing else writes it; no instruction changes the
configuration (R7) or the reset input. A context beyond `CTX_W` bits is stored as well (assumption 3). -/
def Obligations.OnlyReadWritesCtx : Prop :=
  ∀ (i : Instr) (s t : State), exec i s = .next t →
    (∀ x, i = .read x → t.ctx = x) ∧ ((∀ x, i ≠ .read x) → t.ctx = s.ctx) ∧ t.cfg = s.cfg ∧ t.resetPin = s.resetPin

/-- R20, R23, R142: the reader never touches `TX`; an operation that writes one datagram register
leaves the other alone; every other request but `READ` leaves both alone; `READ` changes of them only
`RX.valid`. That the message rows are requests that write the register they name is assumption 6. -/
def Obligations.RegistersChangeOnlyWhereNamed : Prop :=
  ∀ (i : Instr) (s t : State), exec i s = .next t →
    (i.isRequest = false → t.tx = s.tx) ∧
    (∀ d, i.writesReg = some d → t.reg d.other = s.reg d.other) ∧
    (i.isRequest = true → i.writesReg = none → (∀ ctx, i ≠ .read ctx) → SameRegs s t) ∧
    (∀ ctx, i = .read ctx → t.tx = s.tx ∧ t.rx.cells = s.rx.cells)

/-- R56, R127: `AS_BYTES` puts the 32 cells of its register behind the bytes already emitted, and no
other instruction changes the byte sink. -/
def Obligations.OnlyAsBytesEmits : Prop :=
  ∀ (i : Instr) (s t : State), exec i s = .next t →
    (∀ d, i = .asBytes d → t.sink = s.sink ++ (s.reg d).cells.toList) ∧
    ((∀ d, i ≠ .asBytes d) → t.sink = s.sink)

/-- R112 and R50 (decisions D3, D6): what stands on the output ports after a step. A request that has no
return value leaves the result port empty; an answer of the byte source shows there the outcome of the
attempt when it ends it and nothing before; the validating step shows the verdict; `CTX` is presented
by pulls alone, and it is the value of `CTX`. The codes shown are those of R211's table under the
default configuration, `OK` 0 to `UNKNOWN` 5. The ports as fields are assumption 8, the message rows as
requests assumption 6. -/
def Obligations.OutputPortsShowTheStep : Prop :=
  (∀ (i : Instr) (s t : State), exec i s = .next t →
    (i.isRequest = true → t.pullCtx = none ∧ (returns i = false → t.resultPort = none)) ∧
    (i.isRequest = false → s.rstate.pulling = true →
      t.resultPort = shownOf t ∧ t.pullCtx = some s.ctx)) ∧
  (∀ s t : State, s.resetPin = false → s.rstate = .validating → step s = .next t →
    t.resultPort = shownOf t ∧ t.pullCtx = none) ∧
  [ReadResult.ok, .failed .noStartByte, .failed .noEndByte, .failed .badCrc8, .failed .aborted,
    .failed .unknown].map Config.default.codeOf = [0#3, 1#3, 2#3, 3#3, 4#3, 5#3]

/-- R28 (decision D3): a return value is kept nowhere an operation could read it: what stands on the
output ports before an instruction has no influence on what it does. -/
def Obligations.ReturnValuesAreNotKept : Prop :=
  ∀ (i : Instr) (s : State) (v : Option Returned) (x : Option Ctx),
    exec i { s with resultPort := v, pullCtx := x } = exec i s

/-- R27, R151, R217: `RESULT` and `RSTATE` of a finished attempt stay under every request but
`READ`, the message rows among them (assumption 6). -/
def Obligations.ResultStaysUntilTheNextRead : Prop :=
  ∀ (i : Instr) (s t : State), exec i s = .next t → i.isRequest = true →
    (∀ ctx, i ≠ .read ctx) →
    t.rstate = s.rstate ∧ t.result = s.result ∧ t.cnt = s.cnt ∧ t.stream = s.stream
end

