-- ==== Sys2Proof/Laws/Decode.lean ====
section
/-! SUPPORT. The laws of the encodings: the table lookups invert the tables of a conforming
configuration, the integer field and the fixed-size byte strings round-trip, and `decode_T` undoes
`encode_T` under any conforming layout. -/

namespace Sys2Proof

/-! ## Table lookups -/

/-- In a list whose codes are distinct, searching by the code of an element finds the element. -/
theorem find?_by_code {α β : Type} [DecidableEq β] (f : α → β) :
    ∀ (l : List α) (a : α), a ∈ l → (l.map f).Nodup →
      l.find? (fun x => decide (f x = f a)) = some a
  | [], a, h, _ => by simp at h
  | x :: l, a, h, nd => by
    simp only [List.map_cons, List.nodup_cons, List.mem_map, not_exists, not_and] at nd
    rcases List.mem_cons.mp h with rfl | h
    · simp
    · have hne : f x ≠ f a := fun e => nd.1 a h e.symm
      simpa [List.find?_cons, hne] using find?_by_code f l a h nd.2

theorem MsgType.mem_all (T : MsgType) : T ∈ MsgType.all := by cases T <;> decide
theorem Status.mem_all (k : Status) : k ∈ Status.all := by cases k <;> decide
theorem PullTag.mem_all (t : PullTag) : t ∈ PullTag.all := by cases t <;> decide
theorem OpName.mem_all (o : OpName) : o ∈ OpName.all := by cases o <;> decide
theorem ReadResult.mem_all (r : ReadResult) : r ∈ ReadResult.all := by
  rcases r with _ | k
  · decide
  · cases k <;> decide

theorem Config.typeOf_discOf {c : Config} (h : c.wf) (T : MsgType) :
    c.typeOf (c.discOf T) = some T :=
  find?_by_code c.discOf MsgType.all T T.mem_all h.1.1

theorem Config.opOf_selOf {c : Config} (h : c.wf) (o : OpName) : c.opOf (c.selOf o) = some o :=
  find?_by_code c.selOf OpName.all o o.mem_all h.2.2.2.2.2

theorem Config.pullOf_tagOf {c : Config} (h : c.wf) (t : PullTag) :
    c.pullOf (c.tagOf t) = some t :=
  find?_by_code c.tagOf PullTag.all t t.mem_all h.2.2.2.2.1

theorem Config.discOf_of_typeOf {c : Config} {b : Byte} {T : MsgType} (h : c.typeOf b = some T) :
    c.discOf T = b := by simpa using List.find?_some h

theorem Config.selOf_of_opOf {c : Config} {sel : BitVec 4} {o : OpName} (h : c.opOf sel = some o) :
    c.selOf o = sel := by simpa using List.find?_some h

theorem Config.tagOf_of_pullOf {c : Config} {tag : BitVec 2} {t : PullTag}
    (h : c.pullOf tag = some t) : c.tagOf t = tag := by simpa using List.find?_some h

/-- Type index `T` names the type whose index it is (R96). -/
theorem MsgType.all_index (T : MsgType) : MsgType.all[T.index.val]? = some T := by
  cases T <;> rfl

/-! ## Fixed-size byte strings and the integer field -/

@[simp] theorem bytesOfList_toList {n : Nat} (v : Vector Byte n) :
    bytesOfList n v.toList = some v := by
  rw [bytesOfList, dif_pos (by simp)]
  rfl

theorem bytesOfList_some {n : Nat} {l : List Byte} {v : Vector Byte n}
    (h : bytesOfList n l = some v) : v.toList = l := by
  unfold bytesOfList at h
  split at h
  · cases h; rfl
  · cases h

theorem sized_toList {n : Nat} (v : Vector Byte n) (k : Vector Byte n → Instr) :
    sized n v.toList k = .ok (k v) := by simp [sized]

theorem assemble_bytes (v : Word32) :
    assemble (byteOf v 0) (byteOf v 1) (byteOf v 2) (byteOf v 3) = v := by
  apply BitVec.eq_of_getLsbD_eq
  intro i hi
  simp only [assemble, byteOf, BitVec.getLsbD_or, BitVec.getLsbD_shiftLeft,
    BitVec.truncate_eq_setWidth, BitVec.getLsbD_setWidth, BitVec.getLsbD_extractLsb']
  interval_cases i <;> simp

theorem byteOf_assemble (b0 b1 b2 b3 : Byte) :
    byteOf (assemble b0 b1 b2 b3) 0 = b0 ∧ byteOf (assemble b0 b1 b2 b3) 1 = b1 ∧
    byteOf (assemble b0 b1 b2 b3) 2 = b2 ∧ byteOf (assemble b0 b1 b2 b3) 3 = b3 := by
  refine ⟨?_, ?_, ?_, ?_⟩ <;>
  · apply BitVec.eq_of_getLsbD_eq
    intro i hi
    simp only [assemble, byteOf, BitVec.getLsbD_or, BitVec.getLsbD_shiftLeft,
      BitVec.truncate_eq_setWidth, BitVec.getLsbD_setWidth, BitVec.getLsbD_extractLsb']
    interval_cases i <;> simp

theorem intBytes_length (o : IntOrder) (v : Word32) : (intBytes o v).length = 4 := by
  cases o <;> rfl

/-- Assembly undoes disassembly in either byte order (R92). -/
theorem intOf_intBytes (o : IntOrder) (v : Word32) :
    intOf o ((intBytes o v).getD 0 0) ((intBytes o v).getD 1 0) ((intBytes o v).getD 2 0)
      ((intBytes o v).getD 3 0) = v := by
  cases o <;> exact assemble_bytes v

/-- Disassembly undoes assembly in either byte order (R92). -/
theorem intBytes_intOf (o : IntOrder) (b0 b1 b2 b3 : Byte) :
    intBytes o (intOf o b0 b1 b2 b3) = [b0, b1, b2, b3] := by
  cases o
  · obtain ⟨h0, h1, h2, h3⟩ := byteOf_assemble b0 b1 b2 b3
    simp [intBytes, intOf, h0, h1, h2, h3]
  · obtain ⟨h0, h1, h2, h3⟩ := byteOf_assemble b3 b2 b1 b0
    simp [intBytes, intOf, h0, h1, h2, h3]

theorem shiftRight_byte_succ (x k : Nat) : x >>> (8 * (k + 1)) = (x / 256) >>> (8 * k) := by
  rw [show 8 * (k + 1) = 8 + 8 * k by omega, Nat.shiftRight_add, Nat.shiftRight_eq_div_pow x 8]

/-- The lowest byte of a number, then the bytes of the rest. -/
theorem numBytes_succ (n x : Nat) :
    numBytes (n + 1) x = BitVec.ofNat 8 x :: numBytes n (x / 256) := by
  simp only [numBytes, List.range_succ_eq_map, List.map_cons, List.map_map, List.cons.injEq]
  exact ⟨rfl, List.map_congr_left fun k _ => by
    simp only [Function.comp, Nat.succ_eq_add_one, shiftRight_byte_succ]⟩

/-- A number is what its bytes hold (R111's context operand). -/
theorem numOf_numBytes (n : Nat) : ∀ x : Nat, numOf (numBytes n x) = x % 256 ^ n := by
  induction n with
  | zero => intro x; rw [Nat.pow_zero, Nat.mod_one]; rfl
  | succ n ih =>
    intro x
    rw [numBytes_succ, numOf, ih, Nat.pow_succ, Nat.mul_comm (256 ^ n), Nat.mod_mul]
    rfl

/-- The bytes of the number a list holds are the list. -/
theorem numBytes_numOf : ∀ l : List Byte, numBytes l.length (numOf l) = l
  | [] => rfl
  | b :: l => by
    have hb := b.isLt
    have h0 : BitVec.ofNat 8 (b.toNat + 256 * numOf l) = b := by
      apply BitVec.eq_of_toNat_eq; rw [BitVec.toNat_ofNat]; omega
    rw [List.length_cons, numBytes_succ, numOf, h0,
      show (b.toNat + 256 * numOf l) / 256 = numOf l by omega, numBytes_numOf l]

theorem numBytes_length (n x : Nat) : (numBytes n x).length = n := by simp [numBytes]

/-- A context value of `CTX_W` bits is held by its bytes (R29, R111). -/
theorem Config.ctx_bytes {c : Config} {x : Ctx} (h : x < 2 ^ c.ctxW) :
    numOf (numBytes c.ctxBytes x) = x := by
  rw [numOf_numBytes, Nat.mod_eq_of_lt]
  refine h.trans_le ?_
  rw [show (256 : Nat) = 2 ^ 8 from rfl, ← Nat.pow_mul]
  exact Nat.pow_le_pow_right (by decide) (by unfold Config.ctxBytes; omega)

/-! ## The layout of a conforming configuration -/

theorem Config.slotsOk_of_wf {c : Config} (h : c.wf) (T : MsgType) : c.slotsOk T :=
  h.2.1 T T.mem_all

/-- The bounds of a slot of a conforming layout (R90). -/
theorem Config.slot_bounds {c : Config} (h : c.wf) {T : MsgType} {sl : Slot}
    (hs : sl ∈ c.slots T) : 1 ≤ sl.offset ∧ 1 ≤ sl.width ∧ sl.offset + sl.width ≤ 26 :=
  let b := (c.slotsOk_of_wf h T).2.2.1 sl hs
  ⟨b.2.1, b.2.2.1, b.2.2.2.1⟩

/-- Two slots of a conforming layout for one field are the same slot. -/
theorem Config.slot_of_field {c : Config} (h : c.wf) {T : MsgType} {a b : Slot}
    (ha : a ∈ c.slots T) (hb : b ∈ c.slots T) (hf : a.field = b.field) : a = b :=
  List.inj_on_of_nodup_map (c.slotsOk_of_wf h T).2.1 ha hb hf

theorem Slot.covers_iff {sl : Slot} {p : Nat} :
    sl.covers p = true ↔ sl.offset ≤ p ∧ p < sl.offset + sl.width := by simp [Slot.covers]

theorem Slot.width_of_isInteger {sl : Slot} (h : sl.isInteger = true) : sl.width = 4 := by
  simp only [Slot.isInteger, Bool.and_eq_true, beq_iff_eq] at h
  exact h.2

/-- Two different elements of a list related in either order by a symmetric pairwise relation are
related. -/
theorem pairwise_of_mem {α : Type} {R : α → α → Prop} (symm : ∀ x y, R x y → R y x) {a b : α} :
    ∀ {l : List α}, l.Pairwise R → a ∈ l → b ∈ l → a ≠ b → R a b
  | [], _, ha, _, _ => by simp at ha
  | x :: l, hp, ha, hb, hne => by
    obtain ⟨hx, hp⟩ := List.pairwise_cons.mp hp
    rcases List.mem_cons.mp ha with ha | ha <;> rcases List.mem_cons.mp hb with hb | hb
    · exact absurd (ha.trans hb.symm) hne
    · exact ha ▸ hx b hb
    · exact symm _ _ (hb ▸ hx a ha)
    · exact pairwise_of_mem symm hp ha hb hne

/-- Two slots of a conforming layout that share a payload byte are the same slot. -/
theorem Config.slot_unique {c : Config} (h : c.wf) {T : MsgType} {a b : Slot}
    (ha : a ∈ c.slots T) (hb : b ∈ c.slots T) {p : Nat} (pa : a.covers p = true)
    (pb : b.covers p = true) : a = b := by
  rw [Slot.covers_iff] at pa pb
  by_contra hne
  have hp := (c.slotsOk_of_wf h T).2.2.2
  rcases pairwise_of_mem (fun _ _ h => h.symm) hp ha hb hne with h | h <;> omega

/-- What `slotAt` finds is a slot of the type that covers the byte. -/
theorem Config.mem_of_slotAt {c : Config} {T : MsgType} {p : Nat} {sl : Slot}
    (h : c.slotAt T p = some sl) : sl ∈ c.slots T ∧ sl.covers p = true :=
  ⟨List.mem_of_find?_eq_some h, by simpa using List.find?_some h⟩

/-- No slot is found exactly at a byte that no field of the type covers. -/
theorem Config.slotAt_eq_none {c : Config} {T : MsgType} {p : Nat} :
    c.slotAt T p = none ↔ ∀ sl ∈ c.slots T, sl.covers p = false := by
  simp [Config.slotAt, List.find?_eq_none]

/-- The slot a byte of a slot belongs to is that slot. -/
theorem Config.slotAt_of_mem {c : Config} (h : c.wf) {T : MsgType} {sl : Slot}
    (hs : sl ∈ c.slots T) {p : Nat} (hp : sl.covers p = true) : c.slotAt T p = some sl := by
  have hsome : (c.slotAt T p).isSome := by
    rw [Config.slotAt, List.find?_isSome]; exact ⟨sl, hs, hp⟩
  obtain ⟨x, hx⟩ := Option.isSome_iff_exists.mp hsome
  obtain ⟨hxm, hxp⟩ := Config.mem_of_slotAt hx
  rw [hx, c.slot_unique h hxm hs hxp hp]

/-! ## encode_T and decode_T (R175) -/

/-- Payload byte 0 of an encoded message is its discriminator (R90). -/
theorem Message.payload_zero (c : Config) (m : Message) : (m.payload c)[0] = c.discOf m.type := by
  simp [Message.payload]

/-- Byte `p` of an encoded message (R175). -/
theorem Message.getElem_payload (c : Config) (m : Message) (p : Nat) (h : p < 26) :
    (m.payload c)[p] =
      if p = 0 then c.discOf m.type
      else match c.slotAt m.type p with
        | some sl => (m.fieldBytes c.intOrder sl.field).getD (p - sl.offset) 0
        | none => 0 :=
  Vector.getElem_ofFn h

theorem payloadByte_eq {p : Payload} {o : Nat} (h : o < 26) : payloadByte p o = p[o] := by
  rw [payloadByte, List.getD_eq_getElem _ _ (by simpa using h)]; simp

/-- Byte `k` of a field of an encoded message is byte `k` of the field's bytes (R175). -/
theorem Message.payloadByte_payload {c : Config} (h : c.wf) (m : Message) {sl : Slot}
    (hs : sl ∈ c.slots m.type) {k : Nat} (hk : k < sl.width) :
    payloadByte (m.payload c) (sl.offset + k) =
      (m.fieldBytes c.intOrder sl.field).getD k 0 := by
  have hb := c.slot_bounds h hs
  rw [payloadByte_eq (by omega), m.getElem_payload c _ (by omega), if_neg (by omega),
    c.slotAt_of_mem h hs (Slot.covers_iff.mpr ⟨by omega, by omega⟩)]
  simp

theorem slotBytes_length (sl : Slot) (p : Payload) : (slotBytes sl p).length = sl.width := by
  simp [slotBytes]

/-- The bytes of the value found in a slot are the slot's bytes (R92, R93). -/
theorem toBytes_slotValue (o : IntOrder) (sl : Slot) (p : Payload) :
    (slotValue o sl p).toBytes o = slotBytes sl p := by
  unfold slotValue
  split
  · next hi =>
    rw [Value.toBytes, intBytes_intOf, slotBytes, Slot.width_of_isInteger hi]
    rfl
  · rfl

/-- A value is found again where its bytes stand, if it fits the slot (R92, R93). -/
theorem slotValue_of_bytes {o : IntOrder} {sl : Slot} {p : Payload} {v : Value}
    (hv : v.fits sl = true) (hb : slotBytes sl p = v.toBytes o) : slotValue o sl p = v := by
  unfold slotValue
  cases v with
  | bytes bs =>
    simp only [Value.fits, Bool.and_eq_true, Bool.not_eq_true'] at hv
    rw [if_neg (by simp [hv.1]), hb]
    rfl
  | int v =>
    have hi : sl.isInteger = true := hv
    rw [if_pos hi]
    rw [slotBytes, Slot.width_of_isInteger hi] at hb
    have key : ∀ k < 4, payloadByte p (sl.offset + k) = (intBytes o v).getD k 0 := by
      intro k hk
      have := congrArg (fun l : List Byte => l.getD k 0) hb
      simpa [Value.toBytes, List.getD_eq_getElem?_getD, hk] using this
    have k0 := key 0 (by decide)
    rw [Nat.add_zero] at k0
    rw [k0, key 1 (by decide), key 2 (by decide), key 3 (by decide), intOf_intBytes]

/-- A value that fits a slot has as many bytes as the slot. -/
theorem Value.toBytes_length {o : IntOrder} {sl : Slot} {v : Value} (h : v.fits sl = true) :
    (v.toBytes o).length = sl.width := by
  cases v with
  | bytes bs =>
    simp only [Value.fits, Bool.and_eq_true, beq_iff_eq] at h
    exact h.2
  | int v => rw [Value.toBytes, intBytes_length, Slot.width_of_isInteger h]

/-- The fields that fit a layout are its fields, each with a value that fits its slot. -/
theorem fieldsFit_forall₂ : ∀ {sls : List Slot} {fs : Fields}, fieldsFit sls fs = true →
    List.Forall₂ (fun sl a => a.field = sl.field ∧ a.value.fits sl = true) sls fs
  | [], [], _ => .nil
  | sl :: sls, a :: fs, h => by
    simp only [fieldsFit, Bool.and_eq_true, decide_eq_true_eq] at h
    exact .cons ⟨h.1.1, h.1.2⟩ (fieldsFit_forall₂ h.2)
  | [], _ :: _, h => by simp [fieldsFit] at h
  | _ :: _, [], h => by simp [fieldsFit] at h

/-- Searching the fields for the field of a slot finds the slot's value, in a layout that holds no
field twice. -/
theorem find?_forall₂ {P : Slot → Assign → Prop} (hP : ∀ sl a, P sl a → a.field = sl.field) :
    ∀ {sls : List Slot} {fs : Fields}, (sls.map Slot.field).Nodup → List.Forall₂ P sls fs →
      List.Forall₂ (fun sl a => P sl a ∧
        fs.find? (fun b => decide (b.field = sl.field)) = some a) sls fs
  | [], [], _, _ => .nil
  | sl :: sls, a :: fs, hn, .cons ha hr => by
    simp only [List.map_cons, List.nodup_cons, List.mem_map, not_exists, not_and] at hn
    refine .cons ⟨ha, by simp [hP _ _ ha]⟩ ?_
    have ih := find?_forall₂ hP hn.2 hr
    have hmem : List.Forall₂ (fun x b => x ∈ sls ∧ (P x b ∧
        fs.find? (fun y => decide (y.field = x.field)) = some b)) sls fs :=
      (List.forall₂_and_left _ _).mpr ⟨fun _ h => h, ih⟩
    refine hmem.imp fun x b hx => ⟨hx.2.1, ?_⟩
    have hne : ¬ a.field = x.field := fun e => hn.1 x hx.1 (e.symm.trans (hP _ _ ha))
    simp [hne, hx.2.2]

/-- The value a fitting message gives the field of a slot, at the slot's place in its fields. -/
theorem Message.value_of_fits {c : Config} (h : c.wf) {m : Message} (hm : m.fits c = true) :
    List.Forall₂ (fun sl a => (a.field = sl.field ∧ a.value.fits sl = true) ∧
      m.value sl.field = some a.value) (c.slots m.type) m.fields := by
  refine (find?_forall₂ (fun _ _ h => h.1) (c.slotsOk_of_wf h m.type).2.1
    (fieldsFit_forall₂ hm)).imp fun sl a h => ⟨h.1, ?_⟩
  rw [Message.value, h.2]; rfl

/-- The bytes of each field of an encoded message that fits are found at its slot (R175). -/
theorem slotBytes_payload {c : Config} (h : c.wf) (m : Message) {sl : Slot} {v : Value}
    (hs : sl ∈ c.slots m.type) (hf : v.fits sl = true) (hv : m.value sl.field = some v) :
    slotBytes sl (m.payload c) = v.toBytes c.intOrder := by
  apply List.ext_getElem
  · rw [slotBytes_length, v.toBytes_length hf]
  · intro k h1 h2
    rw [slotBytes_length] at h1
    simp only [slotBytes, List.getElem_map, List.getElem_range]
    rw [m.payloadByte_payload h hs h1, Message.fieldBytes, hv]
    exact List.getD_eq_getElem _ _ h2

/-- `decode_T(encode_T(f))` returns `f` (the first law of R175), under any conforming
configuration. -/
theorem messageOf_payload {c : Config} (h : c.wf) {m : Message} (hm : m.fits c = true) :
    messageOf c m.type (m.payload c) = m := by
  have hall := Message.value_of_fits h hm
  have hmem : List.Forall₂ (fun sl a => sl ∈ c.slots m.type ∧
      ((a.field = sl.field ∧ a.value.fits sl = true) ∧ m.value sl.field = some a.value))
      (c.slots m.type) m.fields := (List.forall₂_and_left _ _).mpr ⟨fun _ h => h, hall⟩
  have heq : (c.slots m.type).map
      (fun sl => (⟨sl.field, slotValue c.intOrder sl (m.payload c)⟩ : Assign)) = m.fields := by
    have hf2 := hmem.imp (fun sl a ⟨hs, ⟨hf, hv⟩, hval⟩ =>
      show (⟨sl.field, slotValue c.intOrder sl (m.payload c)⟩ : Assign) = a by
        rw [slotValue_of_bytes hv (slotBytes_payload h m hs hv hval), ← hf])
    exact List.forall₂_eq_eq_eq ▸ List.forall₂_map_left_iff.mpr hf2
  rw [messageOf, heq]

/-- `decode_T` answers a message of type `T`. -/
theorem messageOf_type (c : Config) (T : MsgType) (p : Payload) : (messageOf c T p).type = T := rfl

theorem slotValue_fits (o : IntOrder) (sl : Slot) (p : Payload) :
    (slotValue o sl p).fits sl = true := by
  unfold slotValue
  split
  · assumption
  · next h => simp [Value.fits, h, slotBytes_length]

/-- What `decode_T` answers has the fields of the layout. -/
theorem messageOf_fits (c : Config) (T : MsgType) (p : Payload) :
    (messageOf c T p).fits c = true := by
  show fieldsFit (c.slots T) ((c.slots T).map _) = true
  induction c.slots T with
  | nil => rfl
  | cons sl sls ih => simp only [List.map_cons, fieldsFit, slotValue_fits, ih]; simp

/-- The value `decode_T` finds for the field of a slot. -/
theorem Message.value_messageOf {c : Config} (h : c.wf) {T : MsgType} (p : Payload) {sl : Slot}
    (hs : sl ∈ c.slots T) :
    (messageOf c T p).value sl.field = some (slotValue c.intOrder sl p) := by
  have hsome : ((messageOf c T p).fields.find? fun a => decide (a.field = sl.field)).isSome := by
    rw [List.find?_isSome]
    exact ⟨_, List.mem_map_of_mem hs, by simp⟩
  obtain ⟨a, ha⟩ := Option.isSome_iff_exists.mp hsome
  obtain ⟨x, hx, rfl⟩ := List.mem_map.mp (List.mem_of_find?_eq_some ha)
  have hxf : x.field = sl.field := by simpa using List.find?_some ha
  rw [Message.value, ha, c.slot_of_field h hx hs hxf]
  rfl

/-- The bytes of a field that `decode_T` returns are the bytes at its offsets (R175). -/
theorem fieldBytes_messageOf {c : Config} (h : c.wf) {T : MsgType} (p : Payload) {sl : Slot}
    (hs : sl ∈ c.slots T) :
    (messageOf c T p).fieldBytes c.intOrder sl.field = slotBytes sl p := by
  rw [Message.fieldBytes, Message.value_messageOf h p hs]
  exact toBytes_slotValue _ _ _

/-! ## The operands of a message row (R98 to R107, R175) -/

/-- A field every allowed contents of a type has is in every conforming layout of it (R97). -/
theorem Config.slot_of_contents {c : Config} (h : c.wf) {T : MsgType} {f : Field}
    (hf : ∀ need ∈ T.contents, f ∈ need) : ∃ sl ∈ c.slots T, sl.field = f := by
  obtain ⟨need, hn, hall⟩ := (c.slotsOk_of_wf h T).1
  simpa using hall f (hf need hn)

/-- The width of a slot whose field's width no layout may change. -/
theorem Config.width_of_fixed {c : Config} (h : c.wf) {T : MsgType} {sl : Slot}
    (hs : sl ∈ c.slots T) {w : Nat} (hw : sl.field.fixedWidth = some w) : sl.width = w :=
  ((c.slotsOk_of_wf h T).2.2.1 sl hs).2.2.2.2 w hw

theorem Slot.isInteger_eq_false {sl : Slot} (h : sl.field.isInteger = false) :
    sl.isInteger = false := by simp [Slot.isInteger, h]

/-- `decode_T` finds no value for a field the layout lacks. -/
theorem Message.value_messageOf_none {c : Config} {T : MsgType} (p : Payload) {f : Field}
    (hf : ∀ sl ∈ c.slots T, sl.field ≠ f) : (messageOf c T p).value f = none := by
  have : ((messageOf c T p).fields.find? fun a => decide (a.field = f)) = none := by
    rw [List.find?_eq_none]
    intro a ha
    obtain ⟨x, hx, rfl⟩ := List.mem_map.mp ha
    simpa using hf x hx
  rw [Message.value, this]; rfl

/-- The value of a field is found again in the payload, if it fits the slot (R175). -/
theorem Message.value_payload {c : Config} (h : c.wf) {m : Message} {sl : Slot} {v : Value}
    (hs : sl ∈ c.slots m.type) (hf : v.fits sl = true) (hv : m.value sl.field = some v) :
    (messageOf c m.type (m.payload c)).value sl.field = some v := by
  rw [Message.value_messageOf h _ hs, slotValue_of_bytes hf (slotBytes_payload h m hs hf hv)]

/-- A byte-list operand that fits is found again in the payload. -/
theorem Message.bytesAt_payload {c : Config} (h : c.wf) {T : MsgType} {m : Message} {f : Field}
    {bs : List Byte} (ht : m.type = T) (hi : f.isInteger = false) (hv : m.value f = some (.bytes bs))
    (hf : c.operandFits T f bs = true) :
    (messageOf c T (m.payload c)).bytesAt f = bs := by
  subst ht
  rw [Config.operandFits] at hf
  split at hf
  · next sl hsl =>
    have hs := List.mem_of_find?_eq_some hsl
    have hsf : sl.field = f := by simpa using List.find?_some hsl
    subst hsf
    have hfit : (Value.bytes bs).fits sl = true := by
      simp only [Value.fits, Slot.isInteger_eq_false hi, Bool.not_false, Bool.true_and, hf]
    rw [Message.bytesAt, Message.value_payload h hs hfit hv]
  · next hsl =>
    have hn : ∀ sl ∈ c.slots m.type, sl.field ≠ f := by
      simpa [Config.slotOf, List.find?_eq_none] using hsl
    rw [Message.bytesAt, Message.value_messageOf_none _ hn]
    exact (List.isEmpty_iff.mp hf).symm

/-- The integer operand is found again in the payload, in either byte order (R92). -/
theorem Message.intAt_payload {c : Config} (h : c.wf) {T : MsgType} {m : Message} {f : Field}
    {v : Word32} (hc : ∀ need ∈ T.contents, f ∈ need) (hi : f.isInteger = true)
    (hw : f.fixedWidth = some 4) (ht : m.type = T) (hv : m.value f = some (.int v)) :
    (messageOf c T (m.payload c)).intAt f = v := by
  subst ht
  obtain ⟨sl, hs, rfl⟩ := c.slot_of_contents h hc
  have hfit : (Value.int v).fits sl = true := by
    simp [Value.fits, Slot.isInteger, hi, c.width_of_fixed h hs hw]
  rw [Message.intAt, Message.value_payload h hs hfit hv]

/-- A byte list of the field's fixed width fits. -/
theorem Config.operandFits_fixed {c : Config} (h : c.wf) {T : MsgType} {f : Field} {w : Nat}
    (hc : ∀ need ∈ T.contents, f ∈ need) (hw : f.fixedWidth = some w) {bs : List Byte}
    (hb : bs.length = w) : c.operandFits T f bs = true := by
  rw [Config.operandFits]
  split
  · next sl hsl =>
    have hsf : sl.field = f := by simpa using List.find?_some hsl
    rw [c.width_of_fixed h (List.mem_of_find?_eq_some hsl) (hsf ▸ hw), hb]
    exact beq_self_eq_true w
  · next hsl =>
    obtain ⟨sl, hs, hsf⟩ := c.slot_of_contents h hc
    exact absurd hsf (by simpa using (List.find?_eq_none.mp hsl) sl hs)

/-- The status operand is found again in the payload (R95). -/
theorem Message.statusByte_payload {c : Config} (h : c.wf) {T : MsgType} {m : Message} {st : Byte}
    (hc : ∀ need ∈ T.contents, Field.status ∈ need)
    (ht : m.type = T) (hv : m.value .status = some (.bytes [st])) :
    (messageOf c T (m.payload c)).statusByte = st := by
  subst ht
  rw [Message.statusByte, Message.bytesAt_payload h rfl rfl hv (c.operandFits_fixed h hc rfl rfl)]
  rfl

/-- The unique identifier is found again in the payload (R93). -/
theorem Message.uniqueId_payload {c : Config} (h : c.wf) {T : MsgType} {m : Message} {u : Uid}
    (hc : ∀ need ∈ T.contents, Field.uid ∈ need)
    (ht : m.type = T) (hv : m.value .uid = some (.bytes u.toList)) :
    (messageOf c T (m.payload c)).uniqueId = u := by
  subst ht
  ext1 i hi
  rw [Message.uniqueId, Vector.getElem_ofFn,
    Message.bytesAt_payload h rfl rfl hv (c.operandFits_fixed h hc rfl u.length_toList)]
  rw [List.getD_eq_getElem _ _ (by simpa using hi)]
  simp

/-- The further fields that fit are found again in the payload. -/
theorem Message.further_payload {c : Config} (h : c.wf) {T : MsgType} {as further : Fields}
    (hn : as.map Assign.field = T.named) (hf : c.furtherFit T further = true) :
    (messageOf c T (Message.payload c ⟨T, as ++ further⟩)).further = further := by
  have hmem : ∀ sl ∈ c.furtherSlots T, sl ∈ c.slots T ∧ sl.field ∉ T.named := by
    intro sl hs; simpa [Config.furtherSlots] using hs
  have hnd : ((c.furtherSlots T).map Slot.field).Nodup :=
    (List.filter_sublist.map _).nodup (c.slotsOk_of_wf h T).2.1
  have hall := (List.forall₂_and_left _ _).mpr ⟨hmem,
    find?_forall₂ (fun _ _ h => h.1) hnd (fieldsFit_forall₂ hf)⟩
  have heq : (c.furtherSlots T).map (fun sl => (⟨sl.field, slotValue c.intOrder sl
      (Message.payload c ⟨T, as ++ further⟩)⟩ : Assign)) = further := by
    have := hall.imp fun sl a ⟨⟨hs, hsn⟩, ⟨hf, hv⟩, hfind⟩ =>
      show (⟨sl.field, slotValue c.intOrder sl
          (Message.payload c ⟨T, as ++ further⟩)⟩ : Assign) = a by
        have hno : as.find? (fun b => decide (b.field = sl.field)) = none := by
          rw [List.find?_eq_none]
          intro b hb
          have : b.field ∈ T.named := hn ▸ List.mem_map_of_mem hb
          have hne : ¬ b.field = sl.field := fun e => hsn (e ▸ this)
          simpa using hne
        have hval : Message.value ⟨T, as ++ further⟩ sl.field = some a.value := by
          rw [Message.value, List.find?_append, hno, hfind]; rfl
        rw [slotValue_of_bytes hv (slotBytes_payload h _ hs hv hval), ← hf]
    exact List.forall₂_eq_eq_eq ▸ List.forall₂_map_left_iff.mpr this
  rw [Message.further, messageOf, List.filter_map]
  exact heq

/-- Messages of one type whose fields have the same bytes in every slot have the same payload. -/
theorem Message.payload_congr {c : Config} {m m' : Message} (ht : m'.type = m.type)
    (hf : ∀ sl ∈ c.slots m.type,
      m'.fieldBytes c.intOrder sl.field = m.fieldBytes c.intOrder sl.field) :
    m'.payload c = m.payload c := by
  ext1 p hp
  rw [m'.getElem_payload c p hp, m.getElem_payload c p hp, ht]
  split
  · rfl
  · cases hs : c.slotAt m.type p with
    | none => rfl
    | some sl => simp only [hf sl (Config.mem_of_slotAt hs).1]

/-- A message that fits has, for each slot of its type, a value that fits it. -/
theorem Message.value_slot {c : Config} (h : c.wf) {m : Message} (hm : m.fits c = true) {sl : Slot}
    (hs : sl ∈ c.slots m.type) : ∃ v, m.value sl.field = some v ∧ v.fits sl = true := by
  have key : ∀ {sls : List Slot} {fs : Fields}, List.Forall₂ (fun sl a =>
      (a.field = sl.field ∧ a.value.fits sl = true) ∧ m.value sl.field = some a.value) sls fs →
      ∀ x ∈ sls, ∃ v, m.value x.field = some v ∧ v.fits x = true := by
    intro sls fs hall
    induction hall with
    | nil => intro x hx; simp at hx
    | cons hd _ ih =>
      intro x hx
      rcases List.mem_cons.mp hx with rfl | hx
      · exact ⟨_, hd.2, hd.1.2⟩
      · exact ih x hx
  exact key (Message.value_of_fits h hm) sl hs

/-- The bytes of a field that holds no integer, in a message that fits. -/
theorem Message.fieldBytes_bytesAt {c : Config} (h : c.wf) {m : Message} (hm : m.fits c = true)
    {sl : Slot} (hs : sl ∈ c.slots m.type) (hi : sl.field.isInteger = false) :
    m.fieldBytes c.intOrder sl.field = m.bytesAt sl.field ∧
      (m.bytesAt sl.field).length = sl.width := by
  obtain ⟨v, hv, hf⟩ := Message.value_slot h hm hs
  cases v with
  | bytes bs =>
    simp only [Value.fits, Bool.and_eq_true, beq_iff_eq] at hf
    simp [Message.fieldBytes, Message.bytesAt, hv, Value.toBytes, hf.2]
  | int v =>
    rw [Value.fits, Slot.isInteger_eq_false hi] at hf
    cases hf

/-- The bytes of the integer field, in a message that fits (R92). -/
theorem Message.fieldBytes_intAt {c : Config} (h : c.wf) {m : Message} (hm : m.fits c = true)
    {sl : Slot} (hs : sl ∈ c.slots m.type) (hi : sl.field.isInteger = true)
    (hw : sl.field.fixedWidth = some 4) :
    m.fieldBytes c.intOrder sl.field = intBytes c.intOrder (m.intAt sl.field) := by
  obtain ⟨v, hv, hf⟩ := Message.value_slot h hm hs
  cases v with
  | bytes bs =>
    simp [Value.fits, Slot.isInteger, hi, c.width_of_fixed h hs hw] at hf
  | int v => simp [Message.fieldBytes, Message.intAt, hv, Value.toBytes]

/-- The status byte of a message that fits is its whole status field (R95). -/
theorem Message.fieldBytes_status {c : Config} (h : c.wf) {m : Message} (hm : m.fits c = true)
    {sl : Slot} (hs : sl ∈ c.slots m.type) (hf : sl.field = .status) :
    m.fieldBytes c.intOrder .status = [m.statusByte] := by
  obtain ⟨h1, h2⟩ := Message.fieldBytes_bytesAt h hm hs (by rw [hf]; rfl)
  rw [c.width_of_fixed h hs (w := 1) (by rw [hf]; rfl)] at h2
  rw [hf] at h1 h2
  rw [h1, Message.statusByte]
  obtain ⟨b, hb⟩ := List.length_eq_one_iff.mp h2
  rw [hb]; rfl

/-- The unique identifier of a message that fits is its whole field (R93). -/
theorem Message.fieldBytes_uid {c : Config} (h : c.wf) {m : Message} (hm : m.fits c = true)
    {sl : Slot} (hs : sl ∈ c.slots m.type) (hf : sl.field = .uid) :
    m.fieldBytes c.intOrder .uid = m.uniqueId.toList := by
  obtain ⟨h1, h2⟩ := Message.fieldBytes_bytesAt h hm hs (by rw [hf]; rfl)
  rw [c.width_of_fixed h hs (w := 12) (by rw [hf]; rfl)] at h2
  rw [hf] at h1 h2
  rw [h1]
  apply List.ext_getElem
  · simpa using h2
  · intro k hk _
    simp [Message.uniqueId, hk]

/-- A message whose named fields have the bytes of another's, and that has its further fields, has its
payload. -/
theorem Message.payload_operands {c : Config} {m : Message} {as : Fields}
    (hn : as.map Assign.field = m.type.named)
    (hv : ∀ a ∈ as, ∀ sl ∈ c.slots m.type, sl.field = a.field →
      m.fieldBytes c.intOrder a.field = a.value.toBytes c.intOrder) :
    Message.payload c ⟨m.type, as ++ m.further⟩ = m.payload c := by
  refine Message.payload_congr rfl fun sl hs => ?_
  by_cases hf : sl.field ∈ m.type.named
  · obtain ⟨a, ha, hfind⟩ : ∃ a ∈ as, as.find? (fun b => decide (b.field = sl.field)) = some a := by
      have hsome : (as.find? fun b => decide (b.field = sl.field)).isSome := by
        rw [← hn] at hf
        obtain ⟨a, ha, hf⟩ := List.mem_map.mp hf
        exact List.find?_isSome.mpr ⟨a, ha, by simpa using hf⟩
      obtain ⟨a, ha⟩ := Option.isSome_iff_exists.mp hsome
      exact ⟨a, List.mem_of_find?_eq_some ha, ha⟩
    have haf : a.field = sl.field := by simpa using List.find?_some hfind
    rw [← haf, hv a ha sl hs haf.symm, haf, Message.fieldBytes, Message.value, List.find?_append, hfind]
    rfl
  · have hno : as.find? (fun b => decide (b.field = sl.field)) = none := by
      rw [List.find?_eq_none]
      intro b hb
      have hne : ¬ b.field = sl.field := fun e => hf (e ▸ hn ▸ List.mem_map_of_mem hb)
      simpa using hne
    have hfur : m.further.find? (fun b => decide (b.field = sl.field)) =
        m.fields.find? (fun b => decide (b.field = sl.field)) := by
      rw [Message.further, List.find?_filter]
      congr 1
      funext b
      by_cases hb : b.field = sl.field
      · simp [hb, hf]
      · simp [hb]
    rw [Message.fieldBytes, Message.fieldBytes, Message.value, Message.value, List.find?_append, hno,
      hfur]
    rfl

/-! ## Headers and pull words -/

theorem opHeader_reserved (c : Config) (o : OpName) (b : Bool) :
    (opHeader c o b).extractLsb' 5 3 = 0#3 := by
  unfold opHeader
  generalize c.selOf o = x
  revert x b; decide

theorem opHeader_selector (c : Config) (o : OpName) (b : Bool) :
    (opHeader c o b).extractLsb' 0 4 = c.selOf o := by
  unfold opHeader
  generalize c.selOf o = x
  revert x b; decide

theorem opHeader_bit (c : Config) (o : OpName) (b : Bool) : (opHeader c o b).getLsbD 4 = b := by
  unfold opHeader
  generalize c.selOf o = x
  revert x b; decide

@[simp] theorem regOfBit_bitOfReg (d : DReg) : regOfBit (bitOfReg d) = d := by cases d <;> rfl
@[simp] theorem bitOfReg_regOfBit (b : Bool) : bitOfReg (regOfBit b) = b := by cases b <;> rfl

/-- A request of an operation decodes by its operands alone. -/
theorem decodeOp_header {c : Config} (h : c.wf) (o : OpName) (b : Bool) (rest : List Byte) :
    decodeOp c (opHeader c o b :: rest) = decodeOperands c o b rest := by
  rw [decodeOp, if_pos (opHeader_reserved c o b), opHeader_selector, c.opOf_selOf h, opHeader_bit]

theorem append_tag (t : BitVec 2) (b : Byte) :
    (t ++ b).extractLsb' 8 2 = t ∧ (t ++ b).extractLsb' 0 8 = b := by
  constructor <;>
  · apply BitVec.eq_of_getLsbD_eq
    intro i hi
    rw [BitVec.getLsbD_extractLsb', BitVec.getLsbD_append]
    interval_cases i <;> simp

/-- A pull word decodes to the pull result it encodes (R109). -/
theorem decodePull_encodePull {c : Config} (h : c.wf) (r : PullResult) :
    decodePull c (encodePull c r) = .ok r := by
  cases r <;>
    simp only [decodePull, encodePull, append_tag, Config.pullOf_tagOf h]

theorem payloadOf_frameBytes (src dst proto k : Byte) (p : Payload) :
    payloadOf (frameBytes src dst proto k p) = p := by
  ext1 i hi
  simp only [payloadOf, Vector.getElem_ofFn, frameBytes]
  rw [Vector.getElem_append_left (by omega), Vector.getElem_append_right (by omega) (by omega)]
  rfl

end Sys2Proof
end

