-- ==== Sys2Proof/Laws/State.lean ====
section
/-! SUPPORT. One lemma per field per update of the state, so that no proof unfolds a record update. -/

namespace Sys2Proof.Machine

/-! ### `State.quiet` -/

@[simp] theorem State.quiet_rx (s : State) : s.quiet.rx = s.rx := rfl
@[simp] theorem State.quiet_tx (s : State) : s.quiet.tx = s.tx := rfl
@[simp] theorem State.quiet_cnt (s : State) : s.quiet.cnt = s.cnt := rfl
@[simp] theorem State.quiet_rstate (s : State) : s.quiet.rstate = s.rstate := rfl
@[simp] theorem State.quiet_result (s : State) : s.quiet.result = s.result := rfl
@[simp] theorem State.quiet_ctx (s : State) : s.quiet.ctx = s.ctx := rfl
@[simp] theorem State.quiet_cfg (s : State) : s.quiet.cfg = s.cfg := rfl
@[simp] theorem State.quiet_requests (s : State) : s.quiet.requests = s.requests := rfl
@[simp] theorem State.quiet_stream (s : State) : s.quiet.stream = s.stream := rfl
@[simp] theorem State.quiet_resetPin (s : State) : s.quiet.resetPin = s.resetPin := rfl
@[simp] theorem State.quiet_resultPort (s : State) : s.quiet.resultPort = none := rfl
@[simp] theorem State.quiet_pullCtx (s : State) : s.quiet.pullCtx = none := rfl
@[simp] theorem State.quiet_sink (s : State) : s.quiet.sink = s.sink := rfl

/-! ### `State.returning` -/

@[simp] theorem State.returning_rx (v : Returned) (s : State) : (s.returning v).rx = s.rx := rfl
@[simp] theorem State.returning_tx (v : Returned) (s : State) : (s.returning v).tx = s.tx := rfl
@[simp] theorem State.returning_cnt (v : Returned) (s : State) : (s.returning v).cnt = s.cnt := rfl
@[simp] theorem State.returning_rstate (v : Returned) (s : State) : (s.returning v).rstate = s.rstate := rfl
@[simp] theorem State.returning_result (v : Returned) (s : State) : (s.returning v).result = s.result := rfl
@[simp] theorem State.returning_ctx (v : Returned) (s : State) : (s.returning v).ctx = s.ctx := rfl
@[simp] theorem State.returning_cfg (v : Returned) (s : State) : (s.returning v).cfg = s.cfg := rfl
@[simp] theorem State.returning_requests (v : Returned) (s : State) : (s.returning v).requests = s.requests := rfl
@[simp] theorem State.returning_stream (v : Returned) (s : State) : (s.returning v).stream = s.stream := rfl
@[simp] theorem State.returning_resetPin (v : Returned) (s : State) : (s.returning v).resetPin = s.resetPin := rfl
@[simp] theorem State.returning_resultPort (v : Returned) (s : State) : (s.returning v).resultPort = some v := rfl
@[simp] theorem State.returning_pullCtx (v : Returned) (s : State) : (s.returning v).pullCtx = none := rfl
@[simp] theorem State.returning_sink (v : Returned) (s : State) : (s.returning v).sink = s.sink := rfl

/-! ### `State.pulled` -/

@[simp] theorem State.pulled_rx (s : State) : s.pulled.rx = s.rx := rfl
@[simp] theorem State.pulled_tx (s : State) : s.pulled.tx = s.tx := rfl
@[simp] theorem State.pulled_cnt (s : State) : s.pulled.cnt = s.cnt := rfl
@[simp] theorem State.pulled_rstate (s : State) : s.pulled.rstate = s.rstate := rfl
@[simp] theorem State.pulled_result (s : State) : s.pulled.result = s.result := rfl
@[simp] theorem State.pulled_ctx (s : State) : s.pulled.ctx = s.ctx := rfl
@[simp] theorem State.pulled_cfg (s : State) : s.pulled.cfg = s.cfg := rfl
@[simp] theorem State.pulled_requests (s : State) : s.pulled.requests = s.requests := rfl
@[simp] theorem State.pulled_stream (s : State) : s.pulled.stream = s.stream := rfl
@[simp] theorem State.pulled_resetPin (s : State) : s.pulled.resetPin = s.resetPin := rfl
@[simp] theorem State.pulled_resultPort (s : State) : s.pulled.resultPort = none := rfl
@[simp] theorem State.pulled_pullCtx (s : State) : s.pulled.pullCtx = some s.ctx := rfl
@[simp] theorem State.pulled_sink (s : State) : s.pulled.sink = s.sink := rfl

/-! ### `State.emit` -/

@[simp] theorem State.emit_rx (bs : List Byte) (s : State) : (s.emit bs).rx = s.rx := rfl
@[simp] theorem State.emit_tx (bs : List Byte) (s : State) : (s.emit bs).tx = s.tx := rfl
@[simp] theorem State.emit_cnt (bs : List Byte) (s : State) : (s.emit bs).cnt = s.cnt := rfl
@[simp] theorem State.emit_rstate (bs : List Byte) (s : State) : (s.emit bs).rstate = s.rstate := rfl
@[simp] theorem State.emit_result (bs : List Byte) (s : State) : (s.emit bs).result = s.result := rfl
@[simp] theorem State.emit_ctx (bs : List Byte) (s : State) : (s.emit bs).ctx = s.ctx := rfl
@[simp] theorem State.emit_cfg (bs : List Byte) (s : State) : (s.emit bs).cfg = s.cfg := rfl
@[simp] theorem State.emit_requests (bs : List Byte) (s : State) : (s.emit bs).requests = s.requests := rfl
@[simp] theorem State.emit_stream (bs : List Byte) (s : State) : (s.emit bs).stream = s.stream := rfl
@[simp] theorem State.emit_resetPin (bs : List Byte) (s : State) : (s.emit bs).resetPin = s.resetPin := rfl
@[simp] theorem State.emit_resultPort (bs : List Byte) (s : State) : (s.emit bs).resultPort = s.resultPort := rfl
@[simp] theorem State.emit_pullCtx (bs : List Byte) (s : State) : (s.emit bs).pullCtx = s.pullCtx := rfl
@[simp] theorem State.emit_sink (bs : List Byte) (s : State) : (s.emit bs).sink = s.sink ++ bs := rfl

/-! ### `State.raise` -/

@[simp] theorem State.raise_rx (k : Failure) (s : State) : (s.raise k).rx = s.rx := rfl
@[simp] theorem State.raise_tx (k : Failure) (s : State) : (s.raise k).tx = s.tx := rfl
@[simp] theorem State.raise_cnt (k : Failure) (s : State) : (s.raise k).cnt = s.cnt := rfl
@[simp] theorem State.raise_rstate (k : Failure) (s : State) : (s.raise k).rstate = .failed k := rfl
@[simp] theorem State.raise_result (k : Failure) (s : State) : (s.raise k).result = some (.failed k) := rfl
@[simp] theorem State.raise_ctx (k : Failure) (s : State) : (s.raise k).ctx = s.ctx := rfl
@[simp] theorem State.raise_cfg (k : Failure) (s : State) : (s.raise k).cfg = s.cfg := rfl
@[simp] theorem State.raise_requests (k : Failure) (s : State) : (s.raise k).requests = s.requests := rfl
@[simp] theorem State.raise_stream (k : Failure) (s : State) : (s.raise k).stream = s.stream := rfl
@[simp] theorem State.raise_resetPin (k : Failure) (s : State) : (s.raise k).resetPin = s.resetPin := rfl
@[simp] theorem State.raise_resultPort (k : Failure) (s : State) : (s.raise k).resultPort = some (.readResult (.failed k) (s.cfg.codeOf (.failed k)) none) := rfl
@[simp] theorem State.raise_pullCtx (k : Failure) (s : State) : (s.raise k).pullCtx = s.pullCtx := rfl
@[simp] theorem State.raise_sink (k : Failure) (s : State) : (s.raise k).sink = s.sink := rfl

/-! ### `State.startRead` -/

@[simp] theorem State.startRead_rx (x : Ctx) (s : State) : (s.startRead x).rx = ⟨s.rx.cells, false⟩ := rfl
@[simp] theorem State.startRead_tx (x : Ctx) (s : State) : (s.startRead x).tx = s.tx := rfl
@[simp] theorem State.startRead_cnt (x : Ctx) (s : State) : (s.startRead x).cnt = 0#6 := rfl
@[simp] theorem State.startRead_rstate (x : Ctx) (s : State) : (s.startRead x).rstate = .awaitStart := rfl
@[simp] theorem State.startRead_result (x : Ctx) (s : State) : (s.startRead x).result = none := rfl
@[simp] theorem State.startRead_ctx (x : Ctx) (s : State) : (s.startRead x).ctx = x := rfl
@[simp] theorem State.startRead_cfg (x : Ctx) (s : State) : (s.startRead x).cfg = s.cfg := rfl
@[simp] theorem State.startRead_requests (x : Ctx) (s : State) : (s.startRead x).requests = s.requests := rfl
@[simp] theorem State.startRead_stream (x : Ctx) (s : State) : (s.startRead x).stream = s.stream := rfl
@[simp] theorem State.startRead_resetPin (x : Ctx) (s : State) : (s.startRead x).resetPin = s.resetPin := rfl
@[simp] theorem State.startRead_resultPort (x : Ctx) (s : State) : (s.startRead x).resultPort = none := rfl
@[simp] theorem State.startRead_pullCtx (x : Ctx) (s : State) : (s.startRead x).pullCtx = none := rfl
@[simp] theorem State.startRead_sink (x : Ctx) (s : State) : (s.startRead x).sink = s.sink := rfl

/-! ### `State.storeByte` -/

@[simp] theorem State.storeByte_rx (b : Byte) (s : State) : (s.storeByte b).rx = ⟨s.rx.cells.setIfInBounds s.cnt.toNat b, s.rx.valid⟩ := rfl
@[simp] theorem State.storeByte_tx (b : Byte) (s : State) : (s.storeByte b).tx = s.tx := rfl
@[simp] theorem State.storeByte_cnt (b : Byte) (s : State) : (s.storeByte b).cnt = s.cnt + 1#6 := rfl
@[simp] theorem State.storeByte_rstate (b : Byte) (s : State) : (s.storeByte b).rstate = afterStored (s.cnt.toNat + 1) := rfl
@[simp] theorem State.storeByte_result (b : Byte) (s : State) : (s.storeByte b).result = s.result := rfl
@[simp] theorem State.storeByte_ctx (b : Byte) (s : State) : (s.storeByte b).ctx = s.ctx := rfl
@[simp] theorem State.storeByte_cfg (b : Byte) (s : State) : (s.storeByte b).cfg = s.cfg := rfl
@[simp] theorem State.storeByte_requests (b : Byte) (s : State) : (s.storeByte b).requests = s.requests := rfl
@[simp] theorem State.storeByte_stream (b : Byte) (s : State) : (s.storeByte b).stream = s.stream := rfl
@[simp] theorem State.storeByte_resetPin (b : Byte) (s : State) : (s.storeByte b).resetPin = s.resetPin := rfl
@[simp] theorem State.storeByte_resultPort (b : Byte) (s : State) : (s.storeByte b).resultPort = s.resultPort := rfl
@[simp] theorem State.storeByte_pullCtx (b : Byte) (s : State) : (s.storeByte b).pullCtx = s.pullCtx := rfl
@[simp] theorem State.storeByte_sink (b : Byte) (s : State) : (s.storeByte b).sink = s.sink := rfl

/-! ### `State.unread` -/

@[simp] theorem State.unread_rx (ws : List StreamWord) (s : State) : (s.unread ws).rx = s.rx := rfl
@[simp] theorem State.unread_tx (ws : List StreamWord) (s : State) : (s.unread ws).tx = s.tx := rfl
@[simp] theorem State.unread_cnt (ws : List StreamWord) (s : State) : (s.unread ws).cnt = s.cnt := rfl
@[simp] theorem State.unread_rstate (ws : List StreamWord) (s : State) : (s.unread ws).rstate = s.rstate := rfl
@[simp] theorem State.unread_result (ws : List StreamWord) (s : State) : (s.unread ws).result = s.result := rfl
@[simp] theorem State.unread_ctx (ws : List StreamWord) (s : State) : (s.unread ws).ctx = s.ctx := rfl
@[simp] theorem State.unread_cfg (ws : List StreamWord) (s : State) : (s.unread ws).cfg = s.cfg := rfl
@[simp] theorem State.unread_requests (ws : List StreamWord) (s : State) : (s.unread ws).requests = s.requests := rfl
@[simp] theorem State.unread_stream (ws : List StreamWord) (s : State) : (s.unread ws).stream = ws ++ s.stream := rfl
@[simp] theorem State.unread_resetPin (ws : List StreamWord) (s : State) : (s.unread ws).resetPin = s.resetPin := rfl
@[simp] theorem State.unread_resultPort (ws : List StreamWord) (s : State) : (s.unread ws).resultPort = none := rfl
@[simp] theorem State.unread_pullCtx (ws : List StreamWord) (s : State) : (s.unread ws).pullCtx = none := rfl
@[simp] theorem State.unread_sink (ws : List StreamWord) (s : State) : (s.unread ws).sink = s.sink := rfl

/-! ### `State.applyReset` -/

@[simp] theorem State.applyReset_rx (s : State) : s.applyReset.rx = DatagramReg.reset := rfl
@[simp] theorem State.applyReset_tx (s : State) : s.applyReset.tx = DatagramReg.reset := rfl
@[simp] theorem State.applyReset_cnt (s : State) : s.applyReset.cnt = 0#6 := rfl
@[simp] theorem State.applyReset_rstate (s : State) : s.applyReset.rstate = .idle := rfl
@[simp] theorem State.applyReset_result (s : State) : s.applyReset.result = none := rfl
@[simp] theorem State.applyReset_ctx (s : State) : s.applyReset.ctx = 0 := rfl
@[simp] theorem State.applyReset_cfg (s : State) : s.applyReset.cfg = s.cfg := rfl
@[simp] theorem State.applyReset_requests (s : State) : s.applyReset.requests = s.requests := rfl
@[simp] theorem State.applyReset_stream (s : State) : s.applyReset.stream = s.stream := rfl
@[simp] theorem State.applyReset_resetPin (s : State) : s.applyReset.resetPin = false := rfl
@[simp] theorem State.applyReset_resultPort (s : State) : s.applyReset.resultPort = none := rfl
@[simp] theorem State.applyReset_pullCtx (s : State) : s.applyReset.pullCtx = none := rfl
@[simp] theorem State.applyReset_sink (s : State) : s.applyReset.sink = s.sink := rfl

/-! ### `State.setReg`, `State.writeDatagram`, `State.writeCell` -/

@[simp] theorem State.setReg_cnt (s : State) (d : DReg) (r : DatagramReg) :
    (s.setReg d r).cnt = s.cnt := by cases d <;> rfl
@[simp] theorem State.setReg_rstate (s : State) (d : DReg) (r : DatagramReg) :
    (s.setReg d r).rstate = s.rstate := by cases d <;> rfl
@[simp] theorem State.setReg_result (s : State) (d : DReg) (r : DatagramReg) :
    (s.setReg d r).result = s.result := by cases d <;> rfl
@[simp] theorem State.setReg_ctx (s : State) (d : DReg) (r : DatagramReg) :
    (s.setReg d r).ctx = s.ctx := by cases d <;> rfl
@[simp] theorem State.setReg_cfg (s : State) (d : DReg) (r : DatagramReg) :
    (s.setReg d r).cfg = s.cfg := by cases d <;> rfl
@[simp] theorem State.setReg_requests (s : State) (d : DReg) (r : DatagramReg) :
    (s.setReg d r).requests = s.requests := by cases d <;> rfl
@[simp] theorem State.setReg_stream (s : State) (d : DReg) (r : DatagramReg) :
    (s.setReg d r).stream = s.stream := by cases d <;> rfl
@[simp] theorem State.setReg_resetPin (s : State) (d : DReg) (r : DatagramReg) :
    (s.setReg d r).resetPin = s.resetPin := by cases d <;> rfl
@[simp] theorem State.setReg_resultPort (s : State) (d : DReg) (r : DatagramReg) :
    (s.setReg d r).resultPort = s.resultPort := by cases d <;> rfl
@[simp] theorem State.setReg_pullCtx (s : State) (d : DReg) (r : DatagramReg) :
    (s.setReg d r).pullCtx = s.pullCtx := by cases d <;> rfl
@[simp] theorem State.setReg_sink (s : State) (d : DReg) (r : DatagramReg) :
    (s.setReg d r).sink = s.sink := by cases d <;> rfl
@[simp] theorem State.reg_setReg_self (s : State) (d : DReg) (r : DatagramReg) :
    (s.setReg d r).reg d = r := by cases d <;> rfl
@[simp] theorem State.reg_setReg_other (s : State) (d : DReg) (r : DatagramReg) :
    (s.setReg d r).reg d.other = s.reg d.other := by cases d <;> rfl
@[simp] theorem State.setReg_rx_rx (s : State) (r : DatagramReg) : (s.setReg .rx r).rx = r := rfl
@[simp] theorem State.setReg_rx_tx (s : State) (r : DatagramReg) : (s.setReg .rx r).tx = s.tx := rfl
@[simp] theorem State.setReg_tx_rx (s : State) (r : DatagramReg) : (s.setReg .tx r).rx = s.rx := rfl
@[simp] theorem State.setReg_tx_tx (s : State) (r : DatagramReg) : (s.setReg .tx r).tx = r := rfl
@[simp] theorem State.reg_rx (s : State) : s.reg .rx = s.rx := rfl
@[simp] theorem State.reg_tx (s : State) : s.reg .tx = s.tx := rfl
@[simp] theorem State.reg_quiet (s : State) (d : DReg) : s.quiet.reg d = s.reg d := by
  cases d <;> rfl
@[simp] theorem State.reg_returning (v : Returned) (s : State) (d : DReg) :
    (s.returning v).reg d = s.reg d := by cases d <;> rfl
@[simp] theorem State.reg_emit (bs : List Byte) (s : State) (d : DReg) :
    (s.emit bs).reg d = s.reg d := by cases d <;> rfl
@[simp] theorem State.reg_pulled (s : State) (d : DReg) : s.pulled.reg d = s.reg d := by
  cases d <;> rfl
@[simp] theorem DReg.other_rx : DReg.other .rx = .tx := rfl
@[simp] theorem DReg.other_tx : DReg.other .tx = .rx := rfl

@[simp] theorem State.writeDatagram_cnt (d : DReg) (g : Datagram) (s : State) :
    (s.writeDatagram d g).cnt = s.cnt := by cases d <;> rfl
@[simp] theorem State.writeDatagram_rstate (d : DReg) (g : Datagram) (s : State) :
    (s.writeDatagram d g).rstate = s.rstate := by cases d <;> rfl
@[simp] theorem State.writeDatagram_result (d : DReg) (g : Datagram) (s : State) :
    (s.writeDatagram d g).result = s.result := by cases d <;> rfl
@[simp] theorem State.writeDatagram_ctx (d : DReg) (g : Datagram) (s : State) :
    (s.writeDatagram d g).ctx = s.ctx := by cases d <;> rfl
@[simp] theorem State.writeDatagram_cfg (d : DReg) (g : Datagram) (s : State) :
    (s.writeDatagram d g).cfg = s.cfg := by cases d <;> rfl
@[simp] theorem State.writeDatagram_requests (d : DReg) (g : Datagram) (s : State) :
    (s.writeDatagram d g).requests = s.requests := by cases d <;> rfl
@[simp] theorem State.writeDatagram_stream (d : DReg) (g : Datagram) (s : State) :
    (s.writeDatagram d g).stream = s.stream := by cases d <;> rfl
@[simp] theorem State.writeDatagram_resetPin (d : DReg) (g : Datagram) (s : State) :
    (s.writeDatagram d g).resetPin = s.resetPin := by cases d <;> rfl
@[simp] theorem State.writeDatagram_resultPort (d : DReg) (g : Datagram) (s : State) :
    (s.writeDatagram d g).resultPort = none := by cases d <;> rfl
@[simp] theorem State.writeDatagram_pullCtx (d : DReg) (g : Datagram) (s : State) :
    (s.writeDatagram d g).pullCtx = none := by cases d <;> rfl
@[simp] theorem State.writeDatagram_sink (d : DReg) (g : Datagram) (s : State) :
    (s.writeDatagram d g).sink = s.sink := by cases d <;> rfl
@[simp] theorem State.writeCell_cnt (d : DReg) (o : Nat) (v : Byte) (s : State) :
    (s.writeCell d o v).cnt = s.cnt := by cases d <;> rfl
@[simp] theorem State.writeCell_rstate (d : DReg) (o : Nat) (v : Byte) (s : State) :
    (s.writeCell d o v).rstate = s.rstate := by cases d <;> rfl
@[simp] theorem State.writeCell_result (d : DReg) (o : Nat) (v : Byte) (s : State) :
    (s.writeCell d o v).result = s.result := by cases d <;> rfl
@[simp] theorem State.writeCell_ctx (d : DReg) (o : Nat) (v : Byte) (s : State) :
    (s.writeCell d o v).ctx = s.ctx := by cases d <;> rfl
@[simp] theorem State.writeCell_cfg (d : DReg) (o : Nat) (v : Byte) (s : State) :
    (s.writeCell d o v).cfg = s.cfg := by cases d <;> rfl
@[simp] theorem State.writeCell_requests (d : DReg) (o : Nat) (v : Byte) (s : State) :
    (s.writeCell d o v).requests = s.requests := by cases d <;> rfl
@[simp] theorem State.writeCell_stream (d : DReg) (o : Nat) (v : Byte) (s : State) :
    (s.writeCell d o v).stream = s.stream := by cases d <;> rfl
@[simp] theorem State.writeCell_resetPin (d : DReg) (o : Nat) (v : Byte) (s : State) :
    (s.writeCell d o v).resetPin = s.resetPin := by cases d <;> rfl
@[simp] theorem State.writeCell_resultPort (d : DReg) (o : Nat) (v : Byte) (s : State) :
    (s.writeCell d o v).resultPort = none := by cases d <;> rfl
@[simp] theorem State.writeCell_pullCtx (d : DReg) (o : Nat) (v : Byte) (s : State) :
    (s.writeCell d o v).pullCtx = none := by cases d <;> rfl
@[simp] theorem State.writeCell_sink (d : DReg) (o : Nat) (v : Byte) (s : State) :
    (s.writeCell d o v).sink = s.sink := by cases d <;> rfl
@[simp] theorem State.reg_writeDatagram_self (d : DReg) (g : Datagram) (s : State) :
    (s.writeDatagram d g).reg d = ⟨g, true⟩ := by cases d <;> rfl
@[simp] theorem State.reg_writeDatagram_other (d : DReg) (g : Datagram) (s : State) :
    (s.writeDatagram d g).reg d.other = s.reg d.other := by cases d <;> rfl
@[simp] theorem State.reg_writeCell_self (d : DReg) (o : Nat) (v : Byte) (s : State) :
    (s.writeCell d o v).reg d = ⟨(s.reg d).cells.setIfInBounds o v, (s.reg d).valid⟩ := by
  cases d <;> rfl
@[simp] theorem State.reg_writeCell_other (d : DReg) (o : Nat) (v : Byte) (s : State) :
    (s.writeCell d o v).reg d.other = s.reg d.other := by cases d <;> rfl

end Sys2Proof.Machine
end

