-- ==== Sys2Proof/Laws/Ops.lean ====
section
/-! SUPPORT. One lemma per shared operation that says what it can do: when a request is taken, what a
pull, a validating step and the stored bytes of an attempt do and what they leave unchanged. -/

namespace Sys2Proof.Machine

/-! ## Acceptance -/

theorem accepting_next {s t : State} {k : Outcome} :
    accepting s k = .next t ↔ s.rstate.busy = false ∧ k = .next t := by
  unfold accepting
  cases s.rstate.busy <;> simp

theorem accepting_of_terminal {s : State} (h : s.rstate.busy = false) (k : Outcome) :
    accepting s k = k := by simp [accepting, h]

theorem accepting_of_busy {s : State} (h : s.rstate.busy = true) (k : Outcome) :
    accepting s k = .refused .readerBusy := by simp [accepting, h]

theorem reading_next {d : DReg} {s t : State} {k : Datagram → Outcome} :
    reading d s k = .next t ↔
      s.rstate.busy = false ∧ (s.reg d).valid = true ∧ k (s.reg d).cells = .next t := by
  unfold reading
  rw [accepting_next]
  cases (s.reg d).valid <;> simp

theorem reading_of_valid {d : DReg} {s : State} (h : s.rstate.busy = false)
    (hv : (s.reg d).valid = true) (k : Datagram → Outcome) :
    reading d s k = k (s.reg d).cells := by
  simp [reading, accepting_of_terminal h, hv]

theorem reading_of_busy {d : DReg} {s : State} (h : s.rstate.busy = true)
    (k : Datagram → Outcome) : reading d s k = .refused .readerBusy := accepting_of_busy h _

/-! ## Pulls -/

/-- What the step of a `BYTE(b)` answer can be: the failing first byte, or a stored byte. -/
theorem takeByte_cases (b : Byte) (s : State) :
    (s.rstate = .awaitStart ∧ b ≠ START ∧ s.takeByte b = s.pulled.raise .noStartByte) ∨
    (¬(s.rstate = .awaitStart ∧ b ≠ START) ∧ s.takeByte b = s.pulled.storeByte b) := by
  unfold State.takeByte
  split
  · exact .inl ⟨‹_ ∧ _›.1, ‹_ ∧ _›.2, rfl⟩
  · exact .inr ⟨‹_›, rfl⟩

/-- What the step of one pull leaves unchanged. -/
structure PullFrame (s t : State) : Prop where
  tx : t.tx = s.tx
  ctx : t.ctx = s.ctx
  cfg : t.cfg = s.cfg
  requests : t.requests = s.requests
  stream : t.stream = s.stream
  resetPin : t.resetPin = s.resetPin
  sink : t.sink = s.sink

theorem PullFrame.trans {s t u : State} (h : PullFrame s t) (g : PullFrame t u) : PullFrame s u :=
  ⟨g.tx.trans h.tx, g.ctx.trans h.ctx, g.cfg.trans h.cfg, g.requests.trans h.requests,
    g.stream.trans h.stream, g.resetPin.trans h.resetPin, g.sink.trans h.sink⟩

theorem takeByte_frame (b : Byte) (s : State) : PullFrame s (s.takeByte b) := by
  rcases takeByte_cases b s with ⟨_, _, h⟩ | ⟨_, h⟩ <;> rw [h] <;> exact ⟨rfl, rfl, rfl, rfl, rfl, rfl, rfl⟩

theorem takeByte_valid (b : Byte) (s : State) : (s.takeByte b).rx.valid = s.rx.valid := by
  rcases takeByte_cases b s with ⟨_, _, h⟩ | ⟨_, h⟩ <;> rw [h] <;> rfl

theorem takePull_frame (r : PullResult) (s : State) : PullFrame s (s.takePull r) := by
  cases r with
  | byte b => exact takeByte_frame b s
  | retry => exact ⟨rfl, rfl, rfl, rfl, rfl, rfl, rfl⟩
  | abort => exact ⟨rfl, rfl, rfl, rfl, rfl, rfl, rfl⟩
  | other => exact ⟨rfl, rfl, rfl, rfl, rfl, rfl, rfl⟩

theorem offer_pulling {r : PullResult} {s : State} (h : s.rstate.pulling = true) :
    offer r s = .next (s.takePull r) := by simp [offer, h]

theorem offer_idle {r : PullResult} {s : State} (h : s.rstate.pulling = false) :
    offer r s = .next (s.unread [pullWord s.cfg r]) := by simp [offer, h]

/-- A pull answer offered to the block is taken or left unread. -/
theorem offer_next {r : PullResult} {s t : State} (h : offer r s = .next t) :
    (s.rstate.pulling = true ∧ t = s.takePull r) ∨
    (s.rstate.pulling = false ∧ t = s.unread [pullWord s.cfg r]) := by
  cases hp : s.rstate.pulling
  · rw [offer_idle hp] at h; cases h; exact .inr ⟨rfl, rfl⟩
  · rw [offer_pulling hp] at h; cases h; exact .inl ⟨rfl, rfl⟩

/-! ## The validating step -/

/-- What the validating step can be: the readable datagram, or the failure of the verdict. -/
theorem validate_cases (s : State) :
    (verdictOf s.rx.cells = .ok ∧ s.validate =
      { s with
        rx := ⟨s.rx.cells, true⟩, result := some .ok, rstate := .ok
        resultPort := some (.readResult .ok (s.cfg.codeOf .ok) (some s.rx.cells))
        pullCtx := none }) ∨
    ∃ k, verdictOf s.rx.cells = .failed k ∧ s.validate = s.quiet.raise k := by
  unfold State.validate
  split
  · exact .inl ⟨‹_›, rfl⟩
  · exact .inr ⟨_, ‹_›, rfl⟩

theorem validate_frame (s : State) : PullFrame s s.validate := by
  rcases validate_cases s with ⟨_, h⟩ | ⟨k, _, h⟩ <;> rw [h] <;> exact ⟨rfl, rfl, rfl, rfl, rfl, rfl, rfl⟩

theorem validate_cells (s : State) : s.validate.rx.cells = s.rx.cells := by
  rcases validate_cases s with ⟨_, h⟩ | ⟨k, _, h⟩ <;> simp [h]

theorem validate_cnt (s : State) : s.validate.cnt = s.cnt := by
  rcases validate_cases s with ⟨_, h⟩ | ⟨k, _, h⟩ <;> simp [h]

theorem validate_result (s : State) : s.validate.result = some (verdictOf s.rx.cells) := by
  rcases validate_cases s with ⟨hv, h⟩ | ⟨k, hv, h⟩ <;> simp [h, hv]

theorem validate_terminal (s : State) : s.validate.rstate.busy = false := by
  rcases validate_cases s with ⟨_, h⟩ | ⟨k, _, h⟩ <;> (rw [h]; rfl)

/-- The verdict is one of three, and `ok` means both tests passed (R150). -/
theorem verdictOf_cases (d : Datagram) :
    (verdictOf d = .ok ∧ d[31] = STOP ∧ checkChecksum d = true) ∨
    (verdictOf d = .failed .badCrc8 ∧ d[31] = STOP ∧ checkChecksum d = false) ∨
    (verdictOf d = .failed .noEndByte ∧ d[31] ≠ STOP) := by
  unfold verdictOf
  by_cases h : d[31] = STOP
  · cases hc : checkChecksum d <;> simp [h]
  · simp [h]

/-! ## Bytes stored one after another, and a whole frame -/

/-- Body bytes stored one after another. -/
def State.storeBytes (bs : List Byte) (s : State) : State :=
  bs.foldl (fun t b => t.pulled.storeByte b) s

@[simp] theorem storeBytes_nil (s : State) : s.storeBytes [] = s := rfl
@[simp] theorem storeBytes_cons (b : Byte) (bs : List Byte) (s : State) :
    s.storeBytes (b :: bs) = (s.pulled.storeByte b).storeBytes bs := rfl

theorem storeBytes_frame (bs : List Byte) : ∀ s : State, PullFrame s (s.storeBytes bs) := by
  induction bs with
  | nil => exact fun s => ⟨rfl, rfl, rfl, rfl, rfl, rfl, rfl⟩
  | cons b bs ih =>
    exact fun s => PullFrame.trans (t := s.pulled.storeByte b) ⟨rfl, rfl, rfl, rfl, rfl, rfl, rfl⟩
      (ih _)

/-- Storing bytes does not look at the stream. -/
theorem storeBytes_with_stream (bs : List Byte) (ws : List StreamWord) :
    ∀ s : State, ({ s with stream := ws } : State).storeBytes bs =
      { s.storeBytes bs with stream := ws } := by
  induction bs with
  | nil => exact fun s => rfl
  | cons b bs ih => exact fun s => ih (s.pulled.storeByte b)

theorem storeBytes_valid (bs : List Byte) :
    ∀ s : State, (s.storeBytes bs).rx.valid = s.rx.valid := by
  induction bs with
  | nil => exact fun s => rfl
  | cons b bs ih => exact fun s => ih _

theorem storeBytes_result (bs : List Byte) :
    ∀ s : State, (s.storeBytes bs).result = s.result := by
  induction bs with
  | nil => exact fun s => rfl
  | cons b bs ih => exact fun s => ih _

/-- One stored byte advances `CNT` by one while there is room. -/
theorem storeByte_cnt (b : Byte) {s : State} (h : s.cnt.toNat < 32) :
    (s.pulled.storeByte b).cnt.toNat = s.cnt.toNat + 1 := by
  simp [BitVec.toNat_add]; omega

theorem storeBytes_cnt (bs : List Byte) :
    ∀ s : State, s.cnt.toNat + bs.length ≤ 32 →
      (s.storeBytes bs).cnt.toNat = s.cnt.toNat + bs.length := by
  induction bs with
  | nil => intro s _; rfl
  | cons b bs ih =>
    intro s h
    simp only [List.length_cons] at h ⊢
    have hc := storeByte_cnt b (s := s) (by omega)
    rw [storeBytes_cons, ih _ (by omega), hc]
    omega

theorem storeBytes_rstate (bs : List Byte) :
    ∀ s : State, s.cnt.toNat + bs.length ≤ 32 → bs ≠ [] →
      (s.storeBytes bs).rstate = afterStored (s.cnt.toNat + bs.length) := by
  induction bs with
  | nil => intro s _ h; exact absurd rfl h
  | cons b bs ih =>
    intro s h _
    simp only [List.length_cons] at h ⊢
    cases bs with
    | nil => rfl
    | cons b' bs' =>
      have hc := storeByte_cnt b (s := s) (by omega)
      rw [storeBytes_cons, ih _ (by simp only [List.length_cons] at h ⊢; omega) (by simp), hc]
      congr 1
      omega

/-- Stored bytes stand in the cells from `CNT` on; the cells before and behind them are as before. -/
theorem storeBytes_cells (bs : List Byte) :
    ∀ s : State, s.cnt.toNat + bs.length ≤ 32 →
      (s.storeBytes bs).rx.cells.toList = s.rx.cells.toList.take s.cnt.toNat ++ bs ++
        s.rx.cells.toList.drop (s.cnt.toNat + bs.length) := by
  induction bs with
  | nil => intro s _; simp
  | cons b bs ih =>
    intro s h
    simp only [List.length_cons] at h ⊢
    have hc := storeByte_cnt b (s := s) (by omega)
    have hl : s.rx.cells.toList.length = 32 := by simp
    rw [storeBytes_cons, ih _ (by omega), hc]
    simp only [State.storeByte_rx, State.pulled_rx, State.pulled_cnt, Vector.toList_setIfInBounds]
    generalize s.rx.cells.toList = L at hl ⊢
    have h1 : (L.set s.cnt.toNat b).take (s.cnt.toNat + 1) = L.take s.cnt.toNat ++ [b] := by
      rw [List.take_set, List.take_succ_eq_append_getElem (by omega), List.set_append_right _ _ (by simp)]
      simp [Nat.min_eq_left (show s.cnt.toNat ≤ L.length by omega)]
    have h2 : (L.set s.cnt.toNat b).drop (s.cnt.toNat + 1 + bs.length) =
        L.drop (s.cnt.toNat + 1 + bs.length) := by
      rw [List.drop_set_of_lt (by omega)]
    rw [h1, h2, show s.cnt.toNat + (bs.length + 1) = s.cnt.toNat + 1 + bs.length by omega]
    simp

/-- A frame in a pulling state: this pull answers its first byte, the others are next on the
stream. -/
theorem offerFrame_pulling {d : Datagram} {s : State} (h : s.rstate.pulling = true) :
    offerFrame d s = .next ({ s with stream := frameRest s.cfg d ++ s.stream }.takeByte d[0]) := by
  simp [offerFrame, h]

theorem offerFrame_idle {d : Datagram} {s : State} (h : s.rstate.pulling = false) :
    offerFrame d s = .next (s.unread [.frame d]) := by simp [offerFrame, h]

/-- A byte taken in the body is stored whatever it is (R145, R146). -/
theorem takeByte_body (b : Byte) {s : State} (h : s.rstate = .readingBody) :
    s.takeByte b = s.pulled.storeByte b := by simp [State.takeByte, h]

/-- The start sentinel is stored in every pulling state (R143, R145). -/
theorem takeByte_start (s : State) : s.takeByte START = s.pulled.storeByte START := by
  simp [State.takeByte]

/-- The first byte of a datagram and the rest. -/
theorem toList_eq_cons (d : Datagram) : d.toList = d[0] :: d.toList.drop 1 := by
  have hlen : 0 < d.toList.length := by simp
  simpa using List.drop_eq_getElem_cons hlen

/-! ## Decoding a word that is ready -/

/-- The bytes of a frame with the format's sentinels. -/
theorem frameBytes_toList (src dst proto k : Byte) (p : Payload) :
    (frameBytes src dst proto k p).toList = [START, src, dst, proto, k] ++ p.toList ++ [STOP] := by
  simp only [frameBytes, Vector.toList_append]
  rfl

/-- Each cell of a datagram is its element of the byte list. -/
theorem cell_eq (d : Datagram) {o : Nat} (h : o < 32) : d[o] = d.toList[o]'(by simpa using h) := by
  simp

theorem frameBytes_start (src dst proto k : Byte) (p : Payload) :
    (frameBytes src dst proto k p)[0] = START := by
  rw [cell_eq _ (by decide)]; simp only [frameBytes_toList]; rfl

theorem frameBytes_checksum (src dst proto k : Byte) (p : Payload) :
    (frameBytes src dst proto k p)[4] = k := by
  rw [cell_eq _ (by decide)]; simp only [frameBytes_toList]; rfl

theorem frameBytes_proto (src dst proto k : Byte) (p : Payload) :
    (frameBytes src dst proto k p)[3] = proto := by
  rw [cell_eq _ (by decide)]; simp only [frameBytes_toList]; rfl

theorem frameBytes_stop (src dst proto k : Byte) (p : Payload) :
    (frameBytes src dst proto k p)[31] = STOP := by
  rw [cell_eq _ (by decide)]
  simp only [frameBytes_toList]
  rw [List.getElem_append_right (by simp)]
  simp

theorem frameBytes_addresses (src dst proto k : Byte) (p : Payload) :
    (frameBytes src dst proto k p)[1] = src ∧ (frameBytes src dst proto k p)[2] = dst := by
  rw [cell_eq _ (by decide), cell_eq _ (by decide)]
  simp only [frameBytes_toList]
  exact ⟨rfl, rfl⟩

end Sys2Proof.Machine
end

