-- ==== Sys2Proof/Laws/Checksum.lean ====
section
/-! SUPPORT. The laws of the checksum accumulator (each inner step distributes over exclusive or), and
what building a frame leaves at each offset. -/

namespace Sys2Proof.Machine

/-! ## The accumulator -/

theorem crcStep_xor (x y : Acc) : crcStep (x ^^^ y) = crcStep x ^^^ crcStep y := by
  simp only [crcStep, BitVec.getLsbD_xor]
  generalize CRC_POLY16 = P
  apply BitVec.eq_of_getLsbD_eq
  intro i hi
  cases x.getLsbD 15 <;> cases y.getLsbD 15 <;> simp [BitVec.getLsbD_shiftLeft] <;>
    cases x.getLsbD (i - 1) <;> cases y.getLsbD (i - 1) <;> cases P.getLsbD (i - 1) <;> simp

theorem crcSteps_xor (n : Nat) :
    ∀ x y : Acc, crcSteps n (x ^^^ y) = crcSteps n x ^^^ crcSteps n y := by
  induction n with
  | zero => intros; rfl
  | succ n ih => intro x y; simp only [crcSteps, crcStep_xor, ih]

/-- A byte placed in the high half of the accumulator, bit by bit (R122). -/
theorem highByte_xor (a b : Byte) :
    ((a ^^^ b).zeroExtend 16 <<< 8 : Acc) = (a.zeroExtend 16 <<< 8) ^^^ (b.zeroExtend 16 <<< 8) := by
  apply BitVec.eq_of_getLsbD_eq
  intro i hi
  interval_cases i <;> simp

theorem crcByte_xor (x y : Acc) (a b : Byte) :
    crcByte (x ^^^ y) (a ^^^ b) = crcByte x a ^^^ crcByte y b := by
  simp only [crcByte, highByte_xor, ← crcSteps_xor]
  congr 1
  ac_rfl

theorem crcFold_nil (acc : Acc) : crcFold acc [] = acc := rfl

theorem crcFold_cons (acc : Acc) (b : Byte) (bs : List Byte) :
    crcFold acc (b :: bs) = crcFold (crcByte acc b) bs := rfl

theorem crcFold_append (acc : Acc) (as bs : List Byte) :
    crcFold acc (as ++ bs) = crcFold (crcFold acc as) bs := List.foldl_append

/-! ## Cells of a frame -/

/-- Writing a cell inside the register (R20). -/
theorem setIfInBounds_eq_set (d : Datagram) {o : Nat} (h : o < 32) (v : Byte) :
    d.setIfInBounds o v = d.set o v := by
  ext1 i hi; simp [Vector.getElem_set, Vector.getElem_setIfInBounds]

/-- Writing the payload of a frame replaces it whole and nothing else (R171). -/
theorem withPayload_frameBytes (src dst proto k : Byte) (old msg : Payload) :
    withPayload (frameBytes src dst proto k old) msg = frameBytes src dst proto k msg := by
  ext1 i hi
  simp only [withPayload, Vector.getElem_ofFn]
  split
  · next h =>
    have hp := congrArg (fun x : Payload => x[i - 5]'(by omega))
      (payloadOf_frameBytes src dst proto k msg)
    simp only [payloadOf, Vector.getElem_ofFn, show i - 5 + 5 = i by omega] at hp
    exact hp.symm
  · next h =>
    have hcase : i < 5 ∨ i = 31 := by omega
    rcases hcase with h5 | rfl
    · rw [cell_eq _ hi, cell_eq _ hi]
      simp only [frameBytes_toList, List.append_assoc]
      rw [List.getElem_append_left (by simpa using h5),
        List.getElem_append_left (by simpa using h5)]
    · rw [frameBytes_stop, frameBytes_stop]

/-- The checksum is outside the payload (R80). -/
theorem payloadOf_setChecksum (d : Datagram) : payloadOf (setChecksum d) = payloadOf d := by
  ext1 i hi
  simp only [payloadOf, Vector.getElem_ofFn, setChecksum, Vector.getElem_set]
  rw [if_neg (by omega)]

/-- A request frame is `set_checksum` of the frame of its parts (R171). -/
theorem requestFrame_eq (dst : Byte) (msg : Payload) :
    requestFrame dst msg = setChecksum (frameBytes ADDR_CONTROLLER dst PROTO_PHASON 0#8 msg) := by
  rw [requestFrame, initFrame, withPayload_frameBytes]

/-- A response frame is `set_checksum` of the frame of its parts (R172). -/
theorem responseFrame_eq (src : Byte) (msg : Payload) :
    responseFrame src msg = setChecksum (frameBytes src ADDR_CONTROLLER PROTO_PHASON 0#8 msg) := by
  rw [responseFrame, initFrame, withPayload_frameBytes]

/-! ## Bytes of a payload -/

/-- A payload byte of a datagram stands five offsets higher in its frame (R10). -/
theorem payloadByte_payloadOf (g : Datagram) {k : Nat} (h : k < 26) :
    payloadByte (payloadOf g) k = g[k + 5] := by
  rw [payloadByte, List.getD_eq_getElem _ _ (by simpa using h)]
  simp [payloadOf]

/-- The table lookup of a type index 0 to 9 (R96, R111). -/
theorem messageType_of_le {t : BitVec 4} (h : t.toNat ≤ 9) :
    ∃ T, messageType t = some T ∧ T.index.val = t.toNat := by
  have key : ∀ n : Fin 10, ∃ T, MsgType.all[n.val]? = some T ∧ T.index.val = n.val := by
    intro n; fin_cases n <;> exact ⟨_, rfl, rfl⟩
  exact key ⟨t.toNat, by omega⟩

/-- A type index above 9 names no type (R111). -/
theorem messageType_of_gt {t : BitVec 4} (h : 9 < t.toNat) : messageType t = none := by
  rw [messageType, List.getElem?_eq_none]
  simp [MsgType.all]; omega

end Sys2Proof.Machine
end

