-- ==== Sys2Proof/Laws/PerInstr.lean ====
section
/-! SUPPORT. A statement made once per instruction: which port its encoding stands at. -/

namespace Sys2Proof.Laws.Port

open Sys2Proof

/-- Under every configuration, an instruction's word is a word of the caller's operation port exactly
when the instruction is a request, and a word of the receive stream otherwise (R108). -/
def Statement (i : Instr) : Prop :=
  ∀ c : Config, if i.isRequest then ∃ r, encode c i = .request r else ∃ x, encode c i = .stream x

theorem init (d : DReg) (src dst proto : Byte) :
    Statement (.init d src dst proto) := fun _ => ⟨_, rfl⟩
theorem computeChecksum (d : DReg) :
    Statement (.computeChecksum d) := fun _ => ⟨_, rfl⟩
theorem setChecksum (d : DReg) :
    Statement (.setChecksum d) := fun _ => ⟨_, rfl⟩
theorem checkChecksum (d : DReg) :
    Statement (.checkChecksum d) := fun _ => ⟨_, rfl⟩
theorem asBytes (d : DReg) :
    Statement (.asBytes d) := fun _ => ⟨_, rfl⟩
theorem fromBytes (d : DReg) (bytes : Datagram) :
    Statement (.fromBytes d bytes) := fun _ => ⟨_, rfl⟩
theorem writePayload (d : DReg) (p : BitVec 5) (v : Byte) :
    Statement (.writePayload d p v) := fun _ => ⟨_, rfl⟩
theorem read (ctx : Ctx) :
    Statement (.read ctx) := fun _ => ⟨_, rfl⟩
theorem requestToDatagram (d : DReg) (dst : Byte) (msg : Payload) :
    Statement (.requestToDatagram d dst msg) := fun _ => ⟨_, rfl⟩
theorem responseToDatagram (d : DReg) (src : Byte) (msg : Payload) :
    Statement (.responseToDatagram d src msg) := fun _ => ⟨_, rfl⟩
theorem fromDatagram (d : DReg) (t : BitVec 4) :
    Statement (.fromDatagram d t) := fun _ => ⟨_, rfl⟩
theorem discriminate (d : DReg) :
    Statement (.discriminate d) := fun _ => ⟨_, rfl⟩
theorem pullByte (b : Byte) :
    Statement (.pullByte b) := fun _ => ⟨_, rfl⟩
theorem pullRetry :
    Statement .pullRetry := fun _ => ⟨_, rfl⟩
theorem pullAbort :
    Statement .pullAbort := fun _ => ⟨_, rfl⟩
theorem pullOther :
    Statement .pullOther := fun _ => ⟨_, rfl⟩
theorem datagram (src dst proto k : Byte) (payload : Payload) :
    Statement (.datagram src dst proto k payload) := fun _ => ⟨_, rfl⟩
theorem phasonGetFeederInfoReq (d : DReg) (dst : Envelope) :
    Statement (.phasonGetFeederInfoReq d dst) := fun _ => ⟨_, rfl⟩
theorem phasonGetFeederInfoResp (d : DReg) (src : Envelope) (st : Byte) (v y m dd : List Byte) (u : Uid) :
    Statement (.phasonGetFeederInfoResp d src st v y m dd u) := fun _ => ⟨_, rfl⟩
theorem phasonResetFeederReq (d : DReg) (dst : Envelope) :
    Statement (.phasonResetFeederReq d dst) := fun _ => ⟨_, rfl⟩
theorem phasonResetFeederResp (d : DReg) (src : Envelope) (st : Byte) :
    Statement (.phasonResetFeederResp d src st) := fun _ => ⟨_, rfl⟩
theorem phasonStartFeedReq (d : DReg) (dst : Envelope) (q : List Byte) (um : Word32) :
    Statement (.phasonStartFeedReq d dst q um) := fun _ => ⟨_, rfl⟩
theorem phasonStartFeedResp (d : DReg) (src : Envelope) (st : Byte) (q : List Byte) :
    Statement (.phasonStartFeedResp d src st q) := fun _ => ⟨_, rfl⟩
theorem phasonFeedStatusReq (d : DReg) (dst : Envelope) (q : List Byte) :
    Statement (.phasonFeedStatusReq d dst q) := fun _ => ⟨_, rfl⟩
theorem phasonFeedStatusResp (d : DReg) (src : Envelope) (st : Byte) (q : List Byte) (um : Word32) :
    Statement (.phasonFeedStatusResp d src st q um) := fun _ => ⟨_, rfl⟩
theorem phasonQueryByUidReq (d : DReg) (dst : Envelope) (u : Uid) :
    Statement (.phasonQueryByUidReq d dst u) := fun _ => ⟨_, rfl⟩
theorem phasonQueryByUidResp (d : DReg) (src : Envelope) (st : Byte) :
    Statement (.phasonQueryByUidResp d src st) := fun _ => ⟨_, rfl⟩

end Sys2Proof.Laws.Port
end

