-- ==== Sys2Proof/Laws/Step.lean ====
section
/-! SUPPORT. What one instruction and one step can do, said once: the effect of a request that is
taken, the frame of an answer of the byte source, and the cases of a step. -/

namespace Sys2Proof.Machine

/-! ## Requests -/

theorem sendRequest_next {d : DReg} {dst : Byte} {msg : Payload} {s t : State} :
    sendRequest d dst msg s = .next t ↔
      s.rstate.busy = false ∧ .next (s.writeDatagram d (requestFrame dst msg)) = (.next t : Outcome) :=
  accepting_next

theorem sendResponse_next {d : DReg} {src : Byte} {msg : Payload} {s t : State} :
    sendResponse d src msg s = .next t ↔
      s.rstate.busy = false ∧ .next (s.writeDatagram d (responseFrame src msg)) = (.next t : Outcome) :=
  accepting_next

/-- What a request that is taken can do to the state: write a whole register, write one cell of a
valid register, only return a value, emit and return a register, or start an attempt. -/
inductive RequestEffect (s : State) : Instr → State → Prop
  | write (i : Instr) (d : DReg) (g : Datagram) (h : i.writesReg = some d) :
      RequestEffect s i (s.writeDatagram d g)
  | cell (i : Instr) (d : DReg) (o : Nat) (v : Byte) (h : i.writesReg = some d)
      (hv : (s.reg d).valid = true) : RequestEffect s i (s.writeCell d o v)
  | answer (i : Instr) (v : Returned) (h : i.writesReg = none) (hr : ∀ x, i ≠ .read x) :
      RequestEffect s i (s.returning v)
  | output (d : DReg) : RequestEffect s (.asBytes d)
      ((s.emit (s.reg d).cells.toList).returning (.bytes (s.reg d).cells))
  | start (x : Ctx) : RequestEffect s (.read x) (s.startRead x)

/-- A request with a next state was made of a terminal reader and had one of those effects. -/
theorem request_effect {i : Instr} {s t : State} (hi : i.isRequest = true)
    (h : exec i s = .next t) : s.rstate.busy = false ∧ RequestEffect s i t := by
  cases i <;> simp only [Instr.isRequest, Bool.false_eq_true] at hi <;>
    simp only [exec, execInit, execFromBytes, execRead, execComputeChecksum, execSetChecksum,
      execCheckChecksum, execAsBytes, execDiscriminate, execWritePayload, execFromDatagram,
      accepting_next, reading_next, execRequestToDatagram, execResponseToDatagram,
      sendRequest_next, sendResponse_next, execPhasonGetFeederInfoReq,
      execPhasonGetFeederInfoResp, execPhasonResetFeederReq, execPhasonResetFeederResp,
      execPhasonStartFeedReq, execPhasonStartFeedResp, execPhasonFeedStatusReq,
      execPhasonFeedStatusResp, execPhasonQueryByUidReq, execPhasonQueryByUidResp] at h
  case computeChecksum => obtain ⟨hb, _, h⟩ := h; cases h; exact ⟨hb, .answer _ _ rfl (by simp)⟩
  case setChecksum => obtain ⟨hb, hv, h⟩ := h; cases h; exact ⟨hb, .cell _ _ _ _ rfl hv⟩
  case checkChecksum => obtain ⟨hb, _, h⟩ := h; cases h; exact ⟨hb, .answer _ _ rfl (by simp)⟩
  case asBytes => obtain ⟨hb, _, h⟩ := h; cases h; exact ⟨hb, .output _⟩
  case writePayload =>
    obtain ⟨hb, hv, h⟩ := h
    split at h
    · cases h; exact ⟨hb, .cell _ _ _ _ rfl hv⟩
    · cases h
  case read => obtain ⟨hb, h⟩ := h; cases h; exact ⟨hb, .start _⟩
  case fromDatagram =>
    obtain ⟨hb, _, h⟩ := h
    split at h
    · cases h; exact ⟨hb, .answer _ _ rfl (by simp)⟩
    · cases h
  case discriminate => obtain ⟨hb, _, h⟩ := h; cases h; exact ⟨hb, .answer _ _ rfl (by simp)⟩
  all_goals obtain ⟨hb, h⟩ := h; cases h; exact ⟨hb, .write _ _ _ rfl⟩

/-! ## Answers of the byte source -/

/-- What an answer of the byte source leaves unchanged, the stream apart (it may get bytes back). -/
structure AnswerFrame (s t : State) : Prop where
  tx : t.tx = s.tx
  ctx : t.ctx = s.ctx
  cfg : t.cfg = s.cfg
  requests : t.requests = s.requests
  resetPin : t.resetPin = s.resetPin
  sink : t.sink = s.sink

theorem AnswerFrame.trans {s t u : State} (h : AnswerFrame s t) (g : AnswerFrame t u) :
    AnswerFrame s u :=
  ⟨g.tx.trans h.tx, g.ctx.trans h.ctx, g.cfg.trans h.cfg, g.requests.trans h.requests,
    g.resetPin.trans h.resetPin, g.sink.trans h.sink⟩

/-- An answer of the byte source is one pull on the stream as it then stands, or words left unread. -/
theorem answer_cases {i : Instr} {s t : State} (hi : i.isRequest = false)
    (h : exec i s = .next t) :
    (s.rstate.pulling = true ∧ ∃ r ws, t = ({ s with stream := ws } : State).takePull r) ∨
    (s.rstate.pulling = false ∧ ∃ ws, t = s.unread ws) := by
  have one : ∀ r, offer r s = .next t →
      (s.rstate.pulling = true ∧ ∃ r ws, t = ({ s with stream := ws } : State).takePull r) ∨
      (s.rstate.pulling = false ∧ ∃ ws, t = s.unread ws) := by
    intro r h
    rcases offer_next h with ⟨hp, rfl⟩ | ⟨hp, rfl⟩
    · exact .inl ⟨hp, r, s.stream, rfl⟩
    · exact .inr ⟨hp, _, rfl⟩
  cases i <;> simp only [Instr.isRequest, Bool.true_eq_false] at hi
  case datagram src dst proto k p =>
    have h : offerFrame (frameBytes src dst proto k p) s = .next t := h
    cases hp : s.rstate.pulling
    · rw [offerFrame_idle hp] at h; cases h; exact .inr ⟨rfl, _, rfl⟩
    · rw [offerFrame_pulling hp] at h; cases h; exact .inl ⟨rfl, .byte _, _, rfl⟩
  all_goals exact one _ h

theorem answer_frame {i : Instr} {s t : State} (hi : i.isRequest = false)
    (h : exec i s = .next t) : AnswerFrame s t := by
  rcases answer_cases hi h with ⟨_, r, ws, rfl⟩ | ⟨_, ws, rfl⟩
  · have F := takePull_frame r { s with stream := ws }
    exact ⟨F.tx, F.ctx, F.cfg, F.requests, F.resetPin, F.sink⟩
  · exact ⟨rfl, rfl, rfl, rfl, rfl, rfl⟩

/-! ## The step -/

theorem step_of_terminal {s : State} (hr : s.resetPin = false) (hb : s.rstate.busy = false) :
    step s = requestStep s := by
  unfold step; rw [hr]
  cases h : s.rstate <;> simp [h, RState.busy] at hb ⊢

theorem step_of_pulling {s : State} (hr : s.resetPin = false) (hp : s.rstate.pulling = true) :
    step s = pullStep s := by
  unfold step; rw [hr]
  cases h : s.rstate <;> simp [h, RState.pulling] at hp ⊢

theorem step_of_validating {s : State} (hr : s.resetPin = false) (hv : s.rstate = .validating) :
    step s = .next s.validate := by simp [step, hr, hv]

theorem step_of_reset {s : State} (hr : s.resetPin = true) : step s = .next s.applyReset := by
  simp [step, hr]

/-- One step of an attempt whose stream has a pull word ready. -/
theorem step_of_pullWord {s : State} {r : PullResult} {rest : List StreamWord} (hw : s.cfg.wf)
    (hr : s.resetPin = false) (hp : s.rstate.pulling = true)
    (hs : s.stream = pullWord s.cfg r :: rest) :
    step s = .next ({ s with stream := rest }.takePull r) := by
  rw [step_of_pulling hr hp, pullStep, hs, pullWord, nextOfStream]
  simp only [decodeStream, decodePull_encodePull hw, Except.map]
  cases r <;> exact offer_pulling (s := { s with stream := rest }) hp

/-- What the receive stream decodes to is an answer of the byte source. -/
theorem isRequest_of_decodeStream {c : Config} {w : StreamWord} {i : Instr}
    (h : decodeStream c w = .ok i) : i.isRequest = false := by
  cases w with
  | pull w =>
    simp only [decodeStream] at h
    cases hx : decodePull c w with
    | error e => rw [hx] at h; simp [Except.map] at h
    | ok r => rw [hx] at h; simp only [Except.map] at h; cases h; cases r <;> rfl
  | frame d =>
    simp only [decodeStream, decodeFrame] at h
    split at h <;> cases h; rfl

theorem isRequest_of_nextOfStream {c : Config} {ws rest : List StreamWord} {i : Instr}
    (h : nextOfStream c ws = some (.ok i, rest)) : i.isRequest = false := by
  unfold nextOfStream at h
  split at h
  · cases h
  · injection h with h; injection h with h1 _; exact isRequest_of_decodeStream h1
  · split at h
    · next h' =>
      injection h with h; injection h with h1 _; injection h1 with h1
      subst h1; exact isRequest_of_decodeStream (c := c) (w := .frame _) h'
    · injection h with h; injection h with h1 _; injection h1 with h1
      subst h1; rfl

/-- Everything a step that has a next state can be: reset, validation, an idle step or a request of a
terminal reader, a wait or an answer of a pulling one. -/
theorem step_cases {s t : State} (h : step s = .next t) :
    (s.resetPin = true ∧ t = s.applyReset) ∨
    (s.resetPin = false ∧ s.rstate = .validating ∧ t = s.validate) ∨
    (s.resetPin = false ∧ s.rstate.busy = false ∧
      (t = s.quiet ∨ ∃ w i rest, decodeRequest s.cfg w = .ok i ∧
        exec i { s with requests := rest } = .next t)) ∨
    (s.resetPin = false ∧ s.rstate.pulling = true ∧
      (t = s.pulled ∨
        ∃ i rest, i.isRequest = false ∧ exec i { s with stream := rest } = .next t)) := by
  by_cases hr' : s.resetPin = true
  · rw [step_of_reset hr'] at h; cases h; exact .inl ⟨hr', rfl⟩
  have hr : s.resetPin = false := by simpa using hr'
  by_cases hv : s.rstate = .validating
  · rw [step_of_validating hr hv] at h; cases h; exact .inr (.inl ⟨hr, hv, rfl⟩)
  by_cases hb : s.rstate.busy = false
  · rw [step_of_terminal hr hb] at h
    refine .inr (.inr (.inl ⟨hr, hb, ?_⟩))
    unfold requestStep at h
    split at h
    · cases h; exact .inl rfl
    · split at h
      · next hd => exact .inr ⟨_, _, _, hd, h⟩
      · cases h
  · have hp : s.rstate.pulling = true := by
      cases hs : s.rstate <;> simp [hs, RState.busy, RState.pulling] at hb hv ⊢
    rw [step_of_pulling hr hp] at h
    refine .inr (.inr (.inr ⟨hr, hp, ?_⟩))
    unfold pullStep at h
    split at h
    · cases h; exact .inl rfl
    · next h' => exact .inr ⟨_, _, isRequest_of_nextOfStream h', h⟩
    · cases h

/-! ## What a decoded request is -/

/-- The context a decoded `READ` names has `CTX_W` bits (R29, R111). -/
theorem ctx_of_decodeRequest {c : Config} {w : RequestWord} {x : Ctx}
    (h : decodeRequest c w = .ok (.read x)) : x < 2 ^ c.ctxW := by
  cases w with
  | cmd bytes =>
    simp only [decodeRequest, decodeCmd] at h
    split at h
    · split at h
      · split at h
        · injection h with h
          unfold Message.instr at h
          split at h <;> cases h
        · cases h
      · cases h
    · cases h
  | op bytes =>
    cases bytes with
    | nil => cases h
    | cons b rest =>
      simp only [decodeRequest, decodeOp] at h
      split at h
      · split at h
        · next o _ =>
          cases o <;> simp only [decodeOperands, sized] at h <;> split at h <;>
            (try split at h) <;> cases h
          exact ‹_ ∧ _›.2
        · cases h
      · cases h

/-! ## Runs -/

theorem runSteps_one {s t : State} (h : step s = .next t) : runSteps 1 s = .next t := by
  simp [runSteps, h]

theorem runSteps_succ {n : Nat} {s t : State} (h : step s = .next t) :
    runSteps (n + 1) s = runSteps n t := by simp [runSteps, h]

theorem runSteps_add {n : Nat} (m : Nat) :
    ∀ {s t : State}, runSteps n s = .next t → runSteps (n + m) s = runSteps m t := by
  induction n with
  | zero => intro s t h; simp only [runSteps] at h; cases h; simp
  | succ n ih =>
    intro s t h
    rw [show n + 1 + m = n + m + 1 by omega, runSteps]
    rw [runSteps] at h
    split at h
    · exact ih h
    · cases h
    · cases h

/-- The bytes that complete a capture, ready on the stream as pull words, are stored one a step, and
one step more validates the capture (R145, R146, R150). -/
theorem runSteps_capture (bs : List Byte) : ∀ {s : State} (rest : List StreamWord), s.cfg.wf →
    s.resetPin = false → s.rstate = afterStored s.cnt.toNat → s.cnt.toNat + bs.length = 32 →
    s.stream = bs.map (fun b => pullWord s.cfg (.byte b)) ++ rest →
    runSteps (bs.length + 1) s =
      .next ({ s with stream := rest }.storeBytes bs).validate := by
  induction bs with
  | nil =>
    intro s rest _ hr hst hl hs
    have hv : s.rstate = .validating := by rw [hst, show s.cnt.toNat = 32 from hl]; rfl
    have hs : s.stream = rest := hs
    subst hs
    exact runSteps_one (step_of_validating hr hv)
  | cons b bs ih =>
    intro s rest hw hr hst hl hs
    simp only [List.length_cons] at hl
    have hb : s.rstate = .readingBody := by rw [hst, afterStored, if_neg (by omega)]
    rw [List.map_cons, List.cons_append] at hs
    set s1 : State := { s with
      stream := bs.map (fun b => pullWord s.cfg (.byte b)) ++ rest } with h1
    have hstep : step s = .next (s1.pulled.storeByte b) := by
      rw [step_of_pullWord hw hr (by rw [hb]; rfl) hs, ← takeByte_body (s := s1) b hb]
      rfl
    have hc : (s1.pulled.storeByte b).cnt.toNat = s.cnt.toNat + 1 :=
      storeByte_cnt (s := s1) b (by show s.cnt.toNat < 32; omega)
    rw [List.length_cons, runSteps_succ hstep,
      ih (s := s1.pulled.storeByte b) rest hw hr (by rw [hc]; rfl) (by rw [hc]; omega) rfl]
    rfl

/-- A frame that begins with the start sentinel, met at the start of an attempt: its first byte is
stored, and 32 steps more store the others and validate it (R80, R143 to R150). -/
theorem run_frame_start {s : State} {d : Datagram} (hw : s.cfg.wf) (hp : s.resetPin = false)
    (hr : s.rstate = .awaitStart) (hc : s.cnt = 0#6) (hd : d[0] = START) :
    ∃ t, offerFrame d s = .next t ∧ runSteps 32 t = .next (s.storeBytes d.toList).validate := by
  refine ⟨_, offerFrame_pulling (by rw [hr]; rfl), ?_⟩
  rw [hd, takeByte_start]
  have hrun := runSteps_capture (d.toList.drop 1)
    (s := { s with stream := frameRest s.cfg d ++ s.stream }.pulled.storeByte START) s.stream hw hp
    (by rw [storeByte_cnt _ (by show s.cnt.toNat < 32; rw [hc]; decide)]; rfl)
    (by rw [storeByte_cnt _ (by show s.cnt.toNat < 32; rw [hc]; decide)]; simp [hc]) rfl
  rw [List.length_drop, Vector.length_toList] at hrun
  refine hrun.trans ?_
  conv_rhs => rw [toList_eq_cons, hd]
  rfl

/-- The 32 bytes of a frame ready as pull words at the start of an attempt are captured and judged in
33 steps (R141, R143 to R150). -/
theorem run_frame_words {s : State} {d : Datagram} {rest : List StreamWord} (hw : s.cfg.wf)
    (hp : s.resetPin = false) (hr : s.rstate = .awaitStart) (hc : s.cnt = 0#6) (hd : d[0] = START)
    (hs : s.stream = d.toList.map (fun b => pullWord s.cfg (.byte b)) ++ rest) :
    runSteps 33 s = .next (({ s with stream := rest } : State).storeBytes d.toList).validate := by
  obtain ⟨t, ht, hrun⟩ := run_frame_start (s := { s with stream := rest }) hw hp hr hc hd
  have hpull : ({ s with stream := rest } : State).rstate.pulling = true := by
    rw [show ({ s with stream := rest } : State).rstate = _ from hr]; rfl
  rw [offerFrame_pulling hpull] at ht
  have hst : step s = .next t := by
    rw [← ht]
    refine step_of_pullWord (r := .byte d[0]) hw hp (by rw [hr]; rfl) ?_
    rw [hs]
    conv_lhs => rw [toList_eq_cons]
    rfl
  exact (runSteps_succ hst).trans hrun

/-- A frame met inside a body at offset `n`: its first `32 - n` bytes complete the capture, which is
validated `32 - n` steps after its first byte was stored, and its last `n` bytes stay unread (R82). -/
theorem run_frame_body {s : State} {n : Nat} (d : Datagram) (hw : s.cfg.wf)
    (hp : s.resetPin = false) (hr : s.rstate = .readingBody) (hc : s.cnt.toNat = n) (h1 : n ≤ 31) :
    ∃ t, offerFrame d s = .next t ∧
      runSteps (32 - n) t = .next { s.storeBytes (d.toList.take (32 - n)) with
        stream := (d.toList.drop (32 - n)).map (fun x => pullWord s.cfg (.byte x)) ++ s.stream
        }.validate := by
  refine ⟨_, offerFrame_pulling (by rw [hr]; rfl), ?_⟩
  rw [takeByte_body _ (by exact hr)]
  have hlt : s.cnt.toNat < 32 := by omega
  have hsplit : d.toList.take (32 - n) = d[0] :: (d.toList.drop 1).take (31 - n) := by
    conv_lhs => rw [toList_eq_cons]
    rw [show 32 - n = 31 - n + 1 by omega, List.take_succ_cons]
  have hdrop : d.toList.drop (32 - n) = (d.toList.drop 1).drop (31 - n) := by
    rw [List.drop_drop, show 1 + (31 - n) = 32 - n by omega]
  have hlen : ((d.toList.drop 1).take (31 - n)).length = 31 - n := by simp
  have hcnt : ({ s with stream := frameRest s.cfg d ++ s.stream }.pulled.storeByte d[0]).cnt.toNat =
      s.cnt.toNat + 1 :=
    storeByte_cnt (s := { s with stream := frameRest s.cfg d ++ s.stream }) _ hlt
  have hrun := runSteps_capture ((d.toList.drop 1).take (31 - n))
    (s := { s with stream := frameRest s.cfg d ++ s.stream }.pulled.storeByte d[0])
    ((d.toList.drop (32 - n)).map (fun x => pullWord s.cfg (.byte x)) ++ s.stream) hw hp
    (by rw [hcnt]; rfl)
    (by rw [hcnt, hlen]; omega)
    (by
      show frameRest s.cfg d ++ s.stream =
        ((d.toList.drop 1).take (31 - n)).map (fun x => pullWord s.cfg (.byte x)) ++ _
      rw [frameRest, ← List.append_assoc, hdrop, ← List.map_append, List.take_append_drop])
  rw [hlen, show 31 - n + 1 = 32 - n by omega] at hrun
  refine hrun.trans ?_
  rw [hsplit, storeBytes_cons, ← storeBytes_with_stream]
  rfl

/-! ## READ_UNTIL_START (R115) -/

/-- The loop goes on through a step of a busy attempt. -/
theorem retryNoStart_busy {ctx : Ctx} {n : Nat} {s t : State} (hb : s.rstate.busy = true)
    (h : step s = .next t) : retryNoStart ctx (n + 1) s = retryNoStart ctx n t := by
  rw [retryNoStart, if_pos hb]; simp only [h]

/-- The loop reads again after `NO_START_BYTE`. -/
theorem retryNoStart_again {ctx : Ctx} {n : Nat} {s : State} (hb : s.rstate.busy = false)
    (h : s.result = some (.failed .noStartByte)) :
    retryNoStart ctx (n + 1) s = retryNoStart ctx n (s.startRead ctx) := by
  rw [retryNoStart, if_neg (by simp [hb]), if_pos h]
  simp only [exec, execRead, accepting_of_terminal hb]

/-- The loop ends at any other result. -/
theorem retryNoStart_done {ctx : Ctx} {s : State} (n : Nat) (hb : s.rstate.busy = false)
    (h : s.result ≠ some (.failed .noStartByte)) : retryNoStart ctx n s = .next s := by
  cases n with
  | zero => rfl
  | succ n => rw [retryNoStart, if_neg (by simp [hb]), if_neg h]

/-- Each round on a byte that is no start sentinel consumes exactly that byte: two units of the loop
after it, the block is in the same place one byte further on (R115, R144, R153). -/
theorem retryNoStart_noise {ctx : Ctx} {n : Nat} {s : State} {b : Byte} {rest : List StreamWord}
    (hw : s.cfg.wf) (hp : s.resetPin = false) (hr : s.rstate = .awaitStart)
    (hb : b ≠ START) (hs : s.stream = pullWord s.cfg (.byte b) :: rest) :
    retryNoStart ctx (n + 2) s =
      retryNoStart ctx n ({ s with stream := rest }.startRead ctx) := by
  have hstep := step_of_pullWord hw hp (by rw [hr]; rfl) hs
  have htake : ({ s with stream := rest } : State).takePull (.byte b) =
      ({ s with stream := rest } : State).pulled.raise .noStartByte := by
    simp [State.takePull, State.takeByte, hr, hb]
  rw [htake] at hstep
  rw [retryNoStart_busy (by rw [hr]; rfl) hstep, retryNoStart_again rfl rfl]
  rfl

end Sys2Proof.Machine
end

