-- ==== Sys2Proof/Tests/Slice0.lean ====
section
/-! SUPPORT. The package's own tests: the smoke test of WellFormed, words written out from the spec's
encodings, the spec's derived vectors (95_test_vectors.md, cited by number), and for every statement
with hypotheses a witness that meets them together. Expected values come from the spec. -/

namespace Sys2Proof.Tests

open Sys2Proof Sys2Proof.Machine

set_option Elab.async false

/-! ## Data and small states -/

def zeros (n : Nat) : List Byte := List.replicate n 0x00

/-- A byte list as a datagram. -/
def dg (l : List Byte) : Datagram := Vector.ofFn fun o => l.getD o.val 0

/-- A byte list as a payload. -/
def pay (l : List Byte) : Payload := Vector.ofFn fun o => l.getD o.val 0

/-- The identifier of the vectors, `A0 .. AB`. -/
def uidA : Uid := #v[0xA0, 0xA1, 0xA2, 0xA3, 0xA4, 0xA5, 0xA6, 0xA7, 0xA8, 0xA9, 0xAA, 0xAB]

/-- V5b. -/
def V5b : List Byte := [0x55, 0x00, 0x01, 0xA1, 0x79] ++ zeros 26 ++ [0x2A]
/-- V20. -/
def V20 : List Byte := [0x55, 0x00, 0x01, 0xA1, 0x47, 0x01] ++ zeros 25 ++ [0x2A]
/-- V21. -/
def V21 : List Byte := [0x55, 0x01, 0x00, 0xA1, 0x4E, 0x81, 0x00, 0x01, 0x16, 0x03, 0x0E] ++
  uidA.toList ++ zeros 8 ++ [0x2A]
/-- V25. -/
def V25 : List Byte :=
  [0x55, 0x00, 0x01, 0xA1, 0xB2, 0x03, 0x07, 0xA0, 0x0F, 0x00, 0x00] ++ zeros 20 ++ [0x2A]

/-- After reset, with a valid register holding the bytes. -/
def holding (d : DReg) (l : List Byte) : State := State.reset.setReg d ⟨dg l, true⟩

/-- An attempt that awaits its start. -/
def awaiting : State := { State.reset with rstate := .awaitStart, ctx := 7 }

/-- An attempt with the first `n` bytes of `l` stored. -/
def inBody (n : Nat) (l : List Byte) : State :=
  { State.reset with
    rstate := .readingBody, cnt := BitVec.ofNat 6 n, ctx := 7, rx := ⟨dg (l.take n), false⟩ }

/-- An attempt with all 32 bytes of `l` stored. -/
def captured (l : List Byte) : State :=
  { State.reset with rstate := .validating, cnt := 32, ctx := 7, rx := ⟨dg l, false⟩ }

/-- After a failed attempt. -/
def failedWith (k : Failure) (n : Nat) : State :=
  { State.reset with
    rstate := .failed k, result := some (.failed k), cnt := BitVec.ofNat 6 n }

/-- The default configuration with the big byte order (V25a). -/
def bigEndian : Config := { Config.default with intOrder := .big }

/-- The default configuration with another discriminator for type 8 (V28a). -/
def otherDisc : Config := { Config.default with disc := Config.default.disc.set 8 0x05 }

/-- The default configuration with one type's layout replaced. -/
def withSlots (T : MsgType) (sls : List Slot) : Config :=
  { Config.default with layout := Config.default.layout.set T.index.val sls }

/-- Layouts R97 leaves open (D13, D24, D30): a sequence number of two bytes behind the integer, a build
date of one three-byte field, and a further field in the query-by-UID response. -/
def wideSequence : Config := withSlots .startFeedReq [⟨.micrometers, 1, 4⟩, ⟨.sequence, 5, 2⟩]
def oneDate : Config :=
  withSlots .getFeederInfoResp
    [⟨.status, 1, 1⟩, ⟨.protocolVersion, 2, 2⟩, ⟨.firmwareDate, 4, 3⟩, ⟨.uid, 7, 12⟩]
def moreInQuery : Config := withSlots .queryByUidResp [⟨.status, 1, 1⟩, ⟨.other 0, 2, 3⟩]

/-- The default configuration with a context of 12 bits (D28). -/
def narrowCtx : Config := { Config.default with ctxW := 12 }

/-- Shorthand for the fields of a message. -/
def b1 (f : Field) (b : Byte) : Assign := ⟨f, .bytes [b]⟩
def feedFields (q : Byte) (um : Word32) : Fields := [b1 .sequence q, ⟨.micrometers, .int um⟩]
def statusFields (st q : Byte) (um : Word32) : Fields :=
  [b1 .status st, b1 .sequence q, ⟨.actualMicrometers, .int um⟩]

/-- The register after an instruction, if it completes. -/
def regOf (d : DReg) : Outcome → Option (List Byte × Bool)
  | .next t => some ((t.reg d).cells.toList, (t.reg d).valid)
  | .fault _ => none
  | .refused _ => none

/-- Why an instruction has no step, if it has none. -/
def refusalOf : Outcome → Option Refusal
  | .next _ => none
  | .fault _ => none
  | .refused r => some r

/-- The result port after an instruction, if it completes. -/
def portOf : Outcome → Option (Option Returned)
  | .next t => some t.resultPort
  | .fault _ => none
  | .refused _ => none

/-- The reader after an instruction, if it completes: `RSTATE`, `RESULT`, `CNT`, `RX.valid`. -/
def readerOf : Outcome → Option (RState × Option ReadResult × BitVec 6 × Bool)
  | .next t => some (t.rstate, t.result, t.cnt, t.rx.valid)
  | .fault _ => none
  | .refused _ => none

/-- The outcome of more steps after an instruction. -/
def thenSteps (n : Nat) : Outcome → Outcome
  | .next t => runSteps n t
  | .fault r => .fault r
  | .refused r => .refused r

/-! ## WellFormed smoke: each check refuses an ill-formed term and takes its neighbour -/

theorem test_wf_payload_offset :
    (Instr.writePayload .tx 26#5 0x00).wf Config.default = false ∧
    (Instr.writePayload .tx 25#5 0x00).wf Config.default = true := by
  decide

theorem test_wf_message_index :
    (Instr.fromDatagram .rx 10#4).wf Config.default = false ∧
    (Instr.fromDatagram .rx 9#4).wf Config.default = true := by decide

theorem test_wf_context :
    (Instr.read 4096).wf narrowCtx = false ∧ (Instr.read 4095).wf narrowCtx = true := by decide

/-- A message: a field missing, one too many, another's name, another width, another kind of value. -/
theorem test_wf_message :
    [[b1 .sequence 0x07], feedFields 0x07 4000 ++ [b1 .status 0x00],
      [b1 .status 0x07, ⟨.micrometers, .int 4000⟩],
      [⟨.sequence, .bytes [0x07, 0x00]⟩, ⟨.micrometers, .int 4000⟩],
      [b1 .sequence 0x07, ⟨.micrometers, .bytes [0xA0, 0x0F, 0x00, 0x00]⟩]].map
        (fun fs => Message.fits Config.default ⟨.startFeedReq, fs⟩) =
      [false, false, false, false, false] ∧
    Message.fits Config.default ⟨.startFeedReq, feedFields 0x07 4000⟩ = true := by decide

/-- A message row: an operand of another width than the layout's, one for a field the layout lacks, a
further field the layout lacks, one it has left out. -/
theorem test_wf_message_row :
    (Instr.phasonStartFeedReq .tx ⟨0x01, []⟩ [0x07, 0x00] 4000).wf Config.default = false ∧
    (Instr.phasonStartFeedReq .tx ⟨0x01, []⟩ [0x07] 4000).wf Config.default = true ∧
    (Instr.phasonStartFeedReq .tx ⟨0x01, []⟩ [0x07, 0x00] 4000).wf wideSequence = true ∧
    (Instr.phasonGetFeederInfoResp .tx ⟨0x01, [⟨.firmwareDate, .bytes [0x16, 0x03, 0x0E]⟩]⟩
      0x00 [0x01, 0x02] [0x16] [] [] uidA).wf oneDate = false ∧
    (Instr.phasonGetFeederInfoResp .tx ⟨0x01, [⟨.firmwareDate, .bytes [0x16, 0x03, 0x0E]⟩]⟩
      0x00 [0x01, 0x02] [] [] [] uidA).wf oneDate = true ∧
    (Instr.phasonQueryByUidResp .tx ⟨0x05, [⟨.other 0, .bytes [0x01]⟩]⟩ 0x00).wf
      Config.default = false ∧
    (Instr.phasonQueryByUidResp .tx ⟨0x05, []⟩ 0x00).wf moreInQuery = false := by decide

theorem test_wf_default_config : Config.default.wf := by decide
theorem test_wf_big_endian : bigEndian.wf := by decide
theorem test_wf_other_disc : otherDisc.wf := by decide
theorem test_wf_other_layouts : ∀ c ∈ [wideSequence, oneDate, moreInQuery, narrowCtx], c.wf := by
  decide +kernel

/-- A table with one discriminator twice, and one with a request's bit 7 set, are refused (R96). -/
theorem test_wf_bad_disc :
    ¬ ({ Config.default with disc := Config.default.disc.set 8 0x01 } : Config).discOk ∧
    ¬ ({ Config.default with disc := Config.default.disc.set 8 0xFF } : Config).discOk := by decide

/-- A code table with one number twice is refused; result codes 6 and 7 and selector 0x0 may stand in a
replacement (assumption 24). -/
theorem test_wf_codes :
    ¬ ({ Config.default with status := Config.default.status.set 4 0x00 } : Config).codesOk ∧
    ¬ ({ Config.default with resultCode := Config.default.resultCode.set 5 4 } : Config).codesOk ∧
    ¬ ({ Config.default with pullTag := Config.default.pullTag.set 3 0 } : Config).codesOk ∧
    ¬ ({ Config.default with opsel := Config.default.opsel.set 11 0x1 } : Config).codesOk ∧
    ({ Config.default with
      resultCode := (Config.default.resultCode.set 0 6).set 5 7
      opsel := Config.default.opsel.set 11 0x0 } : Config).codesOk := by decide

/-- A layout is refused for a field over the discriminator, one past the payload, two on one byte, one
twice, a content R97 names that is missing, a status of two bytes, an integer of two, and a status in a
request (R90, R92, R95, R97). -/
theorem test_wf_bad_layout :
    ∀ x ∈ ([(.queryByUidResp, [⟨.status, 0, 1⟩]), (.queryByUidReq, [⟨.uid, 15, 12⟩]),
      (.startFeedResp, [⟨.status, 1, 1⟩, ⟨.sequence, 1, 1⟩]),
      (.resetFeederResp, [⟨.status, 1, 1⟩, ⟨.status, 2, 1⟩]),
      (.startFeedReq, [⟨.micrometers, 1, 4⟩]), (.queryByUidResp, [⟨.status, 1, 2⟩]),
      (.startFeedReq, [⟨.sequence, 1, 1⟩, ⟨.micrometers, 2, 2⟩]),
      (.feedStatusReq, [⟨.status, 1, 1⟩, ⟨.sequence, 2, 1⟩]),
      (.resetFeederResp, [⟨.status, 1, 1⟩, ⟨.other 0, 2, 1⟩])] : List (MsgType × List Slot)),
      ¬ (withSlots x.1 x.2).slotsOk x.1 := by decide +kernel

/-! ## Decoding: every constructor, from words written out from R80, R96 and R109 to R111 -/

def decOp (l : List Byte) : Except Reject Instr := decodeRequest Config.default (.op l)
def decCmd (l : List Byte) : Except Reject Instr := decodeRequest Config.default (.cmd l)
def decPull (w : BitVec 10) : Except Reject Instr := decodeStream Config.default (.pull w)

theorem test_decode_init :
    decOp [0b00010001, 0x02, 0x03, 0x04] = .ok (.init .tx 0x02 0x03 0x04) := by decide
theorem test_decode_compute_checksum : decOp [0b00000010] = .ok (.computeChecksum .rx) := by decide
theorem test_decode_set_checksum : decOp [0b00010011] = .ok (.setChecksum .tx) := by decide
theorem test_decode_check_checksum : decOp [0b00000100] = .ok (.checkChecksum .rx) := by decide
theorem test_decode_as_bytes : decOp [0b00010101] = .ok (.asBytes .tx) := by decide
theorem test_decode_from_bytes :
    decOp (0b00000110 :: V21) = .ok (.fromBytes .rx (dg V21)) := by decide +kernel
theorem test_decode_write_payload :
    decOp [0b00010111, 0b00011001, 0x7E] = .ok (.writePayload .tx 25#5 0x7E) := by decide
theorem test_decode_read :
    decOp [0b00001000, 0x78, 0x56, 0x34, 0x12] = .ok (.read 0x12345678) ∧
    decodeRequest narrowCtx (.op [0b00001000, 0xFF, 0x0F]) = .ok (.read 0xFFF) ∧
    decodeRequest narrowCtx (.op [0b00001000, 0x00, 0x10]) = .error .reservedBits := by decide
theorem test_decode_request_to_datagram :
    decOp ([0b00011001, 0x01, 0x04, 0x07] ++ zeros 24) =
      .ok (.requestToDatagram .tx 0x01 (pay [0x04, 0x07])) := by decide +kernel
theorem test_decode_response_to_datagram :
    decOp ([0b00001010, 0x80, 0x82, 0x01] ++ zeros 24) =
      .ok (.responseToDatagram .rx 0x80 (pay [0x82, 0x01])) := by decide +kernel
theorem test_decode_from_datagram :
    decOp [0b00001011, 0b00001001] = .ok (.fromDatagram .rx 9#4) := by decide
theorem test_decode_discriminate : decOp [0b00011100] = .ok (.discriminate .tx) := by decide
theorem test_decode_pull_byte : decPull 0b0010100001 = .ok (.pullByte 0xA1) := by decide
theorem test_decode_pull_retry : decPull 0b0110100001 = .ok .pullRetry := by decide
theorem test_decode_pull_abort : decPull 0b1010100001 = .ok .pullAbort := by decide
theorem test_decode_pull_other : decPull 0b1110100001 = .ok .pullOther := by decide
theorem test_decode_datagram :
    decodeStream Config.default (.frame (dg V25)) =
      .ok (.datagram 0x00 0x01 0xA1 0xB2 (pay [0x03, 0x07, 0xA0, 0x0F])) := by decide +kernel
theorem test_decode_get_feeder_info_req :
    decCmd ([0x01] ++ zeros 25 ++ [0x01, 0x05]) = .ok (.phasonGetFeederInfoReq .tx ⟨0x05, []⟩) := by
  decide +kernel
theorem test_decode_get_feeder_info_resp :
    decCmd ([0x81, 0x00, 0x01, 0x16, 0x03, 0x0E] ++ uidA.toList ++ zeros 8 ++ [0x00, 0x05]) =
      .ok (.phasonGetFeederInfoResp .rx ⟨0x05, []⟩ 0x00 [0x01] [0x16] [0x03] [0x0E] uidA) := by
  decide +kernel
theorem test_decode_reset_feeder_req :
    decCmd ([0x02] ++ zeros 25 ++ [0x01, 0x05]) = .ok (.phasonResetFeederReq .tx ⟨0x05, []⟩) := by
  decide +kernel
theorem test_decode_reset_feeder_resp :
    decCmd ([0x82, 0x03] ++ zeros 24 ++ [0x01, 0x05]) =
      .ok (.phasonResetFeederResp .tx ⟨0x05, []⟩ 0x03) := by decide +kernel
theorem test_decode_start_feed_req :
    decCmd ([0x03, 0x07, 0xA0, 0x0F, 0x00, 0x00] ++ zeros 20 ++ [0x01, 0x05]) =
      .ok (.phasonStartFeedReq .tx ⟨0x05, []⟩ [0x07] 4000) := by decide +kernel
theorem test_decode_start_feed_resp :
    decCmd ([0x83, 0x01, 0x07] ++ zeros 23 ++ [0x01, 0x05]) =
      .ok (.phasonStartFeedResp .tx ⟨0x05, []⟩ 0x01 [0x07]) := by decide +kernel
theorem test_decode_feed_status_req :
    decCmd ([0x04, 0x07] ++ zeros 24 ++ [0x01, 0x05]) =
      .ok (.phasonFeedStatusReq .tx ⟨0x05, []⟩ [0x07]) := by decide +kernel
theorem test_decode_feed_status_resp :
    decCmd ([0x84, 0x00, 0x07, 0x9E, 0x0F, 0x00, 0x00] ++ zeros 19 ++ [0x01, 0x05]) =
      .ok (.phasonFeedStatusResp .tx ⟨0x05, []⟩ 0x00 [0x07] 3998) := by decide +kernel
theorem test_decode_query_by_uid_req :
    decCmd ([0x1F] ++ uidA.toList ++ zeros 13 ++ [0x01, 0xFF]) =
      .ok (.phasonQueryByUidReq .tx ⟨0xFF, []⟩ uidA) := by decide +kernel
theorem test_decode_query_by_uid_resp :
    decCmd ([0x9F, 0x04] ++ zeros 24 ++ [0x01, 0x05]) =
      .ok (.phasonQueryByUidResp .tx ⟨0x05, []⟩ 0x04) := by decide +kernel

/-- Words that are no instruction, by their names. -/
theorem test_decode_rejects :
    decOp [0x0D] = .error (.reservedSelector 0xD) ∧ decOp [0x00] = .error (.reservedSelector 0x0) ∧
    decOp [] = .error .emptyRequest ∧ decOp [0x22] = .error .reservedBits ∧
    decOp [0x01, 0x00] = .error .operandLength ∧ decOp [0x07, 0x20, 0x00] = .error .reservedBits ∧
    decCmd ([0x7E] ++ zeros 27) = .error (.unknownDiscriminator 0x7E) := by decide +kernel

/-- The table's own words: `match` of an OP, a PULL, a CMD and the FRAME row. -/
theorem test_table_words :
    decodeTableWord 8 0xC = some (.discriminate .rx) ∧
    decodeTableWord 16 0x100 = some .pullRetry ∧
    decodeTableWord 8 0x9F = some (.phasonQueryByUidResp .rx ⟨0x00, []⟩ 0x00) ∧
    decodeTableWord 256 0x550000000000000000000000000000000000000000000000000000000000002A =
      some (.datagram 0x00 0x00 0x00 0x00 (pay [])) := by decide +kernel

/-- A table word placed after reset is what the next step runs. -/
theorem test_with_fetch_word :
    regOf .rx (step (State.reset.withFetchWord 8 0x9F)) =
      regOf .rx (exec (.phasonQueryByUidResp .rx ⟨0x00, []⟩ 0x00) State.reset) ∧
    readerOf (step (State.reset.withFetchWord 16 0x355)) =
      some (.failed .unknown, some (.failed .unknown), 0, false) := by decide +kernel

/-! ## The instructions on the spec's vectors -/

/-- V1, V2's inner steps, V4. -/
theorem test_crc_steps :
    [0x00, 0x01, 0x02, 0x2A, 0x55, 0x80, 0xA1, 0xFF].map (crcByte 0x0000) =
      [0x0000, 0x0700, 0x0E00, 0xD600, 0xAC00, 0x8900, 0x6E00, 0xF300] ∧
    (List.range 9).map (fun n => crcSteps n 0x5500) =
      [0x5500, 0xAA00, 0x5300, 0xA600, 0x4B00, 0x9600, 0x2B00, 0x5600, 0xAC00] ∧
    crcRaw (zeros 32) = 0x00 ∧ crcRaw [] = 0x00 := by decide +kernel

/-- V5. -/
theorem test_init :
    regOf .tx (exec (.init .tx 0x00 0x01 0xA1) State.reset) =
      some ([0x55, 0x00, 0x01, 0xA1, 0x00] ++ zeros 26 ++ [0x2A], true) := by decide +kernel

/-- V5a, V12: the stored field does not enter. -/
theorem test_compute_checksum :
    portOf (exec (.computeChecksum .tx) (holding .tx V5b)) = some (some (.checksum 0x79)) ∧
    portOf (exec (.computeChecksum .rx)
      (holding .rx ([0x55, 0x00, 0x01, 0xA1, 0xFF, 0x04, 0x07] ++ zeros 24 ++ [0x2A]))) =
        some (some (.checksum 0xBF)) := by decide +kernel

/-- V6, V6a. -/
theorem test_set_checksum :
    regOf .tx (exec (.setChecksum .tx) (holding .tx ([0x55] ++ zeros 30 ++ [0x2A]))) =
      some ([0x55, 0x00, 0x00, 0x00, 0x85] ++ zeros 26 ++ [0x2A], true) ∧
    regOf .rx (exec (.setChecksum .rx)
      (holding .rx ([0x55, 0xFF, 0xFF, 0xFF, 0x00] ++ zeros 26 ++ [0x2A]))) =
        some ([0x55, 0xFF, 0xFF, 0xFF, 0x61] ++ zeros 26 ++ [0x2A], true) := by decide +kernel

/-- V7, V9, V10. -/
theorem test_check_checksum :
    portOf (exec (.checkChecksum .tx) (holding .tx V5b)) = some (some (.verdict true)) ∧
    portOf (exec (.checkChecksum .tx) (holding .tx (V20.set 10 0x01))) =
      some (some (.verdict false)) ∧
    portOf (exec (.checkChecksum .tx) (holding .tx (V20.set 4 0xC7))) =
      some (some (.verdict false)) := by decide +kernel

/-- V7. -/
theorem test_as_bytes :
    portOf (exec (.asBytes .tx) (holding .tx V5b)) = some (some (.bytes (dg V5b))) := by
  decide +kernel

/-- V16. -/
theorem test_from_bytes :
    regOf .rx (exec (.fromBytes .rx (dg V5b)) State.reset) = some (V5b, true) := by decide +kernel

/-- V74: payload offset 25 is frame offset 30; offset 26 is not accepted. -/
theorem test_write_payload :
    regOf .tx (exec (.writePayload .tx 25#5 0x7E) (holding .tx V5b)) =
      some (V5b.set 30 0x7E, true) ∧
    refusalOf (exec (.writePayload .tx 26#5 0x00) (holding .tx V5b)) = some (.payloadOffset 26#5) := by
  decide +kernel

/-- R142 from a state after `Ok`: `RX.valid` falls, the cells stay. -/
theorem test_read :
    readerOf (exec (.read 0) { holding .rx V20 with
      rstate := .ok, result := some .ok, cnt := 32 }) = some (.awaitStart, none, 0, false) ∧
    (regOf .rx (exec (.read 0) (holding .rx V20))) = some (V20, false) := by decide +kernel

/-- V20 by the OP form. -/
theorem test_request_to_datagram :
    regOf .tx (exec (.requestToDatagram .tx 0x01 (pay [0x01])) State.reset) = some (V20, true) := by
  decide +kernel

/-- V29 by the OP form. -/
theorem test_response_to_datagram :
    regOf .rx (exec (.responseToDatagram .rx 0x01 (pay [0x9F])) State.reset) =
      some ([0x55, 0x01, 0x00, 0xA1, 0x20, 0x9F, 0x00] ++ zeros 24 ++ [0x2A], true) := by
  decide +kernel

/-- V59: a status with a name and an integer; V55: two's complement. -/
theorem test_from_datagram :
    portOf (exec (.fromDatagram .rx 7#4) (holding .rx
      ([0x55, 0x80, 0x00, 0xA1, 0x74, 0x84, 0x03, 0xFF, 0xD2, 0x04, 0x00, 0x00] ++ zeros 19 ++
        [0x2A]))) =
      some (some (.fields ⟨0x84, ⟨.feedStatusResp, statusFields 0x03 0xFF 1234⟩,
        some .motorError, some 1234⟩)) ∧
    portOf (exec (.fromDatagram .rx 4#4) (holding .rx
      ([0x55, 0x00, 0x01, 0xA1, 0xE4, 0x03, 0xFF, 0x30, 0xF8, 0xFF, 0xFF] ++ zeros 20 ++ [0x2A]))) =
      some (some (.fields ⟨0x03, ⟨.startFeedReq, feedFields 0xFF 0xFFFFF830⟩, none,
        some (-2000)⟩)) := by
  decide +kernel

/-- V65: the wrong type is not noticed; an index above 9 is not accepted. -/
theorem test_from_datagram_unchecked :
    portOf (exec (.fromDatagram .rx 4#4)
      (holding .rx ([0x55, 0x00, 0x01, 0xA1, 0xBF, 0x04, 0x07] ++ zeros 24 ++ [0x2A]))) =
      some (some (.fields ⟨0x04, ⟨.startFeedReq, feedFields 0x07 0⟩, none, some 0⟩)) ∧
    refusalOf (exec (.fromDatagram .rx 10#4) (holding .rx V20)) = some (.messageIndex 10#4) := by
  decide +kernel

/-- V50, V62, V63. -/
theorem test_discriminate :
    portOf (exec (.discriminate .rx) (holding .rx V20)) =
      some (some (.discriminated true 0x01 false (.message .getFeederInfoReq))) ∧
    portOf (exec (.discriminate .rx) (holding .rx (V25.set 3 0x00))) =
      some (some (.discriminated false 0x03 false .notPhason)) ∧
    portOf (exec (.discriminate .rx) (holding .rx (V20.set 5 0x7E))) =
      some (some (.discriminated true 0x7E false .unknown)) := by decide +kernel

/-- V64: the pick of V28a is unknown by default and known where it is configured. -/
theorem test_discriminate_config :
    portOf (exec (.discriminate .rx) (holding .rx (V20.set 5 0x05))) =
      some (some (.discriminated true 0x05 false .unknown)) ∧
    portOf (exec (.discriminate .rx) { holding .rx (V20.set 5 0x05) with cfg := otherDisc }) =
      some (some (.discriminated true 0x05 false (.message .queryByUidReq))) := by decide +kernel

/-- V33, R143, R145, R146. -/
theorem test_pull_byte :
    [exec (.pullByte 0x2A) awaiting, exec (.pullByte 0x55) awaiting,
      exec (.pullByte 0x2A) (inBody 30 V20), exec (.pullByte 0x2A) (inBody 31 V20)].map readerOf =
    [some (.failed .noStartByte, some (.failed .noStartByte), 0, false),
      some (.readingBody, none, 1, false), some (.readingBody, none, 31, false),
      some (.validating, none, 32, false)] := by decide +kernel

/-- V45, V46. -/
theorem test_pull_retry :
    readerOf (exec .pullRetry awaiting) = some (.awaitStart, none, 0, false) ∧
    readerOf (exec .pullRetry (inBody 1 V20)) = some (.readingBody, none, 1, false) := by decide

/-- V38, V41. -/
theorem test_pull_abort :
    readerOf (exec .pullAbort awaiting) =
      some (.failed .aborted, some (.failed .aborted), 0, false) ∧
    readerOf (exec .pullAbort (inBody 31 V20)) =
      some (.failed .aborted, some (.failed .aborted), 31, false) := by decide +kernel

/-- V42, V43. -/
theorem test_pull_other :
    readerOf (exec .pullOther awaiting) =
      some (.failed .unknown, some (.failed .unknown), 0, false) ∧
    readerOf (exec .pullOther (inBody 3 V20)) =
      some (.failed .unknown, some (.failed .unknown), 3, false) := by decide +kernel

/-- V30, V35: the frame word is pulled byte by byte, one a step. -/
theorem test_datagram :
    readerOf (exec (.datagram 0x00 0x01 0xA1 0x47 (pay [0x01])) awaiting) =
      some (.readingBody, none, 1, false) ∧
    readerOf (thenSteps 32 (exec (.datagram 0x00 0x01 0xA1 0x47 (pay [0x01])) awaiting)) =
      some (.ok, some .ok, 32, true) ∧
    readerOf (thenSteps 32
      (exec (.datagram 0x00 0x01 0xA1 0x47 (pay [0x01, 0, 0, 0, 0, 0x01])) awaiting)) =
      some (.failed .badCrc8, some (.failed .badCrc8), 32, false) := by decide +kernel

/-- P3, round 1: a frame after a false start is body bytes; its last byte stays on the stream. -/
theorem test_datagram_after_false_start :
    readerOf (thenSteps 31
      (exec (.datagram 0x01 0x00 0xA1 0x4E (pay (V21.drop 5 |>.take 26))) (inBody 1 [0x55]))) =
      some (.failed .noEndByte, some (.failed .noEndByte), 32, false) := by decide +kernel

/-- V37: 32 bytes without the start sentinel are no frame; the first is consumed and fails the attempt,
and the other 31 are next on the stream. -/
theorem test_not_a_frame :
    readerOf (step { awaiting with stream := [.frame (dg (V20.set 0 0x54))] }) =
      some (.failed .noStartByte, some (.failed .noStartByte), 0, false) ∧
    (nextOfStream Config.default [.frame (dg (V20.set 0 0x54))]).map (fun x => x.2.length) =
      some 31 := by decide +kernel

/-- The validating step: V30, V34, V35a, V36 (the stop byte has priority). -/
theorem test_validating :
    [V20, V20.set 31 0x2B, V20.set 4 0xC7, (V20.set 31 0x00).set 10 0x01].map
      (fun l => readerOf (step (captured l))) =
    [some (.ok, some .ok, 32, true),
      some (.failed .noEndByte, some (.failed .noEndByte), 32, false),
      some (.failed .badCrc8, some (.failed .badCrc8), 32, false),
      some (.failed .noEndByte, some (.failed .noEndByte), 32, false)] := by decide +kernel

theorem test_get_feeder_info_req :
    regOf .tx (exec (.phasonGetFeederInfoReq .tx ⟨0x01, []⟩) State.reset) = some (V20, true) := by
  decide +kernel
theorem test_get_feeder_info_resp :
    regOf .tx (exec
      (.phasonGetFeederInfoResp .tx ⟨0x01, []⟩ 0x00 [0x01] [0x16] [0x03] [0x0E] uidA) State.reset) =
      some (V21, true) := by decide +kernel
/-- V23. -/
theorem test_reset_feeder_req :
    regOf .tx (exec (.phasonResetFeederReq .tx ⟨0x01, []⟩) State.reset) =
      some ([0x55, 0x00, 0x01, 0xA1, 0x05, 0x02] ++ zeros 25 ++ [0x2A], true) := by decide +kernel
/-- V24. -/
theorem test_reset_feeder_resp :
    regOf .tx (exec (.phasonResetFeederResp .tx ⟨0x01, []⟩ 0x00) State.reset) =
      some ([0x55, 0x01, 0x00, 0xA1, 0xF8, 0x82, 0x00] ++ zeros 24 ++ [0x2A], true) := by
  decide +kernel
/-- V25b. -/
theorem test_start_feed_req :
    regOf .tx (exec (.phasonStartFeedReq .tx ⟨0x01, []⟩ [0xFF] (-2000)) State.reset) =
      some ([0x55, 0x00, 0x01, 0xA1, 0xE4, 0x03, 0xFF, 0x30, 0xF8, 0xFF, 0xFF] ++ zeros 20 ++
        [0x2A], true) := by decide +kernel
/-- V25a. -/
theorem test_start_feed_req_big :
    regOf .tx (exec (.phasonStartFeedReq .tx ⟨0x01, []⟩ [0x07] 4000)
      { State.reset with cfg := bigEndian }) =
      some ([0x55, 0x00, 0x01, 0xA1, 0x59, 0x03, 0x07, 0x00, 0x00, 0x0F, 0xA0] ++ zeros 20 ++
        [0x2A], true) := by decide +kernel
/-- V26. -/
theorem test_start_feed_resp :
    regOf .tx (exec (.phasonStartFeedResp .tx ⟨0x01, []⟩ 0x00 [0x07]) State.reset) =
      some ([0x55, 0x01, 0x00, 0xA1, 0x16, 0x83, 0x00, 0x07] ++ zeros 23 ++ [0x2A], true) := by
  decide +kernel
/-- V22. -/
theorem test_feed_status_req :
    regOf .tx (exec (.phasonFeedStatusReq .tx ⟨0x01, []⟩ [0x07]) State.reset) =
      some ([0x55, 0x00, 0x01, 0xA1, 0xBF, 0x04, 0x07] ++ zeros 24 ++ [0x2A], true) := by
  decide +kernel
/-- V27b. -/
theorem test_feed_status_resp :
    regOf .tx (exec (.phasonFeedStatusResp .tx ⟨0x80, []⟩ 0x03 [0xFF] 1234) State.reset) =
      some ([0x55, 0x80, 0x00, 0xA1, 0x74, 0x84, 0x03, 0xFF, 0xD2, 0x04, 0x00, 0x00] ++ zeros 19 ++
        [0x2A], true) := by decide +kernel
/-- V28a. -/
theorem test_query_by_uid_req :
    regOf .tx (exec (.phasonQueryByUidReq .tx ⟨0xFF, []⟩ uidA)
      { State.reset with cfg := otherDisc }) =
      some ([0x55, 0x00, 0xFF, 0xA1, 0xFF, 0x05] ++ uidA.toList ++ zeros 13 ++ [0x2A], true) := by
  decide +kernel
/-- V29. -/
theorem test_query_by_uid_resp :
    regOf .tx (exec (.phasonQueryByUidResp .tx ⟨0x01, []⟩ 0x00) State.reset) =
      some ([0x55, 0x01, 0x00, 0xA1, 0x20, 0x9F, 0x00] ++ zeros 24 ++ [0x2A], true) := by
  decide +kernel

/-- Other layouts (R97, D30): the bytes stand where the layout says, and are found there again, the date
of one field among the further fields of its row. -/
theorem test_other_layout :
    decodeRequest wideSequence
      (.cmd ([0x03, 0xA0, 0x0F, 0x00, 0x00, 0x07, 0x01] ++ zeros 19 ++ [0x01, 0x05])) =
      .ok (.phasonStartFeedReq .tx ⟨0x05, []⟩ [0x07, 0x01] 4000) ∧
    Message.payload wideSequence (.startFeedReq [0x07, 0x01] 4000 []) =
      pay [0x03, 0xA0, 0x0F, 0x00, 0x00, 0x07, 0x01] ∧
    decodeRequest oneDate (.cmd ([0x81, 0x00, 0x01, 0x02, 0x16, 0x03, 0x0E] ++ uidA.toList ++
      zeros 7 ++ [0x00, 0x05])) =
      .ok (.phasonGetFeederInfoResp .rx ⟨0x05, [⟨.firmwareDate, .bytes [0x16, 0x03, 0x0E]⟩]⟩
        0x00 [0x01, 0x02] [] [] [] uidA) := by decide +kernel

/-- V70, V71, V72, V73. -/
theorem test_not_accepted :
    [exec (.checkChecksum .rx) State.reset, exec (.init .tx 0x00 0x01 0xA1) (inBody 3 V20),
      exec (.asBytes .rx) (failedWith .noEndByte 32),
      step { State.reset with requests := [.op [0x0D]] }].map refusalOf =
    [some (.registerInvalid .rx), some .readerBusy, some (.registerInvalid .rx),
      some (.noInstruction (.reservedSelector 0xD))] := by decide +kernel

/-- P2: two bytes of noise, then a frame, on the block itself. -/
def noisy : State := State.reset.feedBytes ([0x00, 0xFF] ++ V21)

/-- P2: 34 pulls, two requests after the first and the validation end in V21 with `OK`; 36 of these 37
are not enough, and after the first two bytes alone the result is `NO_START_BYTE`. -/
theorem test_read_until_start :
    readerOf (readUntilStart 37 0 noisy) = some (.ok, some .ok, 32, true) ∧
    regOf .rx (readUntilStart 37 0 noisy) = some (V21, true) ∧
    readerOf (readUntilStart 36 0 noisy) = some (.validating, none, 32, false) ∧
    readerOf (readUntilStart 3 0 noisy) =
      some (.failed .noStartByte, some (.failed .noStartByte), 0, false) := by decide +kernel

/-! ## Witnesses: for each statement with hypotheses, concrete values that meet them together -/

/-- `exec` answers a next state, computed. -/
def completes (i : Instr) (s : State) : Bool :=
  match exec i s with
  | .next _ => true
  | .fault _ => false
  | .refused _ => false

theorem next_of_completes {i : Instr} {s : State} (h : completes i s = true) :
    ∃ t, exec i s = .next t := by
  unfold completes at h
  split at h
  · exact ⟨_, ‹_›⟩
  · cases h
  · cases h

/-- The frame of V20 with its parts as operands. -/
abbrev frame20 : Datagram := frameBytes 0x00 0x01 0xA1 0x47 (pay [0x01])

theorem test_meets_DecodeOfEncode :
    Config.default.wf ∧ (Instr.writePayload .tx 25#5 0xFF).wf Config.default = true ∧
    (Instr.fromDatagram .rx 9#4).wf Config.default = true ∧
    (Instr.read (2 ^ 32 - 1)).wf Config.default = true ∧
    (Instr.phasonQueryByUidReq .tx ⟨0xFF, []⟩ uidA).wf Config.default = true ∧
    moreInQuery.wf ∧ (Instr.phasonQueryByUidResp .tx
      ⟨0x05, [⟨.other 0, .bytes [0x01, 0x02, 0x03]⟩]⟩ 0x00).wf moreInQuery = true := by
  decide +kernel

theorem test_meets_RequestWordHasOneMeaning :
    decodeRequest Config.default (.op [0x17, 0x19, 0x7E]) = .ok (.writePayload .tx 25#5 0x7E) ∧
    decodeRequest Config.default (.op [0x0B, 0x00]) = .ok (.fromDatagram .rx 0#4) := by decide

theorem test_meets_ReservedSelector :
    let s : State := { State.reset with requests := [.op [0x0D, 0x00], .op [0x0F], .op [0x10]] }
    0xD#4 ∈ Claims.reservedSelectors ∧ s.cfg = Config.default ∧ s.resetPin = false ∧
      s.rstate.busy = false ∧ s.requests =
        .op ((0#3 ++ (BitVec.ofBool false ++ 0xD#4)) :: [0x00]) :: [.op [0x0F], .op [0x10]] := by
  decide +kernel

theorem test_meets_PullWord : Config.default.wf ∧ otherDisc.wf := by decide

theorem test_meets_ChecksumIsLinear : V20.length = V21.length := by decide

/-- For CheckAfterSet, ComputeAndCheck, SetChecksum, AsBytes: either register, terminal reader. -/
theorem test_meets_valid_register :
    (holding .rx V20).rstate.busy = false ∧ ((holding .rx V20).reg .rx).valid = true ∧
    (holding .tx V25).rstate.busy = false ∧ ((holding .tx V25).reg .tx).valid = true := by decide

theorem test_meets_EverySingleBitFlip :
    checkChecksum (dg V20) = true ∧ 31 < 32 ∧ 7 < 8 := by decide +kernel

theorem test_meets_ADoubleBitFlip : checkChecksum (dg V5b) = true := by decide +kernel

theorem test_meets_OneCorruptedPayloadByte :
    awaiting.cfg.wf ∧ awaiting.resetPin = false ∧
    awaiting.rstate = .awaitStart ∧ awaiting.cnt = 0#6 ∧ checkChecksum frame20 = true ∧
    (0x02#8 ≠ (pay [0x01])[(0 : Fin 26)]) ∧ (0x02#8 ≠ (pay [0x01])[(25 : Fin 26)]) := by
  decide +kernel

/-- For InitWrites, FromBytes, Build, RequestToDatagram, ResponseToDatagram, ReadStarts: every kind of
terminal state. -/
theorem test_meets_terminal :
    State.reset.rstate.busy = false ∧ (failedWith .aborted 3).rstate.busy = false ∧
    ({ holding .rx V20 with rstate := .ok } : State).rstate.busy = false := by decide

theorem test_meets_WritePayload :
    (holding .tx V20).rstate.busy = false ∧ ((holding .tx V20).reg .tx).valid = true ∧
    (0#5).toNat ≤ 25 ∧ (25#5).toNat ≤ 25 := by decide

/-- The inner state differs from the outer one outside the payload only. -/
theorem test_meets_FromDatagramIsATotalView :
    let s := holding .rx V20
    let s' := holding .rx ((V20.set 0 0x00).set 4 0xFF)
    s.rstate.busy = false ∧ (s.reg .rx).valid = true ∧ (0#4).toNat ≤ 9 ∧ (9#4).toNat ≤ 9 ∧
      s'.rstate.busy = false ∧ (s'.reg .rx).valid = true ∧ s'.cfg = s.cfg ∧
      ∀ o : Fin 32, 5 ≤ o.val → o.val ≤ 30 → (s'.reg .rx).cells[o] = (s.reg .rx).cells[o] := by
  decide +kernel

/-- For FromDatagramFields and ViewNamesStatus, either byte order and either signedness, and the boundary
status bytes 4 and 5. -/
theorem test_meets_default_view :
    (holding .tx V21).rstate.busy = false ∧ (holding .tx V21).reg .tx = ⟨dg V21, true⟩ ∧
    (holding .tx V21).cfg = { Config.default with intOrder := .little } ∧
    (holding .tx V21).cfg =
      { Config.default with intOrder := .little, micrometersSigned := true } ∧
    bigEndian = { Config.default with intOrder := .big, micrometersSigned := true } ∧
    (holding .tx (V21.set 6 0x04)).reg .tx = ⟨dg (V21.set 6 0x04), true⟩ ∧
    (holding .tx (V21.set 6 0x05)).reg .tx = ⟨dg (V21.set 6 0x05), true⟩ := by decide +kernel

/-- One register for each kind of Discriminate: a type, unknown, foreign. -/
theorem test_meets_Discriminate :
    (holding .rx V20).rstate.busy = false ∧ (holding .rx V20).reg .rx = ⟨dg V20, true⟩ ∧
    (holding .rx V20).cfg.wf ∧ kindOf Config.default (dg V20) = .message .getFeederInfoReq ∧
    kindOf Config.default (dg (V20.set 5 0x7E)) = .unknown ∧
    kindOf Config.default (dg (V20.set 3 0x00)) = .notPhason := by decide +kernel

/-- For RequestMessages, ResponseMessages and MessageSurvives. -/
theorem test_meets_messages :
    State.reset.rstate.busy = false ∧
    State.reset.cfg = { Config.default with intOrder := .little } ∧
    bigEndian = { Config.default with intOrder := .big } ∧ State.reset.cfg.wf ∧ bigEndian.wf ∧
    Message.fits State.reset.cfg ⟨.startFeedReq, feedFields 0x07 4000⟩ = true ∧
    Message.fits wideSequence
      ⟨.startFeedReq, [⟨.micrometers, .int 4000⟩, ⟨.sequence, .bytes [0x07, 0x01]⟩]⟩ = true := by
  decide +kernel

/-- A message that fits, a canonical payload of type 5, and one with a padding byte that is not zero;
offset 1 is in a field and offset 3 in none. -/
theorem test_meets_Reencoding :
    Config.default.wf ∧
    Message.fits Config.default ⟨.startFeedResp, [b1 .status 0x01, b1 .sequence 0x07]⟩ = true ∧
    (Config.default.slotAt .startFeedResp 1).isSome ∧
    Config.default.slotAt .startFeedResp 3 = none ∧
    (messageOf Config.default .startFeedResp (pay [0x83, 0x01, 0x07])).payload Config.default =
      pay [0x83, 0x01, 0x07] ∧
    (messageOf Config.default .startFeedResp (pay [0x83, 0x01, 0x07, 0xFF])).payload
      Config.default ≠ pay [0x83, 0x01, 0x07, 0xFF] := by decide +kernel

theorem test_meets_StartSentinel : awaiting.rstate = .awaitStart ∧ awaiting.cnt = 0#6 := by decide

theorem test_meets_OtherFirstByte : awaiting.rstate = .awaitStart ∧ 0x54#8 ≠ 0x55#8 := by decide

/-- The ends of the range: 1, 30 and 31 stored bytes. -/
theorem test_meets_BodyByte :
    (inBody 1 V20).rstate = .readingBody ∧ (inBody 1 V20).cnt = BitVec.ofNat 6 1 ∧
    (inBody 30 V20).rstate = .readingBody ∧ (inBody 30 V20).cnt = BitVec.ofNat 6 30 ∧
    (inBody 31 V20).rstate = .readingBody ∧ (inBody 31 V20).cnt = BitVec.ofNat 6 31 := by decide

/-- For RetryChangesNothing and AbortAndOther: both pulling states. -/
theorem test_meets_pulling :
    (awaiting.rstate = .awaitStart ∨ awaiting.rstate = .readingBody) ∧
    ((inBody 31 V20).rstate = .awaitStart ∨ (inBody 31 V20).rstate = .readingBody) := by decide

/-- One captured frame for each of the three clauses. -/
theorem test_meets_Validating :
    (captured V20).resetPin = false ∧ (captured V20).rstate = .validating ∧
    (captured (V20.set 31 0x2B)).rx.cells[31] ≠ 0x2A#8 ∧
    (captured (V20.set 10 0x01)).rx.cells[31] = 0x2A#8 ∧
    checkChecksum (captured (V20.set 10 0x01)).rx.cells = false ∧
    (captured V20).rx.cells[31] = 0x2A#8 ∧ checkChecksum (captured V20).rx.cells = true := by
  decide +kernel

/-- V20's checksum for the first clause, its neighbour for the second. -/
theorem test_meets_FrameIsRead :
    awaiting.cfg.wf ∧ awaiting.resetPin = false ∧ awaiting.rstate = .awaitStart ∧ awaiting.cnt = 0#6 ∧
    0x47#8 = crcRaw ([0x55#8, 0x00, 0x01, 0xA1, 0x00#8] ++ (pay [0x01]).toList ++ [0x2A#8]) ∧
    0x48#8 ≠ crcRaw ([0x55#8, 0x00, 0x01, 0xA1, 0x00#8] ++ (pay [0x01]).toList ++ [0x2A#8]) := by
  decide +kernel

theorem test_meets_FrameInsideAnAttempt :
    (inBody 1 V20).cfg.wf ∧ (inBody 1 V20).resetPin = false ∧ 1 ≤ (1 : Fin 32).val ∧ (inBody 1 V20).rstate = .readingBody ∧
    (inBody 1 V20).cnt = BitVec.ofNat 6 (1 : Fin 32).val ∧
    1 ≤ (31 : Fin 32).val ∧ (inBody 31 V20).rstate = .readingBody ∧
    (inBody 31 V20).cnt = BitVec.ofNat 6 (31 : Fin 32).val := by decide +kernel

theorem test_meets_NothingIsPulled :
    State.reset.rstate.pulling = false ∧ (captured V20).rstate.pulling = false ∧
    (failedWith .unknown 0).rstate.pulling = false := by decide

theorem test_meets_AttemptAgrees :
    let rs := V20.map PullResult.byte
    let s : State := { awaiting with stream := rs.map (pullWord Config.default) }
    s.cfg.wf ∧ s.rstate = .awaitStart ∧ s.cnt = 0#6 ∧ s.result = none ∧ s.resetPin = false ∧
      s.stream = rs.map (pullWord s.cfg) := by decide +kernel

/-- Pull results for both clauses of AttemptAgrees: `OK`, `ABORTED`, and no result. -/
theorem test_meets_AttemptAgrees_clauses :
    readAttempt (V20.map PullResult.byte) = some (.ok, some (dg V20), []) ∧
    readAttempt [.byte 0x55, .abort, .retry] = some (.failed .aborted, none, [.retry]) ∧
    readAttempt [.retry, .byte 0x55] = none := by decide +kernel

theorem test_meets_FrameWordSteps :
    awaiting.cfg.wf ∧ awaiting.resetPin = false ∧ awaiting.rstate.pulling = true ∧
    (inBody 31 V20).cfg.wf ∧ (inBody 31 V20).resetPin = false ∧
    (inBody 31 V20).rstate.pulling = true := by decide +kernel

theorem test_meets_RetriesHang :
    let s : State := { awaiting with
      stream := List.replicate 3 (pullWord Config.default .retry) ++ [.pull 0x355#10] }
    s.cfg.wf ∧ s.resetPin = false ∧ (s.rstate = .awaitStart ∨ s.rstate = .readingBody) ∧
      s.stream = List.replicate 3 (pullWord s.cfg .retry) ++ [.pull 0x355#10] := by decide +kernel

theorem test_meets_Loopback :
    (holding .tx V20).cfg.wf ∧ (holding .tx V20).resetPin = false ∧
    (holding .tx V20).rstate.busy = false ∧ (holding .tx V20).tx.valid = true ∧
    validFrame (holding .tx V20).tx.cells = true := by decide +kernel

/-- One request that is accepted, and one turned away by each of R113's conditions. -/
theorem test_meets_RequestRuns :
    (Instr.writePayload .tx 25#5 0x00).isRequest = true ∧
    completes (.writePayload .tx 25#5 0x00) (holding .tx V20) = true ∧
    completes (.writePayload .tx 26#5 0x00) (holding .tx V20) = false ∧
    completes (.writePayload .rx 25#5 0x00) (holding .tx V20) = false ∧
    completes (.init .tx 0x00 0x01 0xA1) awaiting = false := by decide +kernel

theorem test_meets_BusyReader :
    (Instr.read 0).isRequest = true ∧ awaiting.rstate.busy = true ∧
    (captured V20).rstate.busy = true := by decide

theorem test_meets_EveryPullAnswer :
    (Instr.pullByte 0x55).isRequest = false ∧
    (Instr.datagram 0x00 0x01 0xA1 0x47 (pay [0x01])).isRequest = false := by decide

theorem test_meets_StepRunsRequest :
    let s : State := { State.reset with requests := [.op [0x11, 0x00, 0x01, 0xA1]] }
    s.resetPin = false ∧ s.rstate.busy = false ∧ s.requests = .op [0x11, 0x00, 0x01, 0xA1] :: [] ∧
      decodeRequest s.cfg (.op [0x11, 0x00, 0x01, 0xA1]) = .ok (.init .tx 0x00 0x01 0xA1) := by
  decide +kernel

/-- A stream with a frame ready, one with a pull word ready, and an empty one. -/
theorem test_meets_StepRunsPull :
    let s : State := { awaiting with stream := [.frame frame20] }
    let s' : State := { inBody 31 V20 with stream := [.pull 0x02A#10] }
    s.resetPin = false ∧ s.rstate.pulling = true ∧ s.stream = .frame frame20 :: [] ∧
      decodeStream s.cfg (.frame frame20) = .ok (.datagram 0x00 0x01 0xA1 0x47 (pay [0x01])) ∧
      s'.resetPin = false ∧ s'.rstate.pulling = true ∧ s'.stream = .pull 0x02A#10 :: [] ∧
      decodeStream s'.cfg (.pull 0x02A#10) = .ok (.pullByte 0x2A) ∧
      awaiting.stream = [] := by decide +kernel

/-- The clause of StepRunsTheDecodedPull about 32 bytes that are no frame: either sentinel missing. -/
theorem test_meets_StepRunsPull_noFrame :
    let s : State := { awaiting with stream := [.frame (dg (V20.set 0 0x54))] }
    let s' : State := { inBody 31 V20 with stream := [.frame (dg (V20.set 31 0x2B))] }
    s.resetPin = false ∧ s.rstate.pulling = true ∧ s.stream = .frame (dg (V20.set 0 0x54)) :: [] ∧
      (dg (V20.set 0 0x54))[0] ≠ 0x55#8 ∧ s'.resetPin = false ∧ s'.rstate.pulling = true ∧
      s'.stream = .frame (dg (V20.set 31 0x2B)) :: [] ∧ (dg (V20.set 31 0x2B))[31] ≠ 0x2A#8 := by
  decide +kernel

theorem test_meets_TerminalBlock :
    State.reset.resetPin = false ∧ State.reset.rstate.busy = false ∧ State.reset.requests = [] := by
  decide

/-- Reset in mid-attempt. -/
theorem test_meets_Reset : ({ inBody 17 V20 with resetPin := true } : State).resetPin = true := by
  decide

/-- The invariant at a captured frame, from which the next step ends `Ok`, and one that it fails. -/
theorem test_meets_invariant :
    (captured V20).Inv ∧ (captured (V20.set 10 0x01)).Inv ∧
    (∃ t, step (captured V20) = .next t ∧ (captured V20).rstate.busy = true ∧ t.rstate = .ok) ∧
    ∃ t, step (captured (V20.set 10 0x01)) = .next t ∧ t.rstate ≠ .ok := by
  refine ⟨⟨?_, ?_, ?_, ?_, ?_, ?_⟩, ⟨?_, ?_, ?_, ?_, ?_, ?_⟩, ⟨(captured V20).validate, rfl, ?_, ?_⟩,
    ⟨(captured (V20.set 10 0x01)).validate, rfl, ?_⟩⟩ <;> decide +kernel

/-- A reading operation on the invalid `RX` (the second clause of NoPartialDatagramIsExposed). -/
theorem test_meets_NoPartialDatagram :
    (Instr.asBytes .rx).readsReg = some .rx ∧ (failedWith .noEndByte 32).rx.valid = false := by
  decide

/-- For OnlyReadWritesCtx, RegistersChange, OnlyAsBytes, OutputPorts, ResultStays: instructions that
complete, one for each clause. -/
theorem test_meets_exec_next :
    (∃ t, exec (.read 5) State.reset = .next t) ∧
    (∃ t, exec (.asBytes .tx) (holding .tx V20) = .next t) ∧
    (∃ t, exec (.setChecksum .tx) (holding .tx V20) = .next t) ∧
    (∃ t, exec (.pullByte 0x55) awaiting = .next t) ∧
    (Instr.setChecksum .tx).writesReg = some .tx ∧ (Instr.asBytes .tx).writesReg = none ∧
    (Instr.pullByte 0x55).isRequest = false ∧ (Instr.asBytes .tx).isRequest = true ∧
    (∀ ctx, Instr.asBytes .tx ≠ .read ctx) ∧ (∀ d, Instr.setChecksum .tx ≠ .asBytes d) :=
  ⟨next_of_completes (by decide +kernel), next_of_completes (by decide +kernel),
    next_of_completes (by decide +kernel), next_of_completes (by decide +kernel), rfl, rfl, rfl, rfl,
    fun _ h => (by cases h), fun _ h => (by cases h)⟩

end Sys2Proof.Tests
end

section
/-! PROOFS for the family 00_scope.md: a step is one pull of the answer the byte source has ready, or
one request (R13). A frame word on the receive stream steps as its bytes whether or not its sentinels
stand. -/

namespace Sys2Proof.Machine

/-! ## A datagram whose sentinels stand -/

/-- A datagram whose sentinels stand is the frame of its own header and payload (R80, R81). -/
theorem frameBytes_of_sentinels {d : Datagram} (h : d[0] = START ∧ d[31] = STOP) :
    frameBytes d[1] d[2] d[3] d[4] (payloadOf d) = d := by
  obtain ⟨h0, h31⟩ := h
  obtain ⟨haddr1, haddr2⟩ := frameBytes_addresses d[1] d[2] d[3] d[4] (payloadOf d)
  ext1 i hi
  by_cases hpay : 5 ≤ i ∧ i < 31
  · obtain ⟨k, rfl⟩ : ∃ k, i = k + 5 := ⟨i - 5, by omega⟩
    have hk : k < 26 := by omega
    rw [← payloadByte_payloadOf _ hk, payloadOf_frameBytes, payloadByte_payloadOf _ hk]
  · obtain rfl | rfl | rfl | rfl | rfl | rfl :
        i = 0 ∨ i = 1 ∨ i = 2 ∨ i = 3 ∨ i = 4 ∨ i = 31 := by omega
    · rw [frameBytes_start, h0]
    · exact haddr1
    · exact haddr2
    · exact frameBytes_proto ..
    · exact frameBytes_checksum ..
    · rw [frameBytes_stop, h31]

theorem decodeStream_frame_of_sentinels {d : Datagram} (c : Config)
    (h : d[0] = START ∧ d[31] = STOP) :
    decodeStream c (.frame d) = .ok (.datagram d[1] d[2] d[3] d[4] (payloadOf d)) := if_pos h

theorem decodeFrame_of_no_sentinels {d : Datagram} (h : ¬(d[0] = START ∧ d[31] = STOP)) :
    decodeFrame d = .error .notSentinel := if_neg h

/-- The DATAGRAM of a datagram whose sentinels stand offers that datagram to the block. -/
theorem exec_datagram_of_sentinels {d : Datagram} (h : d[0] = START ∧ d[31] = STOP) (s : State) :
    exec (.datagram d[1] d[2] d[3] d[4] (payloadOf d)) s = offerFrame d s :=
  congrArg (offerFrame · s) (frameBytes_of_sentinels h)

/-! ## The word the receive stream has ready -/

/-- A word that decodes is the next instruction of the stream. -/
theorem nextOfStream_of_decodeStream {c : Config} {w : StreamWord} {i : Instr}
    (rest : List StreamWord) (h : decodeStream c w = .ok i) :
    nextOfStream c (w :: rest) = some (.ok i, rest) := by
  cases w with
  | pull w => rw [nextOfStream, h]
  | frame d =>
    have hd : decodeFrame d = .ok i := h
    simp only [nextOfStream, hd]

/-- A frame word without both sentinels is its first byte, the others behind it (R81; assumption 5). -/
theorem nextOfStream_of_no_sentinels {d : Datagram} (c : Config) (rest : List StreamWord)
    (h : ¬(d[0] = START ∧ d[31] = STOP)) :
    nextOfStream c (.frame d :: rest) = some (.ok (.pullByte d[0]), frameRest c d ++ rest) := by
  simp only [nextOfStream, decodeFrame_of_no_sentinels h]

/-! ## The step of a pulling attempt -/

section
variable {s : State} (hr : s.resetPin = false) (hp : s.rstate.pulling = true)
include hr hp

/-- A pulling step runs the next instruction of the stream at the stream behind it. -/
theorem step_of_nextOfStream {i : Instr} {rest : List StreamWord}
    (h : nextOfStream s.cfg s.stream = some (.ok i, rest)) :
    step s = exec i { s with stream := rest } := by
  rw [step_of_pulling hr hp, pullStep, h]

/-- With nothing ready a pulling step waits, presenting `CTX` (R52). -/
theorem step_of_emptyStream (h : s.stream = []) : step s = .next s.pulled := by
  rw [step_of_pulling hr hp, pullStep, h]
  rfl

/-- Whatever the bytes of a frame word, a pulling step takes its first byte and leaves the others
next on the stream: a frame with its sentinels as DATAGRAM, any other as a pulled byte. -/
theorem step_of_frameWord {d : Datagram} {rest : List StreamWord}
    (hs : s.stream = .frame d :: rest) :
    step s = .next ({ s with stream := frameRest s.cfg d ++ rest }.takeByte d[0]) := by
  by_cases hd : d[0] = START ∧ d[31] = STOP
  · have hnext : nextOfStream s.cfg s.stream = _ :=
      hs ▸ nextOfStream_of_decodeStream rest (decodeStream_frame_of_sentinels s.cfg hd)
    rw [step_of_nextOfStream hr hp hnext, exec_datagram_of_sentinels hd]
    exact offerFrame_pulling (s := { s with stream := rest }) hp
  · rw [step_of_nextOfStream hr hp (hs ▸ nextOfStream_of_no_sentinels s.cfg rest hd)]
    exact offer_pulling (s := { s with stream := frameRest s.cfg d ++ rest }) hp

end

/-- The bytes of a datagram as pull words: the first, then the rest of the frame. -/
theorem pullWords_eq_cons (c : Config) (d : Datagram) :
    d.toList.map (fun b => pullWord c (.byte b)) = pullWord c (.byte d[0]) :: frameRest c d := by
  rw [toList_eq_cons, List.map_cons, frameRest]

/-! ## The statements -/

/-- Settles O41: either word gives the state that took the first byte with the other 31 next on the
stream. -/
theorem frameWordStepsAsItsBytes : Obligations.FrameWordStepsAsItsBytes := by
  intro s g rest hw hr hp
  have hframe := step_of_frameWord (s := { s with stream := .frame g :: rest }) hr hp rfl
  have hbytes := step_of_pullWord
    (s := { s with stream := g.toList.map (fun b => pullWord s.cfg (.byte b)) ++ rest })
    (r := .byte g[0]) (rest := frameRest s.cfg g ++ rest) hw hr hp
    (by rw [pullWords_eq_cons, List.cons_append])
  exact hframe.trans hbytes.symm

/-- Settles O47: a terminal reader's step is its request step. -/
theorem stepRunsTheDecodedRequest : Obligations.StepRunsTheDecodedRequest := by
  intro s w rest i hr hb hs hd
  rw [step_of_terminal hr hb, requestStep, hs]
  simp only [hd]

/-- Settles O48: a word that decodes, a frame word without both sentinels, and an empty stream are
the three answers `nextOfStream` has. -/
theorem stepRunsTheDecodedPull : Obligations.StepRunsTheDecodedPull := by
  intro s rest hr hp
  refine ⟨fun w i hs hd => ?_, fun g hs hg => ?_, fun hs => step_of_emptyStream hr hp hs⟩
  · exact step_of_nextOfStream hr hp (hs ▸ nextOfStream_of_decodeStream rest hd)
  · exact step_of_nextOfStream hr hp
      (hs ▸ nextOfStream_of_no_sentinels s.cfg rest (not_and_or.mpr hg))

end Sys2Proof.Machine
end

section
/-! PROOFS for the family 10_state.md: the invariant of the block holds after reset and every step
keeps it (R22, R25 to R27, R29); what an instruction leaves of `CTX`, the datagram registers and the
result (R20, R23, R27 to R29); reset (R40). -/

namespace Sys2Proof.Machine

/-! ## What a request that is taken leaves unchanged -/

/-- `READ` starts an attempt; it can do nothing else (R142). -/
theorem exec_read {x : Ctx} {s t : State} (h : exec (.read x) s = .next t) :
    s.rstate.busy = false ∧ t = s.startRead x := by
  obtain ⟨hb, hk⟩ := accepting_next.mp h
  injection hk with hk
  exact ⟨hb, hk.symm⟩

namespace RequestEffect

variable {i : Instr} {s t : State} (h : RequestEffect s i t)
include h

/-- A request but `READ` changes none of the reader's registers (R27, R151). -/
theorem sameReader (hr : ∀ x, i ≠ .read x) : SameReader s t := by
  cases h with
  | write | cell => exact ⟨by simp, by simp, by simp, by simp⟩
  | answer | output => exact ⟨rfl, rfl, rfl, rfl⟩
  | start x => exact absurd rfl (hr x)

/-- No request changes the configuration or what waits at the ports (R7). -/
theorem sameInputs : SameInputs s t := by
  cases h with
  | write | cell => exact ⟨by simp, by simp, by simp, by simp⟩
  | answer | output | start => exact ⟨rfl, rfl, rfl, rfl⟩

/-- A request leaves the register it does not name alone (R20, R23). -/
theorem reg_other {d : DReg} (hd : i.writesReg = some d) : t.reg d.other = s.reg d.other := by
  cases h with
  | write _ d' _ hw | cell _ d' _ _ hw =>
    obtain rfl : d' = d := Option.some.inj (hw.symm.trans hd)
    simp
  | answer _ _ hn => exact absurd (hn.symm.trans hd) nofun
  | output | start => cases hd

/-- A request but `READ` that writes no register leaves both alone (R23). -/
theorem sameRegs (hn : i.writesReg = none) (hr : ∀ x, i ≠ .read x) : SameRegs s t := by
  cases h with
  | write _ _ _ hw | cell _ _ _ _ hw => exact absurd (hn.symm.trans hw) nofun
  | answer | output => exact ⟨rfl, rfl⟩
  | start x => exact absurd rfl (hr x)

/-- After a request but `READ`, `RX` is readable if it was before (R22). -/
theorem rx_valid (hr : ∀ x, i ≠ .read x) (hv : s.rx.valid = true) : t.rx.valid = true := by
  cases h with
  | write _ d => cases d with
    | rx => rfl
    | tx => exact hv
  | cell _ d => cases d <;> exact hv
  | answer | output => exact hv
  | start x => exact absurd rfl (hr x)

end RequestEffect

/-- What writes a whole register or a cell by name is a request (R23). -/
theorem isRequest_of_writesReg {i : Instr} {d : DReg} (hd : i.writesReg = some d) :
    i.isRequest = true := by cases i <;> cases hd <;> rfl

/-! ## The reading operations -/

/-- An operation that reads a register asks for its valid flag before anything else (R113). -/
theorem exec_eq_reading {i : Instr} {d : DReg} (hd : i.readsReg = some d) (s : State) :
    ∃ k, exec i s = reading d s k := by
  cases i <;> cases hd <;> rw [exec] <;> exact ⟨_, rfl⟩

/-- An operation that reads a register has a next state only where the register is valid (R113). -/
theorem valid_of_readsReg {i : Instr} {d : DReg} {s t : State} (hd : i.readsReg = some d)
    (h : exec i s = .next t) : (s.reg d).valid = true := by
  obtain ⟨k, hk⟩ := exec_eq_reading hd s
  obtain ⟨-, hv, -⟩ := reading_next.mp (hk.symm.trans h)
  exact hv

/-! ## What a pull leaves of `RX` -/

theorem takePull_valid (r : PullResult) (s : State) : (s.takePull r).rx.valid = s.rx.valid := by
  cases r with
  | byte b => exact takeByte_valid b s
  | retry | abort | other => rfl

/-! ## The reader states -/

namespace RState

/-- The two states in which the block pulls (R50). -/
theorem eq_of_pulling {r : RState} (h : r.pulling = true) : r = .awaitStart ∨ r = .readingBody := by
  cases r with
  | awaitStart => exact .inl rfl
  | readingBody => exact .inr rfl
  | idle | validating | ok | failed => cases h

theorem busy_of_pulling {r : RState} (h : r.pulling = true) : r.busy = true := by
  rcases eq_of_pulling h with rfl | rfl <;> rfl

theorem result_of_pulling {r : RState} (h : r.pulling = true) : r.result = none := by
  rcases eq_of_pulling h with rfl | rfl <;> rfl

theorem started_of_terminal {r : RState} (h : r.busy = false) : r.started = false := by
  cases r with
  | idle | ok | failed => rfl
  | awaitStart | readingBody | validating => cases h

end RState

theorem afterStored_result (n : Nat) : (afterStored n).result = none := by
  unfold afterStored; split <;> rfl

theorem afterStored_ne_ok (n : Nat) : afterStored n ≠ .ok := by
  unfold afterStored; split <;> exact nofun

/-- `CNT` fits the reader state after each of the 32 bytes (R25). -/
theorem afterStored_cntOk {n : Nat} (h : n < 32) : (afterStored (n + 1)).cntOk (n + 1) = true := by
  unfold afterStored
  split
  · next hn => rw [hn]; rfl
  · exact decide_eq_true (by omega)

/-! ## The invariant

It speaks of the reader's registers, `RX` and the width of `CTX`; each lemma below is one way a step
can change them. -/

/-- An idle reader with nothing counted or resulting, whatever its registers hold. -/
theorem State.Inv.of_idle {s : State} (hs : s.rstate = .idle) (hn : s.cnt = 0#6)
    (hr : s.result = none) (hx : s.ctx = 0) : s.Inv where
  result_eq := by rw [hs, hr]; rfl
  cnt_ok := by rw [hs, hn]; rfl
  busy_invalid h := by rw [hs] at h; cases h
  start_held h := by rw [hs] at h; cases h
  ok_valid h := by rw [hs] at h; cases h
  ctx_fits := by rw [hx]; exact Nat.two_pow_pos _

/-- A failure, raised by a pull or by the validating step, keeps the invariant if `CNT` fits it
(R216). -/
theorem State.Inv.raise {s : State} (h : s.Inv) {k : Failure}
    (hn : (RState.failed k).cntOk s.cnt.toNat = true) : (s.raise k).Inv where
  result_eq := rfl
  cnt_ok := hn
  busy_invalid := nofun
  start_held := nofun
  ok_valid := nofun
  ctx_fits := h.ctx_fits

/-- `READ` starts an attempt with nothing stored and `RX` invalid (R142). -/
theorem State.Inv.startRead {s : State} {x : Ctx} (hx : x < 2 ^ s.cfg.ctxW) :
    (s.startRead x).Inv where
  result_eq := rfl
  cnt_ok := rfl
  busy_invalid _ := rfl
  start_held := nofun
  ok_valid := nofun
  ctx_fits := hx

namespace State.Inv

variable {s t : State} (h : s.Inv)
include h

/-- The invariant looks at nothing but the reader's registers, `RX` and the configuration. -/
theorem congr (hreader : SameReader s t) (hrx : t.rx = s.rx) (hcfg : t.cfg = s.cfg) : t.Inv := by
  obtain ⟨hcnt, hrstate, hresult, hctx⟩ := hreader
  constructor
  · rw [hresult, hrstate, h.result_eq]
  · rw [hrstate, hcnt, h.cnt_ok]
  · rw [hrstate, hrx]; exact h.busy_invalid
  · rw [hrstate]; simpa only [hrx] using h.start_held
  · rw [hrstate, hrx]; exact h.ok_valid
  · rw [hctx, hcfg]; exact h.ctx_fits

theorem cnt_of_awaitStart (hs : s.rstate = .awaitStart) : s.cnt.toNat = 0 := by
  simpa [hs, RState.cntOk] using h.cnt_ok

theorem cnt_of_readingBody (hs : s.rstate = .readingBody) :
    1 ≤ s.cnt.toNat ∧ s.cnt.toNat ≤ 31 := by
  simpa [hs, RState.cntOk] using h.cnt_ok

theorem cnt_of_validating (hs : s.rstate = .validating) : s.cnt.toNat = 32 := by
  simpa [hs, RState.cntOk] using h.cnt_ok

/-- What a request but `READ` does: it is taken in a terminal state, leaves the reader's registers
as they are, and leaves `RX` readable if it was. -/
theorem of_terminal (hb : s.rstate.busy = false) (hreader : SameReader s t) (hcfg : t.cfg = s.cfg)
    (hvalid : s.rx.valid = true → t.rx.valid = true) : t.Inv := by
  obtain ⟨hcnt, hrstate, hresult, hctx⟩ := hreader
  constructor
  · rw [hresult, hrstate, h.result_eq]
  · rw [hrstate, hcnt, h.cnt_ok]
  · rw [hrstate, hb]; exact nofun
  · rw [hrstate, RState.started_of_terminal hb]; exact nofun
  · rw [hrstate]; exact fun hok => hvalid (h.ok_valid hok)
  · rw [hctx, hcfg]; exact h.ctx_fits

/-- The validating step has 32 bytes before it, which is what `CNT` is after every verdict (R150). -/
theorem validate (hv : s.rstate = .validating) : s.validate.Inv := by
  have hcnt := h.cnt_of_validating hv
  rcases validate_cases s with ⟨-, ht⟩ | ⟨k, hk, ht⟩ <;> rw [ht]
  · exact ⟨rfl, by simp [RState.cntOk, hcnt], nofun, nofun, fun _ => rfl, h.ctx_fits⟩
  · have hfit : (RState.failed k).cntOk 32 = true := by
      rcases verdictOf_cases s.rx.cells with ⟨hd, -⟩ | ⟨hd, -⟩ | ⟨hd, -⟩ <;>
        rw [hk] at hd <;> cases hd <;> rfl
    have hquiet : s.quiet.Inv := h.congr ⟨rfl, rfl, rfl, rfl⟩ rfl rfl
    exact hquiet.raise (by rw [State.quiet_cnt, hcnt, hfit])

/-! ### Pulls -/

section
variable (hp : s.rstate.pulling = true)
include hp

/-- In a pulling state fewer than 32 bytes are stored (R25). -/
theorem cnt_lt_of_pulling : s.cnt.toNat < 32 := by
  rcases RState.eq_of_pulling hp with hs | hs
  · have hcnt := h.cnt_of_awaitStart hs
    omega
  · have hcnt := h.cnt_of_readingBody hs
    omega

/-- The byte stored next leaves the start sentinel in cell 0, or puts it there (R143, R145). -/
theorem start_held_storeByte {b : Byte} (hstart : s.rstate = .awaitStart → b = START) :
    (s.rx.cells.setIfInBounds s.cnt.toNat b)[0] = START := by
  rcases RState.eq_of_pulling hp with hs | hs
  · simp [h.cnt_of_awaitStart hs, hstart hs]
  · obtain ⟨hpos, -⟩ := h.cnt_of_readingBody hs
    rw [Vector.getElem_setIfInBounds_ne _ (by omega)]
    exact h.start_held (by rw [hs]; rfl)

/-- A byte stored in an attempt keeps the invariant, if the first one is the start sentinel. -/
theorem storeByte {b : Byte} (hstart : s.rstate = .awaitStart → b = START) :
    (s.pulled.storeByte b).Inv := by
  have hlt := h.cnt_lt_of_pulling hp
  constructor
  · simp [h.result_eq, RState.result_of_pulling hp, afterStored_result]
  · rw [State.storeByte_rstate, State.pulled_cnt, Machine.storeByte_cnt b hlt]
    exact afterStored_cntOk hlt
  · exact fun _ => h.busy_invalid (RState.busy_of_pulling hp)
  · exact fun _ => h.start_held_storeByte hp hstart
  · exact fun hok => absurd hok (afterStored_ne_ok _)
  · exact h.ctx_fits

/-- Every answer of the byte source to a pull keeps the invariant (R143 to R149). -/
theorem takePull (r : PullResult) : (s.takePull r).Inv := by
  have hpulled : s.pulled.Inv := h.congr ⟨rfl, rfl, rfl, rfl⟩ rfl rfl
  have hle : s.cnt.toNat ≤ 31 := Nat.le_of_lt_succ (h.cnt_lt_of_pulling hp)
  cases r with
  | byte b =>
    change (s.takeByte b).Inv
    rcases takeByte_cases b s with ⟨hs, -, ht⟩ | ⟨hb, ht⟩ <;> rw [ht]
    · have hcnt := h.cnt_of_awaitStart hs
      exact hpulled.raise (by rw [State.pulled_cnt, hcnt]; rfl)
    · have hstart : s.rstate = .awaitStart → b = START :=
        fun hs => by_contra fun hne => hb ⟨hs, hne⟩
      exact h.storeByte hp hstart
  | retry => exact hpulled
  | abort | other => exact hpulled.raise (decide_eq_true hle)

end

/-! ### Instructions -/

/-- Every instruction keeps the invariant, if the context of a `READ` has `CTX_W` bits. -/
theorem exec {i : Instr} (hx : ∀ x, i = .read x → x < 2 ^ s.cfg.ctxW)
    (he : Machine.exec i s = .next t) : t.Inv := by
  by_cases hr : ∃ x, i = .read x
  · obtain ⟨x, rfl⟩ := hr
    obtain ⟨-, rfl⟩ := exec_read he
    exact startRead (hx x rfl)
  cases hi : i.isRequest with
  | true =>
    obtain ⟨hb, heff⟩ := request_effect hi he
    obtain ⟨hcfg, -⟩ := heff.sameInputs
    have hne : ∀ x, i ≠ .read x := not_exists.mp hr
    exact h.of_terminal hb (heff.sameReader hne) hcfg (heff.rx_valid hne)
  | false =>
    rcases answer_cases hi he with ⟨hp, r, ws, rfl⟩ | ⟨-, ws, rfl⟩
    · have hs : ({ s with stream := ws } : State).Inv := h.congr ⟨rfl, rfl, rfl, rfl⟩ rfl rfl
      exact hs.takePull hp r
    · exact h.congr ⟨rfl, rfl, rfl, rfl⟩ rfl rfl

end State.Inv

/-! ## Instructions and the output ports -/

/-- The state with other values on the output ports. -/
def State.showing (v : Option Returned) (x : Option Ctx) (s : State) : State :=
  { s with resultPort := v, pullCtx := x }

section
variable (v : Option Returned) (x : Option Ctx) (s : State)

theorem State.showing_cfg : (s.showing v x).cfg = s.cfg := rfl

theorem State.returning_showing (w : Returned) :
    (s.showing v x).returning w = s.returning w := rfl

theorem State.writeDatagram_showing (d : DReg) (g : Datagram) :
    (s.showing v x).writeDatagram d g = s.writeDatagram d g := by cases d <;> rfl

theorem State.writeCell_showing (d : DReg) (o : Nat) (b : Byte) :
    (s.showing v x).writeCell d o b = s.writeCell d o b := by cases d <;> rfl

theorem reading_showing (d : DReg) (k : Datagram → Outcome) :
    reading d (s.showing v x) k = reading d s k := by cases d <;> rfl

theorem sendRequest_showing (d : DReg) (dst : Byte) (msg : Payload) :
    sendRequest d dst msg (s.showing v x) = sendRequest d dst msg s := by
  simp only [sendRequest, State.writeDatagram_showing]; rfl

theorem sendResponse_showing (d : DReg) (src : Byte) (msg : Payload) :
    sendResponse d src msg (s.showing v x) = sendResponse d src msg s := by
  simp only [sendResponse, State.writeDatagram_showing]; rfl

theorem offer_showing (r : PullResult) : offer r (s.showing v x) = offer r s := by
  cases r <;> rfl

end

/-- What an instruction does is the same whatever the output ports show: it sets them itself and
looks at neither (R28). -/
theorem exec_showing (i : Instr) (v : Option Returned) (x : Option Ctx) (s : State) :
    exec i (s.showing v x) = exec i s := by
  cases i with
  | init | fromBytes =>
    simp only [exec, execInit, execFromBytes, State.writeDatagram_showing]; rfl
  | setChecksum | writePayload =>
    simp only [exec, execSetChecksum, execWritePayload, reading_showing, State.writeCell_showing]
  | computeChecksum | checkChecksum | fromDatagram | discriminate =>
    simp only [exec, execComputeChecksum, execCheckChecksum, execFromDatagram, execDiscriminate,
      reading_showing, State.returning_showing, State.showing_cfg]
  | asBytes => rw [exec, execAsBytes, reading_showing]; rfl
  | read | datagram => rfl
  | pullByte | pullRetry | pullAbort | pullOther => exact offer_showing ..
  | requestToDatagram | phasonGetFeederInfoReq | phasonResetFeederReq | phasonStartFeedReq
  | phasonFeedStatusReq | phasonQueryByUidReq => exact sendRequest_showing ..
  | responseToDatagram | phasonGetFeederInfoResp | phasonResetFeederResp | phasonStartFeedResp
  | phasonFeedStatusResp | phasonQueryByUidResp => exact sendResponse_showing ..

/-! ## The statements -/

/-- Settles O52, by the ways a step can go: reset and a start step set up the invariant afresh, every
other step keeps it. -/
theorem everyStepKeepsTheInvariant : Obligations.EveryStepKeepsTheInvariant := by
  intro s t h hstep
  rcases step_cases hstep with ⟨-, rfl⟩ | ⟨-, hv, rfl⟩ | ⟨-, -, rfl | ⟨w, i, rest, hd, he⟩⟩ |
    ⟨-, -, rfl | ⟨i, rest, hi, he⟩⟩
  · exact .of_idle rfl rfl rfl rfl
  · exact h.validate hv
  · exact h.congr ⟨rfl, rfl, rfl, rfl⟩ rfl rfl
  · have hs : ({ s with requests := rest } : State).Inv := h.congr ⟨rfl, rfl, rfl, rfl⟩ rfl rfl
    exact hs.exec (fun x hx => ctx_of_decodeRequest (hx ▸ hd)) he
  · exact h.congr ⟨rfl, rfl, rfl, rfl⟩ rfl rfl
  · have hs : ({ s with stream := rest } : State).Inv := h.congr ⟨rfl, rfl, rfl, rfl⟩ rfl rfl
    exact hs.exec (fun x hx => absurd (hx ▸ hi) nofun) he

/-- Settles O54: of the steps of a busy attempt only the validating one sets the valid flag of `RX`,
and it ends `Ok` when it does; every reading operation asks for that flag first. -/
theorem noPartialDatagramIsExposed : Obligations.NoPartialDatagramIsExposed := by
  refine ⟨fun s t h hstep hb hok => ?_, fun i s t hi hv he => ?_⟩
  · have hs : s.rx.valid = false := h.busy_invalid hb
    rcases step_cases hstep with ⟨-, rfl⟩ | ⟨-, -, rfl⟩ | ⟨-, hn, -⟩ |
      ⟨-, hp, rfl | ⟨i, rest, hi, he⟩⟩
    · rfl
    · rcases validate_cases s with ⟨-, ht⟩ | ⟨k, -, ht⟩
      · exact absurd (by rw [ht]) hok
      · rw [ht]; exact hs
    · rw [hb] at hn; cases hn
    · exact hs
    · rcases answer_cases hi he with ⟨-, r, ws, rfl⟩ | ⟨-, ws, rfl⟩
      · rw [takePull_valid]; exact hs
      · exact hs
  · have hv' := valid_of_readsReg hi he
    rw [State.reg_rx, hv] at hv'
    cases hv'

/-- Settles O55: a request's effect leaves `CTX` unless it is a start step, and an answer of the byte
source leaves it always. -/
theorem onlyReadWritesCtx : Obligations.OnlyReadWritesCtx := by
  intro i s t he
  cases hi : i.isRequest with
  | true =>
    obtain ⟨-, heff⟩ := request_effect hi he
    obtain ⟨hcfg, -, -, hreset⟩ := heff.sameInputs
    refine ⟨?_, fun hne => ?_, hcfg, hreset⟩
    · rintro x rfl
      obtain ⟨-, rfl⟩ := exec_read he
      rfl
    · obtain ⟨-, -, -, hctx⟩ := heff.sameReader hne
      exact hctx
  | false =>
    have F := answer_frame hi he
    refine ⟨?_, fun _ => F.ctx, F.cfg, F.resetPin⟩
    rintro x rfl
    cases hi

/-- Settles O56: the clauses about requests are those of their effect, the one about answers of the
byte source is their frame. -/
theorem registersChangeOnlyWhereNamed : Obligations.RegistersChangeOnlyWhereNamed := by
  intro i s t he
  refine ⟨fun hi => (answer_frame hi he).tx, fun d hd => ?_, fun hi hn hr => ?_, ?_⟩
  · obtain ⟨-, heff⟩ := request_effect (isRequest_of_writesReg hd) he
    exact heff.reg_other hd
  · obtain ⟨-, heff⟩ := request_effect hi he
    exact heff.sameRegs hn hr
  · rintro x rfl
    obtain ⟨-, rfl⟩ := exec_read he
    exact ⟨rfl, rfl⟩

/-- Settles O59: no instruction looks at the output ports. -/
theorem returnValuesAreNotKept : Obligations.ReturnValuesAreNotKept :=
  fun i s v x => exec_showing i v x s

/-- Settles O60: a request but `READ` leaves the reader's registers and its inputs. -/
theorem resultStaysUntilTheNextRead : Obligations.ResultStaysUntilTheNextRead := by
  intro i s t he hi hne
  obtain ⟨-, heff⟩ := request_effect hi he
  obtain ⟨hcnt, hrstate, hresult, -⟩ := heff.sameReader hne
  obtain ⟨-, -, hstream, -⟩ := heff.sameInputs
  exact ⟨hrstate, hresult, hcnt, hstream⟩

/-- Settles O50: a step with reset asserted applies it, whatever the reader was doing. -/
theorem resetLeavesTheBlockIdle : Obligations.ResetLeavesTheBlockIdle :=
  ⟨⟨rfl, rfl, rfl, rfl, rfl⟩, fun s hr => ⟨s.applyReset, step_of_reset hr,
    rfl, rfl, rfl, rfl, rfl, rfl, rfl, rfl, rfl, rfl, rfl⟩⟩

/-- Settles O51: the reset state is idle, and whether R7's defaults conform is decidable. -/
theorem invariantHoldsAfterReset : Obligations.InvariantHoldsAfterReset :=
  ⟨.of_idle rfl rfl rfl rfl, by decide⟩

end Sys2Proof.Machine
end

section
/-! PROOFS for the family 20_memory.md: no answer of the byte source stops the block (R51, R52), and
the byte sink gets bytes from `AS_BYTES` alone (R56, R127). -/

namespace Sys2Proof.Machine

/-! ## The receive stream -/

/-- A pull answer completes in a pulling state, which takes it, and in any other, which leaves it
unread. -/
theorem offer_completes (r : PullResult) (s : State) : ∃ t, offer r s = .next t := by
  cases hp : s.rstate.pulling with
  | true => exact ⟨_, offer_pulling hp⟩
  | false => exact ⟨_, offer_idle hp⟩

/-- A frame completes in a pulling state, which takes its first byte, and in any other, which leaves
it unread. -/
theorem offerFrame_completes (d : Datagram) (s : State) : ∃ t, offerFrame d s = .next t := by
  cases hp : s.rstate.pulling with
  | true => exact ⟨_, offerFrame_pulling hp⟩
  | false => exact ⟨_, offerFrame_idle hp⟩

/-! ## The byte sink -/

/-- `AS_BYTES` emits and returns the cells of its register; it can do nothing else (R127). -/
theorem exec_asBytes {d : DReg} {s t : State} (h : exec (.asBytes d) s = .next t) :
    s.rstate.busy = false ∧ (s.reg d).valid = true ∧
      t = (s.emit (s.reg d).cells.toList).returning (.bytes (s.reg d).cells) := by
  rw [exec, execAsBytes] at h
  obtain ⟨hb, hv, hk⟩ := reading_next.mp h
  injection hk with hk
  exact ⟨hb, hv, hk.symm⟩

/-- A request but `AS_BYTES` emits nothing (R56). -/
theorem RequestEffect.sink_eq {i : Instr} {s t : State} (h : RequestEffect s i t)
    (hne : ∀ d, i ≠ .asBytes d) : t.sink = s.sink := by
  cases h with
  | write _ d g => exact State.writeDatagram_sink d g s
  | cell _ d o v => exact State.writeCell_sink d o v s
  | answer _ v => exact State.returning_sink v s
  | output d => exact absurd rfl (hne d)
  | start x => exact State.startRead_sink x s

/-- An instruction but `AS_BYTES` emits nothing, be it a request or an answer of the byte source. -/
theorem exec_sink_eq {i : Instr} {s t : State} (h : exec i s = .next t)
    (hne : ∀ d, i ≠ .asBytes d) : t.sink = s.sink := by
  cases hi : i.isRequest with
  | true =>
    obtain ⟨-, heff⟩ := request_effect hi h
    exact heff.sink_eq hne
  | false => exact (answer_frame hi h).sink

/-! ## The statements -/

/-- Settles O57: `AS_BYTES` emits its register's cells, and every other instruction keeps the sink. -/
theorem onlyAsBytesEmits : Obligations.OnlyAsBytesEmits := by
  intro i s t he
  refine ⟨?_, exec_sink_eq he⟩
  rintro d rfl
  obtain ⟨-, -, rfl⟩ := exec_asBytes he
  rw [State.returning_sink, State.emit_sink]

/-- Settles O46: the instructions that are no requests are the four pull answers and the frame, and
both kinds complete in every state. -/
theorem everyPullAnswerCompletes : Obligations.EveryPullAnswerCompletes := by
  intro i s hi
  cases i with
  | pullByte b => exact offer_completes (.byte b) s
  | pullRetry => exact offer_completes .retry s
  | pullAbort => exact offer_completes .abort s
  | pullOther => exact offer_completes .other s
  | datagram src dst proto k p => exact offerFrame_completes (frameBytes src dst proto k p) s
  | _ => cases hi

end Sys2Proof.Machine
end

section
/-! PROOFS for the family 30_encoding.md: the decoder undoes the encoder and drops no bit of a request
(R80, R90, R96, R109 to R111); which requests are taken (R113) and what the output ports then show
(R112); the pseudo-operations (R115); a frame read by an attempt (R80 to R82); the fields of a message
at their offsets (R92, R95, R98 to R107). -/

namespace Sys2Proof

/-! ## Format OP: the encoder's words and the decoder's operands (R110, R111) -/

/-- The encoder's request decodes by the operands of its operation. -/
theorem decode_opWord {c : Config} (h : c.wf) (o : OpName) (bit : Bool) (rest : List Byte) :
    decode c (opWord c o bit rest) = decodeOperands c o bit rest := decodeOp_header h o bit rest

/-- The payload offset and the bits above it in its operand byte (R111; assumption 4). -/
theorem operandByte_payloadOffset (p : BitVec 5) :
    (p.zeroExtend 8).extractLsb' 5 3 = 0#3 ∧ (p.zeroExtend 8).extractLsb' 0 5 = p := by
  revert p; decide

/-- The type index and the bits above it in its operand byte (R111; assumption 4). -/
theorem operandByte_typeIndex (t : BitVec 4) :
    (t.zeroExtend 8).extractLsb' 4 4 = 0#4 ∧ (t.zeroExtend 8).extractLsb' 0 4 = t := by
  revert t; decide

theorem decodeOperands_writePayload (c : Config) (d : DReg) (p : BitVec 5) (v : Byte) :
    decodeOperands c .writePayload (bitOfReg d) [p.zeroExtend 8, v] = .ok (.writePayload d p v) := by
  obtain ⟨hzero, hp⟩ := operandByte_payloadOffset p
  rw [decodeOperands, if_pos hzero, hp, regOfBit_bitOfReg]

theorem decodeOperands_fromDatagram (c : Config) (d : DReg) (t : BitVec 4) :
    decodeOperands c .fromDatagram (bitOfReg d) [t.zeroExtend 8] = .ok (.fromDatagram d t) := by
  obtain ⟨hzero, ht⟩ := operandByte_typeIndex t
  rw [decodeOperands, if_pos hzero, ht, regOfBit_bitOfReg]

/-- A context of `CTX_W` bits is read back from its bytes (R29, R111). -/
theorem decodeOperands_read {c : Config} {x : Ctx} (hx : x < 2 ^ c.ctxW) :
    decodeOperands c .read false (numBytes c.ctxBytes x) = .ok (.read x) := by
  rw [decodeOperands, if_pos (numBytes_length ..), c.ctx_bytes hx, if_pos ⟨rfl, hx⟩]

/-! ## Format OP: the decoder's instructions and the encoder's bytes (R110, R111) -/

/-- A fixed-size operand that is found holds all the operand bytes. -/
theorem sized_ok {n : Nat} {l : List Byte} {k : Vector Byte n → Instr} {i : Instr}
    (h : sized n l k = .ok i) : ∃ v : Vector Byte n, v.toList = l ∧ k v = i := by
  unfold sized at h
  split at h
  · next v hv => exact ⟨v, bytesOfList_some hv, Except.ok.inj h⟩
  · cases h

/-- An operand byte whose upper three bits are zero is its payload offset. -/
theorem payloadOffset_operandByte {b : Byte} (h : b.extractLsb' 5 3 = 0#3) :
    (b.extractLsb' 0 5).zeroExtend 8 = b := by revert b; decide

/-- An operand byte whose upper four bits are zero is its type index. -/
theorem typeIndex_operandByte {b : Byte} (h : b.extractLsb' 4 4 = 0#4) :
    (b.extractLsb' 0 4).zeroExtend 8 = b := by revert b; decide

/-- A request's first byte whose upper three bits are zero is its register bit and selector. -/
theorem header_eq_fields {b : Byte} (h : b.extractLsb' 5 3 = 0#3) :
    (0#3 ++ (BitVec.ofBool (b.getLsbD 4) ++ b.extractLsb' 0 4) : Byte) = b := by revert b; decide

/-- The first byte of a request whose selector is found is the header of that operation (R110). -/
theorem opHeader_of_opOf {c : Config} {o : OpName} {b : Byte} (hb : b.extractLsb' 5 3 = 0#3)
    (ho : c.opOf (b.extractLsb' 0 4) = some o) : opHeader c o (b.getLsbD 4) = b := by
  rw [opHeader, Config.selOf_of_opOf ho, header_eq_fields hb]

/-- The operand bytes that decode are those the encoder writes for the instruction (R111). -/
theorem encode_of_decodeOperands {c : Config} {o : OpName} {bit : Bool} {rest : List Byte}
    {i : Instr} (h : decodeOperands c o bit rest = .ok i) : encode c i = opWord c o bit rest := by
  cases o with
  | init | computeChecksum | setChecksum | checkChecksum | asBytes | discriminate =>
    simp only [decodeOperands] at h
    split at h
    · cases h
      rw [encode, bitOfReg_regOfBit]
    · cases h
  | fromBytes =>
    obtain ⟨v, rfl, rfl⟩ := sized_ok h
    rw [encode, bitOfReg_regOfBit]
  | requestToDatagram | responseToDatagram =>
    simp only [decodeOperands] at h
    split at h
    · obtain ⟨v, rfl, rfl⟩ := sized_ok h
      rw [encode, bitOfReg_regOfBit]
    · cases h
  | writePayload =>
    simp only [decodeOperands] at h
    split at h
    · split at h
      · next hp =>
        cases h
        rw [encode, bitOfReg_regOfBit, payloadOffset_operandByte hp]
      · cases h
    · cases h
  | fromDatagram =>
    simp only [decodeOperands] at h
    split at h
    · split at h
      · next ht =>
        cases h
        rw [encode, bitOfReg_regOfBit, typeIndex_operandByte ht]
      · cases h
    · cases h
  | read =>
    simp only [decodeOperands] at h
    split at h
    · next hlen =>
      split at h
      · next hx =>
        obtain ⟨hbit, -⟩ := hx
        cases h
        rw [encode, ← hlen, numBytes_numOf, hbit]
      · cases h
    · cases h

/-- A request of format OP that decodes is the encoding of its instruction. -/
theorem encode_of_decodeOp {c : Config} {bytes : List Byte} {i : Instr}
    (h : decodeOp c bytes = .ok i) : encode c i = .request (.op bytes) := by
  cases bytes with
  | nil => cases h
  | cons b rest =>
    rw [decodeOp] at h
    split at h
    · next hb =>
      split at h
      · next o ho => rw [encode_of_decodeOperands h, opWord, opHeader_of_opOf hb ho]
      · cases h
    · cases h

/-! ## Reserved selectors (R108, R110) -/

/-- A request's first byte keeps its upper three bits zero and holds its selector in bits 3:0. -/
theorem header_fields (bit : Bool) (sel : BitVec 4) :
    (0#3 ++ (BitVec.ofBool bit ++ sel) : Byte).extractLsb' 5 3 = 0#3 ∧
      (0#3 ++ (BitVec.ofBool bit ++ sel) : Byte).extractLsb' 0 4 = sel := by
  revert bit sel; decide

/-- The default table gives the reserved selectors to no operation (R110). -/
theorem opOf_reserved {sel : BitVec 4} (h : sel ∈ Claims.reservedSelectors) :
    Config.default.opOf sel = none := by revert sel; decide

/-- A request whose selector names no operation is none, whatever its operand bytes (R108). -/
theorem decodeOp_of_opOf_none {c : Config} {sel : BitVec 4} (h : c.opOf sel = none) (bit : Bool)
    (operands : List Byte) :
    decodeOp c ((0#3 ++ (BitVec.ofBool bit ++ sel)) :: operands) = .error (.reservedSelector sel) := by
  obtain ⟨hzero, hsel⟩ := header_fields bit sel
  rw [decodeOp, if_pos hzero, hsel, h]

/-! ## Format CMD: the encoder's words and the message found in them (R98 to R107, R175) -/

/-- The register bit and the bits above it in its byte (assumption 6). -/
theorem registerByte (d : DReg) :
    ((BitVec.ofBool (bitOfReg d)).zeroExtend 8).extractLsb' 1 7 = 0#7 ∧
      regOfBit (((BitVec.ofBool (bitOfReg d)).zeroExtend 8).getLsbD 0) = d := by
  cases d <;> decide

/-- A message word decodes to the row of the message found in its payload. -/
theorem decode_cmdWord {c : Config} (h : c.wf) (d : DReg) (a : Byte) (m : Message) :
    decode c (cmdWord c d a m) = .ok ((messageOf c m.type (m.payload c)).instr d a) := by
  obtain ⟨hzero, hreg⟩ := registerByte d
  have hlen : (m.payload c).toList.length = 26 := Vector.length_toList
  simp only [decode, cmdWord, decodeRequest, decodeCmd, List.take_left' hlen,
    List.drop_left' hlen, bytesOfList_toList, Message.payload_zero, c.typeOf_discOf h, hzero, hreg,
    if_true]

/-- The envelope of a row is found again: its address stands in the word, its further fields in the
message. -/
theorem envelope_payload {c : Config} (h : c.wf) {T : MsgType} {as : Fields} (e : Envelope)
    (hn : as.map Assign.field = T.named) (hf : c.furtherFit T e.further = true) :
    (⟨e.address, (messageOf c T (Message.payload c ⟨T, as ++ e.further⟩)).further⟩ : Envelope) = e := by
  rw [Message.further_payload h hn hf]

/-- A row is decoded from its word if it is the row of the message found in its payload. -/
theorem decode_cmdWord_of_instr {c : Config} (h : c.wf) {d : DReg} {a : Byte} {m : Message} {i : Instr}
    (hi : (messageOf c m.type (m.payload c)).instr d a = i) :
    decode c (cmdWord c d a m) = .ok i := hi ▸ decode_cmdWord h d a m

/-! ## Format PULL (R109) -/

/-- Four distinct tags of two bits leave no pull word without one. -/
theorem exists_tagOf {c : Config} (h : c.wf) (tag : BitVec 2) : ∃ t, c.tagOf t = tag := by
  obtain ⟨-, -, -, -, hnd, -⟩ := h
  have hall : (PullTag.all.map c.tagOf).toFinset = Finset.univ := by
    rw [← Finset.card_eq_iff_eq_univ, List.toFinset_card_of_nodup hnd, List.length_map]
    rfl
  have hmem : tag ∈ PullTag.all.map c.tagOf := List.mem_toFinset.mp (hall ▸ Finset.mem_univ tag)
  obtain ⟨t, -, ht⟩ := List.mem_map.mp hmem
  exact ⟨t, ht⟩

/-- The pull result of a tag; the data of the word counts for `BYTE` alone. -/
def PullTag.result (data : Byte) : PullTag → PullResult
  | .byte => .byte data
  | .retry => .retry
  | .abort => .abort
  | .other => .other

/-- A pull word decodes by the tag its upper two bits name. -/
theorem decodePull_of_tagOf {c : Config} (h : c.wf) {w : BitVec 10} {t : PullTag}
    (ht : c.tagOf t = w.extractLsb' 8 2) :
    decodePull c w = .ok (t.result (w.extractLsb' 0 8)) := by
  simp only [decodePull, ← ht, Config.pullOf_tagOf h]
  cases t <;> rfl

/-- A tag of the table with any data decodes to the result of the tag. -/
theorem decodePull_append {c : Config} (h : c.wf) (t : PullTag) (data : Byte) :
    decodePull c (c.tagOf t ++ data) = .ok (t.result data) := by
  obtain ⟨htag, hdata⟩ := append_tag (c.tagOf t) data
  rw [decodePull_of_tagOf h htag.symm, hdata]

/-! ## The decoder undoes the encoder -/

/-- Every word of a well-formed instruction decodes to it: a request by its operands, a message row by
the message found in its payload, an answer of the byte source by its tag or its sentinels. -/
theorem decode_encode {c : Config} (h : c.wf) {i : Instr} (hi : i.wf c = true) :
    decode c (encode c i) = .ok i := by
  cases i with
  | init | computeChecksum | setChecksum | checkChecksum | asBytes | discriminate =>
    simp only [encode, decode_opWord h, decodeOperands, regOfBit_bitOfReg]
  | fromBytes | requestToDatagram | responseToDatagram =>
    simp only [encode, decode_opWord h, decodeOperands, sized_toList, regOfBit_bitOfReg]
  | writePayload d p v => exact (decode_opWord h ..).trans (decodeOperands_writePayload c d p v)
  | fromDatagram d t => exact (decode_opWord h ..).trans (decodeOperands_fromDatagram c d t)
  | read x => exact (decode_opWord h ..).trans (decodeOperands_read (of_decide_eq_true hi))
  | pullByte | pullRetry | pullAbort | pullOther =>
    simp only [encode, decode, pullWord, decodeStream, decodePull_encodePull h]
    rfl
  | datagram src dst proto k p =>
    obtain ⟨hsrc, hdst⟩ := Machine.frameBytes_addresses src dst proto k p
    simp only [encode, decode, decodeStream, decodeFrame, Machine.frameBytes_start,
      Machine.frameBytes_stop, Machine.frameBytes_proto, Machine.frameBytes_checksum, hsrc, hdst,
      payloadOf_frameBytes, and_self, if_true]
  | phasonGetFeederInfoReq d e =>
    exact decode_cmdWord_of_instr h ((Instr.phasonGetFeederInfoReq.injEq ..).mpr
      ⟨rfl, envelope_payload h (as := []) e rfl hi⟩)
  | phasonGetFeederInfoResp d e st ver y mo dd uid =>
    simp only [Instr.wf, Bool.and_eq_true] at hi
    obtain ⟨⟨⟨⟨hver, hy⟩, hmo⟩, hdd⟩, hf⟩ := hi
    exact decode_cmdWord_of_instr h ((Instr.phasonGetFeederInfoResp.injEq ..).mpr
      ⟨rfl, envelope_payload h e rfl hf,
        Message.statusByte_payload h (T := .getFeederInfoResp) (by decide) rfl rfl,
        Message.bytesAt_payload h rfl rfl rfl hver, Message.bytesAt_payload h rfl rfl rfl hy,
        Message.bytesAt_payload h rfl rfl rfl hmo, Message.bytesAt_payload h rfl rfl rfl hdd,
        Message.uniqueId_payload h (T := .getFeederInfoResp) (by decide) rfl rfl⟩)
  | phasonResetFeederReq d e =>
    exact decode_cmdWord_of_instr h ((Instr.phasonResetFeederReq.injEq ..).mpr
      ⟨rfl, envelope_payload h (as := []) e rfl hi⟩)
  | phasonResetFeederResp d e st =>
    exact decode_cmdWord_of_instr h ((Instr.phasonResetFeederResp.injEq ..).mpr
      ⟨rfl, envelope_payload h e rfl hi,
        Message.statusByte_payload h (T := .resetFeederResp) (by decide) rfl rfl⟩)
  | phasonStartFeedReq d e q um =>
    obtain ⟨hq, hf⟩ := Bool.and_eq_true_iff.mp hi
    exact decode_cmdWord_of_instr h ((Instr.phasonStartFeedReq.injEq ..).mpr
      ⟨rfl, envelope_payload h e rfl hf, Message.bytesAt_payload h rfl rfl rfl hq,
        Message.intAt_payload h (T := .startFeedReq) (by decide) rfl rfl rfl rfl⟩)
  | phasonStartFeedResp d e st q =>
    obtain ⟨hq, hf⟩ := Bool.and_eq_true_iff.mp hi
    exact decode_cmdWord_of_instr h ((Instr.phasonStartFeedResp.injEq ..).mpr
      ⟨rfl, envelope_payload h e rfl hf,
        Message.statusByte_payload h (T := .startFeedResp) (by decide) rfl rfl,
        Message.bytesAt_payload h rfl rfl rfl hq⟩)
  | phasonFeedStatusReq d e q =>
    obtain ⟨hq, hf⟩ := Bool.and_eq_true_iff.mp hi
    exact decode_cmdWord_of_instr h ((Instr.phasonFeedStatusReq.injEq ..).mpr
      ⟨rfl, envelope_payload h e rfl hf, Message.bytesAt_payload h rfl rfl rfl hq⟩)
  | phasonFeedStatusResp d e st q um =>
    obtain ⟨hq, hf⟩ := Bool.and_eq_true_iff.mp hi
    exact decode_cmdWord_of_instr h ((Instr.phasonFeedStatusResp.injEq ..).mpr
      ⟨rfl, envelope_payload h e rfl hf,
        Message.statusByte_payload h (T := .feedStatusResp) (by decide) rfl rfl,
        Message.bytesAt_payload h rfl rfl rfl hq,
        Message.intAt_payload h (T := .feedStatusResp) (by decide) rfl rfl rfl rfl⟩)
  | phasonQueryByUidReq d e uid =>
    exact decode_cmdWord_of_instr h ((Instr.phasonQueryByUidReq.injEq ..).mpr
      ⟨rfl, envelope_payload h e rfl hi,
        Message.uniqueId_payload h (T := .queryByUidReq) (by decide) rfl rfl⟩)
  | phasonQueryByUidResp d e st =>
    exact decode_cmdWord_of_instr h ((Instr.phasonQueryByUidResp.injEq ..).mpr
      ⟨rfl, envelope_payload h e rfl hi,
        Message.statusByte_payload h (T := .queryByUidResp) (by decide) rfl rfl⟩)

end Sys2Proof

namespace Sys2Proof.Machine

open Claims (framed WritesDatagram ReturnsOnly shownOf returns intRead byteField statusNamed)

/-! ## Requests that are taken and requests that are not (R113) -/

/-- A terminal block refuses by name the word that is no instruction (R113). -/
theorem step_of_rejected {s : State} {w : RequestWord} {rest : List RequestWord} {why : Reject}
    (hr : s.resetPin = false) (hb : s.rstate.busy = false) (hs : s.requests = w :: rest)
    (hd : decodeRequest s.cfg w = .error why) : step s = .refused (.noInstruction why) := by
  rw [step_of_terminal hr hb, requestStep, hs]
  simp only [hd]

/-- A busy reader turns every request away by one name. -/
theorem exec_of_busy {i : Instr} {s : State} (hi : i.isRequest = true) (hb : s.rstate.busy = true) :
    exec i s = .refused .readerBusy := by
  cases i with
  | pullByte | pullRetry | pullAbort | pullOther | datagram => cases hi
  | _ => exact accepting_of_busy hb _

section
variable {s : State} {d : DReg} (hb : s.rstate.busy = false) (hv : (s.reg d).valid = true)
include hb hv

theorem exec_writePayload {p : BitVec 5} (hp : p.toNat ≤ 25) (v : Byte) :
    exec (.writePayload d p v) s = .next (s.writeCell d (frameOffset p) v) := by
  rw [exec, execWritePayload, reading_of_valid hb hv, if_pos hp]

theorem exec_setChecksum :
    exec (.setChecksum d) s = .next (s.writeCell d 4 (computeChecksum (s.reg d).cells)) := by
  rw [exec, execSetChecksum, reading_of_valid hb hv]

theorem exec_asBytes_of_valid : exec (.asBytes d) s =
    .next ((s.emit (s.reg d).cells.toList).returning (.bytes (s.reg d).cells)) := by
  rw [exec, execAsBytes, reading_of_valid hb hv]

theorem exec_fromDatagram {t : BitVec 4} {T : MsgType} (hT : messageType t = some T) :
    exec (.fromDatagram d t) s =
      .next (s.returning (.fields (viewOf s.cfg T (payloadOf (s.reg d).cells)))) := by
  simp only [exec, execFromDatagram, reading_of_valid hb hv, hT]

end

theorem exec_read_of_terminal {s : State} (hb : s.rstate.busy = false) (x : Ctx) :
    exec (.read x) s = .next (s.startRead x) := accepting_of_terminal hb _

/-- An accepted request runs (R113). -/
theorem exec_of_accepts {i : Instr} {s : State} (hi : i.isRequest = true) (h : Accepts i s) :
    ∃ t, exec i s = .next t := by
  obtain ⟨hb, hrange, hvalid⟩ := h
  cases i with
  | pullByte | pullRetry | pullAbort | pullOther | datagram => cases hi
  | computeChecksum d | setChecksum d | checkChecksum d | asBytes d | discriminate d =>
    simp only [exec, execComputeChecksum, execSetChecksum, execCheckChecksum, execAsBytes,
      execDiscriminate, reading_of_valid hb (hvalid d rfl)]
    exact ⟨_, rfl⟩
  | writePayload d p v => exact ⟨_, exec_writePayload hb (hvalid d rfl) (of_decide_eq_true hrange) v⟩
  | fromDatagram d t =>
    obtain ⟨T, hT, -⟩ := messageType_of_le (of_decide_eq_true hrange)
    exact ⟨_, exec_fromDatagram hb (hvalid d rfl) hT⟩
  | _ => exact ⟨_, accepting_of_terminal hb _⟩

/-- A request with a next state has its operands in range (R113). -/
theorem inRange_of_exec {i : Instr} {s t : State} (h : exec i s = .next t) : i.inRange = true := by
  cases i with
  | writePayload d p v =>
    rw [exec, execWritePayload] at h
    obtain ⟨-, -, hk⟩ := reading_next.mp h
    split at hk
    · next hp => exact decide_eq_true hp
    · cases hk
  | fromDatagram d T =>
    rw [exec, execFromDatagram] at h
    obtain ⟨-, -, hk⟩ := reading_next.mp h
    refine decide_eq_true (not_lt.mp fun hgt => ?_)
    rw [messageType_of_gt hgt] at hk
    cases hk
  | _ => rfl

/-! ## What the output ports show (R50, R112) -/

/-- A busy attempt has no outcome to show. -/
theorem shownOf_busy {s : State} (h : s.rstate.busy = true) : shownOf s = none := by
  unfold shownOf
  split
  · next hs => rw [hs] at h; cases h
  · next hs => rw [hs] at h; cases h
  · rfl

theorem afterStored_busy (n : Nat) : (afterStored n).busy = true := by
  unfold afterStored; split <;> rfl

/-- A pull shows the outcome of an attempt it ends, and `CTX` (R50, R112). -/
theorem takePull_ports {s : State} (hp : s.rstate.pulling = true) (r : PullResult) :
    (s.takePull r).resultPort = shownOf (s.takePull r) ∧ (s.takePull r).pullCtx = some s.ctx := by
  cases r with
  | byte b =>
    change (s.takeByte b).resultPort = shownOf (s.takeByte b) ∧ (s.takeByte b).pullCtx = some s.ctx
    rcases takeByte_cases b s with ⟨-, -, ht⟩ | ⟨-, ht⟩ <;> rw [ht]
    · exact ⟨rfl, rfl⟩
    · exact ⟨(shownOf_busy (afterStored_busy _)).symm, rfl⟩
  | retry => exact ⟨(shownOf_busy (s := s.pulled) (RState.busy_of_pulling hp)).symm, rfl⟩
  | abort | other => exact ⟨rfl, rfl⟩

/-- The validating step shows its verdict and pulls nothing (R112, R150). -/
theorem validate_ports (s : State) :
    s.validate.resultPort = shownOf s.validate ∧ s.validate.pullCtx = none := by
  rcases validate_cases s with ⟨-, ht⟩ | ⟨k, -, ht⟩ <;> rw [ht] <;> exact ⟨rfl, rfl⟩

/-- A request that neither writes a register nor starts an attempt returns a value (R111). -/
theorem returns_of_writesReg_none {i : Instr} (hi : i.isRequest = true) (hn : i.writesReg = none)
    (hr : ∀ x, i ≠ .read x) : returns i = true := by
  cases i with
  | pullByte | pullRetry | pullAbort | pullOther | datagram => cases hi
  | computeChecksum | checkChecksum | asBytes | fromDatagram | discriminate => rfl
  | read x => exact absurd rfl (hr x)
  | _ => cases hn

/-- A request pulls nothing, and returns nothing unless R111 gives it a value. -/
theorem RequestEffect.ports {i : Instr} {s t : State} (hi : i.isRequest = true)
    (h : RequestEffect s i t) : t.pullCtx = none ∧ (returns i = false → t.resultPort = none) := by
  cases h with
  | write | cell => exact ⟨by simp, fun _ => by simp⟩
  | answer _ _ hn hr =>
    refine ⟨rfl, fun hret => ?_⟩
    rw [returns_of_writesReg_none hi hn hr] at hret
    cases hret
  | output => exact ⟨rfl, nofun⟩
  | start => exact ⟨rfl, fun _ => rfl⟩

/-! ## The step that ends an attempt `Ok` (R81, R150) -/

/-- A pull does not end an attempt `Ok`. -/
theorem takePull_ne_ok {s : State} (hs : s.rstate ≠ .ok) (r : PullResult) :
    (s.takePull r).rstate ≠ .ok := by
  cases r with
  | byte b =>
    change (s.takeByte b).rstate ≠ .ok
    rcases takeByte_cases b s with ⟨-, -, ht⟩ | ⟨-, ht⟩ <;> rw [ht]
    · exact nofun
    · exact afterStored_ne_ok _
  | retry => exact hs
  | abort | other => exact nofun

/-- The step that ends a busy attempt `Ok` is the validating one (R150). -/
theorem validating_of_step_ok {s t : State} (h : step s = .next t) (hb : s.rstate.busy = true)
    (hok : t.rstate = .ok) : s.rstate = .validating ∧ t = s.validate := by
  have hne : s.rstate ≠ .ok := fun e => by rw [e] at hb; cases hb
  rcases step_cases h with ⟨-, rfl⟩ | ⟨-, hv, ht⟩ | ⟨-, hn, -⟩ | ⟨-, -, rfl | ⟨i, rest, hi, he⟩⟩
  · cases hok
  · exact ⟨hv, ht⟩
  · rw [hb] at hn; cases hn
  · exact absurd hok hne
  · rcases answer_cases hi he with ⟨-, r, ws, rfl⟩ | ⟨-, ws, rfl⟩
    · exact absurd hok (takePull_ne_ok (s := { s with stream := ws }) hne r)
    · exact absurd hok hne

/-! ## The checksum of a frame (R123, R124) -/

/-- The computed checksum of a frame is `crc_raw` of its bytes with the field read as zero (R123). -/
theorem computeChecksum_frameBytes (src dst proto k : Byte) (p : Payload) :
    computeChecksum (frameBytes src dst proto k p) =
      crcRaw ([START, src, dst, proto, 0x00#8] ++ p.toList ++ [STOP]) := by
  rw [computeChecksum, Vector.toList_set, frameBytes_toList]
  rfl

/-- `set_checksum` leaves the checksummed frame of the parts (R124). -/
theorem setChecksum_frameBytes (src dst proto k : Byte) (p : Payload) :
    (setChecksum (frameBytes src dst proto k p)).toList = framed src dst proto p.toList := by
  rw [setChecksum, Vector.toList_set, computeChecksum_frameBytes, frameBytes_toList]
  rfl

/-- The check of a frame compares its field with that checksum (R125). -/
theorem checkChecksum_frameBytes (src dst proto k : Byte) (p : Payload) :
    checkChecksum (frameBytes src dst proto k p) =
      decide (k = crcRaw ([START, src, dst, proto, 0x00#8] ++ p.toList ++ [STOP])) := by
  rw [checkChecksum, frameBytes_checksum, computeChecksum_frameBytes]

/-! ## BUILD (R115) -/

theorem execAll_cons {i : Instr} {is : List Instr} {s t : State} (h : exec i s = .next t) :
    execAll (i :: is) s = execAll is t := by simp only [execAll, h]

/-- A list of instructions that completes is followed by the next list. -/
theorem execAll_append (is js : List Instr) {s t : State} (h : execAll is s = .next t) :
    execAll (is ++ js) s = execAll js t := by
  induction is generalizing s with
  | nil => cases h; rfl
  | cons i is ih =>
    rw [execAll] at h
    split at h
    · next u hu => rw [List.cons_append, execAll_cons hu, ih h]
    · cases h
    · cases h

/-- Writing a cell of a datagram just written is writing the changed datagram. -/
theorem writeCell_writeDatagram (d : DReg) (g : Datagram) (o : Nat) (v : Byte) (s : State) :
    (s.writeDatagram d g).writeCell d o v = s.writeDatagram d (g.setIfInBounds o v) := by
  cases d <;> rfl

/-- The payload bytes of the listed offsets written into a datagram, one after another. -/
def writeBytes (payload : Payload) (ps : List (Fin 26)) (g : Datagram) : Datagram :=
  ps.foldl (fun g p => g.setIfInBounds (p.val + 5) payload[p.val]) g

/-- The payload writes of BUILD write their bytes into the datagram of the register (R115, R129). -/
theorem execAll_writePayload (d : DReg) (payload : Payload) (ps : List (Fin 26)) {s : State}
    (hb : s.rstate.busy = false) (g : Datagram) :
    execAll (ps.map fun p => .writePayload d (BitVec.ofNat 5 p.val) payload[p.val])
      (s.writeDatagram d g) = .next (s.writeDatagram d (writeBytes payload ps g)) := by
  induction ps generalizing g with
  | nil => rfl
  | cons p ps ih =>
    have hp : (BitVec.ofNat 5 p.val).toNat = p.val := by rw [BitVec.toNat_ofNat]; omega
    have hexec := exec_writePayload (s := s.writeDatagram d g) (d := d)
      (p := BitVec.ofNat 5 p.val) (by simpa using hb) (by simp) (by omega) payload[p.val]
    rw [writeCell_writeDatagram, frameOffset, hp] at hexec
    rw [List.map_cons, execAll_cons hexec, ih]
    rfl

theorem writeBytes_cons (payload : Payload) (p : Fin 26) (ps : List (Fin 26)) (g : Datagram) :
    writeBytes payload (p :: ps) g =
      writeBytes payload ps (g.setIfInBounds (p.val + 5) payload[p.val]) := rfl

/-- A cell at none of the listed offsets stays. -/
theorem writeBytes_getElem_of_ne {payload : Payload} {ps : List (Fin 26)} {g : Datagram} {o : Nat}
    (ho : o < 32) (hne : ∀ p ∈ ps, p.val + 5 ≠ o) : (writeBytes payload ps g)[o] = g[o] := by
  induction ps generalizing g with
  | nil => rfl
  | cons p ps ih =>
    obtain ⟨hp, hps⟩ := List.forall_mem_cons.mp hne
    rw [writeBytes_cons, ih hps, Vector.getElem_setIfInBounds_ne ho hp]

/-- The cell at a listed offset holds that byte of the payload. -/
theorem writeBytes_getElem_of_mem {payload : Payload} {ps : List (Fin 26)} {g : Datagram}
    {p : Fin 26} (hmem : p ∈ ps) : (writeBytes payload ps g)[p.val + 5] = payload[p.val] := by
  induction ps generalizing g with
  | nil => cases hmem
  | cons q qs ih =>
    rw [writeBytes_cons]
    by_cases hq : p ∈ qs
    · exact ih hq
    · obtain rfl : p = q := (List.mem_cons.mp hmem).resolve_right hq
      have hne : ∀ r ∈ qs, r.val + 5 ≠ p.val + 5 :=
        fun r hr e => hq ((Fin.ext (Nat.add_right_cancel e) : r = p) ▸ hr)
      rw [writeBytes_getElem_of_ne _ hne, Vector.getElem_setIfInBounds_self]

/-- All 26 payload writes together replace the payload (R115, R171). -/
theorem writeBytes_finRange (payload : Payload) (g : Datagram) :
    writeBytes payload (List.finRange 26) g = withPayload g payload := by
  ext1 o ho
  simp only [withPayload, Vector.getElem_ofFn]
  split
  · next h =>
    obtain ⟨k, rfl⟩ : ∃ k, o = k + 5 := ⟨o - 5, by omega⟩
    exact writeBytes_getElem_of_mem (p := ⟨k, by omega⟩) (List.mem_finRange _)
  · next h => exact writeBytes_getElem_of_ne ho fun p _ e => h (by omega)

theorem onlyReg_writeDatagram (d : DReg) (g : Datagram) (s : State) :
    OnlyReg d s (s.writeDatagram d g) := by
  simp [OnlyReg, SameReader, SameInputs]

/-- What writing a whole register does, as the claims say it (R121). -/
theorem writesDatagram_writeDatagram (d : DReg) (g : Datagram) (s : State) :
    WritesDatagram d g.toList s (s.writeDatagram d g) :=
  ⟨by simp, by simp, onlyReg_writeDatagram d g s⟩

theorem withPayload_initFrame (src dst proto : Byte) (msg : Payload) :
    withPayload (initFrame src dst proto) msg = frameBytes src dst proto 0#8 msg :=
  withPayload_frameBytes ..

/-- BUILD writes a fresh datagram, replaces its payload and sets its checksum. -/
theorem execAll_buildOps (d : DReg) (src dst proto : Byte) (payload : Payload) {s : State}
    (hb : s.rstate.busy = false) : execAll (buildOps d src dst proto payload) s =
      .next (s.writeDatagram d (setChecksum (frameBytes src dst proto 0#8 payload))) := by
  have hinit : exec (.init d src dst proto) s = .next (s.writeDatagram d (initFrame src dst proto)) :=
    accepting_of_terminal hb _
  have hpay := execAll_writePayload d payload (List.finRange 26) hb (initFrame src dst proto)
  rw [writeBytes_finRange, withPayload_initFrame] at hpay
  have hset := exec_setChecksum (d := d)
    (s := s.writeDatagram d (frameBytes src dst proto 0#8 payload)) (by simpa using hb) (by simp)
  rw [writeCell_writeDatagram, State.reg_writeDatagram_self, setIfInBounds_eq_set _ (by decide)] at hset
  rw [buildOps, List.append_assoc, List.singleton_append, execAll_cons hinit,
    execAll_append _ _ hpay, execAll_cons hset]
  rfl

/-! ## A frame read by an attempt (R80 to R82, R141 to R150) -/

/-- A datagram with the stop sentinel is judged by its checksum alone (R150). -/
theorem verdictOf_of_stop {d : Datagram} (h : d[31] = STOP) :
    verdictOf d = if checkChecksum d then .ok else .failed .badCrc8 := if_pos h

/-- The validating step on bytes judged to be `OK` (R150). -/
theorem validate_of_ok {s : State} (h : verdictOf s.rx.cells = .ok) :
    s.validate.rstate = .ok ∧ s.validate.result = some .ok ∧ s.validate.rx = ⟨s.rx.cells, true⟩ ∧
      s.validate.resultPort = some (.readResult .ok (s.cfg.codeOf .ok) (some s.rx.cells)) := by
  rcases validate_cases s with ⟨-, ht⟩ | ⟨k, hk, -⟩
  · rw [ht]; exact ⟨rfl, rfl, rfl, rfl⟩
  · rw [h] at hk; cases hk

/-- The validating step on bytes judged to be failed (R150, R216). -/
theorem validate_of_failed {s : State} {k : Failure} (h : verdictOf s.rx.cells = .failed k) :
    s.validate = s.quiet.raise k := by
  rcases validate_cases s with ⟨hk, -⟩ | ⟨k', hk, ht⟩
  · rw [h] at hk; cases hk
  · rw [h] at hk; cases hk; exact ht

/-- A whole attempt's bytes, stored from offset 0 on, are the cells of `RX` (R143 to R146). -/
theorem storeBytes_datagram {s : State} (hc : s.cnt = 0#6) (d : Datagram) :
    (s.storeBytes d.toList).rx.cells = d := by
  have hlen : d.toList.length = 32 := Vector.length_toList
  have h := storeBytes_cells d.toList s (by rw [hc, hlen]; rfl)
  rw [hc, hlen] at h
  refine Vector.toList_inj.mp ?_
  rw [h]
  simp

/-- Bytes that complete a capture leave `CNT` at 32 (R25). -/
theorem storeBytes_cnt_full {s : State} {bs : List Byte} (h : s.cnt.toNat + bs.length = 32) :
    (s.storeBytes bs).cnt = 32#6 :=
  BitVec.eq_of_toNat_eq ((storeBytes_cnt bs s h.le).trans h)

/-- What storing the bytes of an attempt and validating them leaves unchanged. -/
theorem storeBytes_validate_frame (bs : List Byte) (s : State) :
    PullFrame s (s.storeBytes bs).validate :=
  (storeBytes_frame bs s).trans (validate_frame _)

section
variable {s : State} {d : Datagram} (hc : s.cnt = 0#6)
include hc

/-- A whole attempt's bytes, judged to be `OK`, are the readable datagram (R150). -/
theorem validate_storeBytes_ok (hd : verdictOf d = .ok) :
    (s.storeBytes d.toList).validate.rstate = .ok ∧
    (s.storeBytes d.toList).validate.result = some .ok ∧
    (s.storeBytes d.toList).validate.rx = ⟨d, true⟩ ∧
    (s.storeBytes d.toList).validate.resultPort =
      some (.readResult .ok (s.cfg.codeOf .ok) (some d)) := by
  have hcells := storeBytes_datagram hc d
  have hcfg := (storeBytes_frame d.toList s).cfg
  have h := validate_of_ok (s := s.storeBytes d.toList) (by rw [hcells, hd])
  rwa [hcells, hcfg] at h

/-- A whole attempt's bytes, judged to be failed, leave the valid flag as it was (R150, R216). -/
theorem validate_storeBytes_failed {k : Failure} (hd : verdictOf d = .failed k) :
    (s.storeBytes d.toList).validate.rstate = .failed k ∧
    (s.storeBytes d.toList).validate.result = some (.failed k) ∧
    (s.storeBytes d.toList).validate.rx.valid = s.rx.valid ∧
    (s.storeBytes d.toList).validate.resultPort =
      some (.readResult (.failed k) (s.cfg.codeOf (.failed k)) none) := by
  have hcells := storeBytes_datagram hc d
  have hcfg := (storeBytes_frame d.toList s).cfg
  rw [validate_of_failed (s := s.storeBytes d.toList) (by rw [hcells, hd])]
  refine ⟨rfl, rfl, storeBytes_valid d.toList s, ?_⟩
  rw [State.raise_resultPort, State.quiet_cfg, hcfg]

end

/-- A DATAGRAM is its frame offered to the block (R80). -/
theorem exec_datagram (src dst proto k : Byte) (payload : Payload) (s : State) :
    exec (.datagram src dst proto k payload) s =
      offerFrame (frameBytes src dst proto k payload) s := rfl

/-! ## LOOPBACK (R115) -/

section
variable (bs : List Byte) (s : State)

@[simp] theorem State.feedBytes_tx : (s.feedBytes bs).tx = s.tx := rfl
@[simp] theorem State.feedBytes_cfg : (s.feedBytes bs).cfg = s.cfg := rfl
@[simp] theorem State.feedBytes_resetPin : (s.feedBytes bs).resetPin = s.resetPin := rfl
@[simp] theorem State.feedBytes_sink : (s.feedBytes bs).sink = s.sink := rfl
@[simp] theorem State.feedBytes_rstate : (s.feedBytes bs).rstate = s.rstate := rfl
@[simp] theorem State.feedBytes_stream : (s.feedBytes bs).stream =
    bs.map (fun b => pullWord s.cfg (.byte b)) ++ s.stream := rfl

end

/-- The state in which LOOPBACK's attempt has started (R115). -/
def loopbackStart (ctx : Ctx) (s : State) : State :=
  (((s.emit s.tx.cells.toList).returning (.bytes s.tx.cells)).feedBytes s.tx.cells.toList).startRead ctx

/-- LOOPBACK of a readable `TX` emits it and starts the attempt (R115). -/
theorem loopback_of_valid (ctx : Ctx) {s : State} (hb : s.rstate.busy = false)
    (hv : s.tx.valid = true) : loopback ctx s = .next (loopbackStart ctx s) := by
  rw [loopback, exec_asBytes_of_valid (d := .tx) hb hv]
  exact exec_read_of_terminal (by simpa using hb) ctx

/-- A valid frame ready as pull words at the start of an attempt is the readable datagram 33 steps
later (R81, R141, R150). -/
theorem run_validFrame_words {s : State} {d : Datagram} {rest : List StreamWord} (hw : s.cfg.wf)
    (hp : s.resetPin = false) (hr : s.rstate = .awaitStart) (hc : s.cnt = 0#6)
    (hd : validFrame d = true)
    (hs : s.stream = d.toList.map (fun b => pullWord s.cfg (.byte b)) ++ rest) :
    ∃ u, runSteps 33 s = .next u ∧ u.result = some .ok ∧ u.rx = ⟨d, true⟩ ∧
      PullFrame { s with stream := rest } u := by
  simp only [validFrame, Bool.and_eq_true, decide_eq_true_eq] at hd
  obtain ⟨⟨hstart, hstop⟩, hcheck⟩ := hd
  obtain ⟨-, hresult, hrx, -⟩ := validate_storeBytes_ok (s := { s with stream := rest }) (d := d) hc
    (by rw [verdictOf_of_stop hstop, if_pos hcheck])
  exact ⟨_, run_frame_words hw hp hr hc hstart hs, hresult, hrx, storeBytes_validate_frame ..⟩

/-! ## The fields of a message at their offsets (R92, R95, R98 to R107) -/

/-- Assembly in the model is joining the bytes, the most significant first (R58, R92). -/
theorem assemble_eq_append (b0 b1 b2 b3 : Byte) :
    assemble b0 b1 b2 b3 = b3 ++ (b2 ++ (b1 ++ b0)) := by
  apply BitVec.eq_of_getLsbD_eq
  intro i hi
  simp only [assemble, BitVec.getLsbD_or, BitVec.getLsbD_shiftLeft, BitVec.truncate_eq_setWidth,
    BitVec.getLsbD_setWidth, BitVec.getLsbD_append]
  interval_cases i <;> simp

/-- The model's assembly is the claims' in either byte order (R58). -/
theorem intOf_eq_intRead (o : IntOrder) (b0 b1 b2 b3 : Byte) :
    intOf o b0 b1 b2 b3 = intRead o b0 b1 b2 b3 := by
  cases o <;> exact assemble_eq_append ..

section
variable (o : IntOrder) (g : Datagram)

/-- The fields of each type at the offsets of R98 to R107, payload offset `p` at frame offset `p + 5`. -/
def defaultFields : MsgType → Fields
  | .getFeederInfoReq => []
  | .getFeederInfoResp =>
      [byteField .status g[6], byteField .protocolVersion g[7], byteField .firmwareYear g[8],
       byteField .firmwareMonth g[9], byteField .firmwareDay g[10],
       ⟨.uid, .bytes [g[11], g[12], g[13], g[14], g[15], g[16], g[17], g[18], g[19], g[20], g[21],
         g[22]]⟩]
  | .resetFeederReq => []
  | .resetFeederResp => [byteField .status g[6]]
  | .startFeedReq =>
      [byteField .sequence g[6], ⟨.micrometers, .int (intRead o g[7] g[8] g[9] g[10])⟩]
  | .startFeedResp => [byteField .status g[6], byteField .sequence g[7]]
  | .feedStatusReq => [byteField .sequence g[6]]
  | .feedStatusResp =>
      [byteField .status g[6], byteField .sequence g[7],
       ⟨.actualMicrometers, .int (intRead o g[8] g[9] g[10] g[11])⟩]
  | .queryByUidReq =>
      [⟨.uid, .bytes [g[6], g[7], g[8], g[9], g[10], g[11], g[12], g[13], g[14], g[15], g[16],
        g[17]]⟩]
  | .queryByUidResp => [byteField .status g[6]]

/-- A one-byte slot of a payload holds the byte of the frame (R93). -/
theorem slotValue_byte {f : Field} (hf : f.isInteger = false) {p : Nat} (hp : p + 1 ≤ 26) :
    slotValue o ⟨f, p, 1⟩ (payloadOf g) = .bytes [g[p + 5]] := by
  have hs : (⟨f, p, 1⟩ : Slot).isInteger = false := Slot.isInteger_eq_false hf
  rw [slotValue, if_neg (ne_true_of_eq_false hs), slotBytes]
  simp [payloadByte_payloadOf g (show p < 26 from hp)]

/-- The identifier's slot of a payload holds 12 bytes of the frame (R93). -/
theorem slotValue_uid {p : Nat} (hp : p + 12 ≤ 26) :
    slotValue o ⟨.uid, p, 12⟩ (payloadOf g) =
      .bytes [g[p + 5], g[p + 6], g[p + 7], g[p + 8], g[p + 9], g[p + 10], g[p + 11], g[p + 12],
        g[p + 13], g[p + 14], g[p + 15], g[p + 16]] := by
  have hs : (⟨.uid, p, 12⟩ : Slot).isInteger = false := Slot.isInteger_eq_false rfl
  rw [slotValue, if_neg (ne_true_of_eq_false hs), slotBytes]
  simp (disch := omega) [List.range_succ, payloadByte_payloadOf]

/-- An integer slot of a payload holds the number its four bytes are read as (R92). -/
theorem slotValue_int {f : Field} (hf : f.isInteger = true) {p : Nat} (hp : p + 4 ≤ 26) :
    slotValue o ⟨f, p, 4⟩ (payloadOf g) =
      .int (intRead o g[p + 5] g[p + 6] g[p + 7] g[p + 8]) := by
  have hs : (⟨f, p, 4⟩ : Slot).isInteger = true := by simp [Slot.isInteger, hf]
  rw [slotValue, if_pos hs, intOf_eq_intRead]
  simp (disch := omega) [payloadByte_payloadOf]

end

/-- Under the layout of R98 to R107 a payload decodes to the fields of its table. -/
theorem messageOf_defaultLayout {c : Config} {o : IntOrder} (hc : c.layout = Config.defaultLayout)
    (ho : c.intOrder = o) (T : MsgType) (g : Datagram) :
    messageOf c T (payloadOf g) = ⟨T, defaultFields o g T⟩ := by
  have hslots : c.slots T = Config.default.slots T := by rw [Config.slots, hc]; rfl
  rw [messageOf, hslots, ho]
  cases T <;> simp (disch := decide) [Config.slots, Config.default, Config.defaultLayout,
    MsgType.index, defaultFields, byteField, slotValue_byte, slotValue_uid, slotValue_int]

/-- `FROM_DATAGRAM` of a valid register returns the view of its payload and changes nothing else
(R173). -/
theorem exec_fromDatagram_view {s : State} {d : DReg} {g : Datagram} {t : BitVec 4} {T : MsgType}
    (hb : s.rstate.busy = false) (hg : s.reg d = ⟨g, true⟩) (hT : messageType t = some T) :
    exec (.fromDatagram d t) s =
      .next (ReturnsOnly (.fields (viewOf s.cfg T (payloadOf g))) s) := by
  rw [exec_fromDatagram hb (by rw [hg]) hT, hg]
  rfl

/-- The default table names a status byte as R95 does. -/
theorem statusOf_defaultStatus {c : Config} (hc : c.status = Config.default.status) (b : Byte) :
    statusOf c b = statusNamed b := by
  have hcode : c.statusCode = Config.default.statusCode := by
    funext k
    rw [Config.statusCode, hc, Config.statusCode]
  rw [statusOf, hcode]
  revert b; decide

/-- Under the default layout the first field of a response is its status; no request has one (R95). -/
theorem messageStatus_default (o : IntOrder) (g : Datagram) (T : MsgType) :
    messageStatus ⟨T, defaultFields o g T⟩ = if T.isResponse then some g[6] else none := by
  cases T <;> rfl

/-- Under the default layout two types have an integer (R92). -/
theorem messageInt_default (o : IntOrder) (g : Datagram) (T : MsgType) :
    messageInt ⟨T, defaultFields o g T⟩ =
      match T with
      | .startFeedReq => some (intRead o g[7] g[8] g[9] g[10])
      | .feedStatusResp => some (intRead o g[8] g[9] g[10] g[11])
      | _ => none := by
  cases T <;> rfl

/-! ## The statements -/

/-- Settles O1: the words of each format decode by its own table. -/
theorem decodeOfEncodeIsTheInstruction : Obligations.DecodeOfEncodeIsTheInstruction :=
  fun _ _ h hi => decode_encode h hi

/-- Settles O2: the first byte and the operand bytes that decode are those the encoder writes. -/
theorem requestWordHasOneMeaning : Obligations.RequestWordHasOneMeaning :=
  fun _ _ _ h => encode_of_decodeOp h

/-- Settles O3: ten words, each decoded. -/
theorem tableWordsDecode : Obligations.TableWordsDecode := by
  unfold Obligations.TableWordsDecode
  decide

/-- Settles O4: the default table gives a reserved selector to no operation, so the word is refused. -/
theorem reservedSelectorHasNoStep : Obligations.ReservedSelectorHasNoStep := by
  intro s sel bit operands rest hsel hc hr hb hs
  refine step_of_rejected hr hb hs ?_
  rw [hc]
  exact decodeOp_of_opOf_none (opOf_reserved hsel) bit operands

/-- Settles O5: a pull word decodes by its tag, and every tag is in the table. -/
theorem pullWordIsOneOfFourResults : Obligations.PullWordIsOneOfFourResults := by
  intro c data h
  refine ⟨decodePull_append h .byte data, decodePull_append h .retry data,
    decodePull_append h .abort data, decodePull_append h .other data, fun w => ?_⟩
  obtain ⟨t, ht⟩ := exists_tagOf h (w.extractLsb' 8 2)
  exact ⟨_, decodePull_of_tagOf h ht⟩

/-- Settles O45: no request of a busy reader gets past its acceptance. -/
theorem busyReaderTurnsRequestsAway : Obligations.BusyReaderTurnsRequestsAway :=
  fun _ _ hi hb => exec_of_busy hi hb

/-- Settles O44: a request that ran was made of a terminal reader with its operands in range and its
register valid, and nothing else can stop it. -/
theorem requestRunsExactlyWhenAccepted : Obligations.RequestRunsExactlyWhenAccepted := by
  intro i s hi
  refine ⟨fun ⟨t, h⟩ => ?_, exec_of_accepts hi⟩
  obtain ⟨hb, -⟩ := request_effect hi h
  exact ⟨hb, inRange_of_exec h, fun d hd => valid_of_readsReg hd h⟩

/-- Settles O58: a request's effect, a pull and the validating step each set both ports. -/
theorem outputPortsShowTheStep : Obligations.OutputPortsShowTheStep := by
  refine ⟨fun i s t he => ⟨fun hi => ?_, fun hi hp => ?_⟩, fun s t hr hv hstep => ?_, rfl⟩
  · obtain ⟨-, heff⟩ := request_effect hi he
    exact heff.ports hi
  · rcases answer_cases hi he with ⟨-, r, ws, rfl⟩ | ⟨hn, -⟩
    · exact takePull_ports (s := { s with stream := ws }) hp r
    · rw [hp] at hn; cases hn
  · rw [step_of_validating hr hv] at hstep
    cases hstep
    exact validate_ports s

/-- Settles O53: the step is the validating one, whose verdict tested the stop sentinel and the
checksum; the invariant holds the start sentinel. -/
theorem okMeansAValidFrame : Obligations.OkMeansAValidFrame := by
  intro s t h hstep hb hok
  obtain ⟨hv, rfl⟩ := validating_of_step_ok hstep hb hok
  have hstart : s.rx.cells[0] = START := h.start_held (by rw [hv]; rfl)
  rcases validate_cases s with ⟨hd, ht⟩ | ⟨k, -, ht⟩ <;> rw [ht] at hok ⊢
  · rcases verdictOf_cases s.rx.cells with ⟨-, hstop, hcheck⟩ | ⟨hd', -⟩ | ⟨hd', -⟩
    · exact ⟨rfl, hstart, hstop, hcheck⟩
    · rw [hd] at hd'; cases hd'
    · rw [hd] at hd'; cases hd'
  · cases hok

/-- Settles O19: BUILD writes one datagram, the checksummed frame. -/
theorem buildLeavesAChecksummedFrame : Obligations.BuildLeavesAChecksummedFrame := by
  intro d src dst proto payload s hb
  refine ⟨_, execAll_buildOps d src dst proto payload hb, ?_⟩
  rw [← setChecksum_frameBytes]
  exact writesDatagram_writeDatagram d _ s

/-- Settles O37: the 32 bytes are stored from offset 0, and the verdict on a frame is its checksum's. -/
theorem frameIsReadAndJudged : Obligations.FrameIsReadAndJudged := by
  intro s src dst proto k payload hw hp hr hc
  obtain ⟨t, ht, hrun⟩ := run_frame_start hw hp hr hc (frameBytes_start src dst proto k payload)
  have hlist := frameBytes_toList src dst proto k payload
  have hverdict := verdictOf_of_stop (frameBytes_stop src dst proto k payload)
  rw [checkChecksum_frameBytes] at hverdict
  refine ⟨t, _, (exec_datagram ..).trans ht, hrun, ?_⟩
  generalize frameBytes src dst proto k payload = g at hlist hverdict ⊢
  have hcells : (s.storeBytes g.toList).validate.rx.cells = g := by
    rw [validate_cells, storeBytes_datagram hc]
  have F := storeBytes_validate_frame g.toList s
  obtain ⟨-, hpull⟩ := validate_ports (s.storeBytes g.toList)
  refine ⟨by rw [hcells]; exact hlist, ?_, F.tx, F.ctx, ⟨F.cfg, F.requests, F.stream, F.resetPin⟩,
    F.sink, hpull, fun hk => ?_, fun hk => ?_⟩
  · rw [validate_cnt]
    exact storeBytes_cnt_full (by rw [hc, Vector.length_toList]; rfl)
  · rw [hcells]
    obtain ⟨hrstate, hresult, hrx, hport⟩ :=
      validate_storeBytes_ok hc (hverdict.trans (if_pos (decide_eq_true hk)))
    exact ⟨hrstate, hresult, by rw [hrx], hport⟩
  · exact validate_storeBytes_failed hc
      (hverdict.trans (if_neg (ne_true_of_eq_false (decide_eq_false hk))))

/-- Settles O38: the bytes that fit are stored behind those `RX` has, the others stay on the stream. -/
theorem frameInsideAnAttemptIsBodyBytes : Obligations.FrameInsideAnAttemptIsBodyBytes := by
  intro s src dst proto k payload n hw hp h1 hr hc
  have hcnt : s.cnt.toNat = n.val := by rw [hc, BitVec.toNat_ofNat]; omega
  obtain ⟨t, ht, hrun⟩ :=
    run_frame_body (frameBytes src dst proto k payload) hw hp hr hcnt (by omega)
  have hlist : (frameBytes src dst proto k payload).toList =
      [0x55#8, src, dst, proto, k] ++ payload.toList ++ [0x2A#8] := frameBytes_toList ..
  rw [← storeBytes_with_stream] at hrun
  rw [← hlist]
  have hlen : s.cnt.toNat +
      ((frameBytes src dst proto k payload).toList.take (32 - n.val)).length = 32 := by
    rw [hcnt, List.length_take, Vector.length_toList]; omega
  generalize (frameBytes src dst proto k payload).toList.take (32 - n.val) = bs at hrun hlen ⊢
  generalize List.map _ _ ++ s.stream = ws at hrun ⊢
  have F := storeBytes_validate_frame bs { s with stream := ws }
  have hcells := storeBytes_cells bs { s with stream := ws } hlen.le
  refine ⟨t, _, (exec_datagram ..).trans ht, hrun, ?_, F.stream, ?_, validate_terminal _, ?_, F.tx,
    F.ctx, F.cfg, F.requests, F.resetPin, F.sink⟩
  · rw [validate_cells, hcells, ← hcnt]
    simp [hlen]
  · rw [validate_cnt]
    exact storeBytes_cnt_full (s := { s with stream := ws }) hlen
  · rw [validate_result, validate_cells]

/-- Settles O43: the bytes emitted are those the attempt reads, a valid frame. -/
theorem loopbackReturnsTheFrame : Obligations.LoopbackReturnsTheFrame := by
  intro ctx s hw hp hb hv hvalid
  obtain ⟨u, hrun, hresult, hrx, F⟩ := run_validFrame_words (s := loopbackStart ctx s)
    (rest := s.stream) (by simpa [loopbackStart] using hw) (by simpa [loopbackStart] using hp) rfl rfl
    hvalid (by simp [loopbackStart])
  refine ⟨_, u, loopback_of_valid ctx hb hv, hrun, hresult, ?_, ?_, F.ctx, F.stream, ?_⟩
  · rw [hrx, ← hv]
  · simpa [loopbackStart] using F.tx
  · simpa [loopbackStart] using F.sink

/-- Settles O23: each view's message is the table of its type. -/
theorem fromDatagramFieldsAtTheirOffsets : Obligations.FromDatagramFieldsAtTheirOffsets := by
  intro d s g o hb hg hc
  have hexec {t T} (hT : messageType t = some T) := exec_fromDatagram_view hb hg hT
  have hfields := messageOf_defaultLayout (c := s.cfg) (o := o) (by rw [hc]; rfl) (by rw [hc])
  exact ⟨_, _, _, _, _, _, _, _, _, _, hexec rfl, hexec rfl, hexec rfl, hexec rfl, hexec rfl,
    hexec rfl, hexec rfl, hexec rfl, hexec rfl, hexec rfl, hfields _ g, hfields _ g, hfields _ g,
    hfields _ g, hfields _ g, hfields _ g, hfields _ g, hfields _ g, hfields _ g, hfields _ g⟩

/-- Settles O24: the status and the integer of a view are those of its message, named and read by the
configuration's tables. -/
theorem viewNamesStatusAndReadsMicrometers : Obligations.ViewNamesStatusAndReadsMicrometers := by
  intro d s g o signed hb hg hc number
  have hexec {t T} (hT : messageType t = some T) := exec_fromDatagram_view hb hg hT
  have hmsg := messageOf_defaultLayout (c := s.cfg) (o := o) (by rw [hc]; rfl) (by rw [hc])
  have hstatus (T : MsgType) : (viewOf s.cfg T (payloadOf g)).statusName =
      if T.isResponse then statusNamed g[6] else none := by
    simp only [viewOf, hmsg, messageStatus_default]
    split
    · exact statusOf_defaultStatus (by rw [hc]) _
    · rfl
  have hnumber (T : MsgType) : (viewOf s.cfg T (payloadOf g)).micrometers =
      (messageInt ⟨T, defaultFields o g T⟩).map number := by
    simp only [viewOf, hmsg]
    rw [hc]; rfl
  refine ⟨_, _, _, _, _, _, _, _, _, _, hexec rfl, hexec rfl, hexec rfl, hexec rfl, hexec rfl,
    hexec rfl, hexec rfl, hexec rfl, hexec rfl, hexec rfl, ?_, ?_, hnumber _, hnumber _, ?_⟩
  · simp only [List.forall_mem_cons]
    exact ⟨hstatus _, hstatus _, hstatus _, hstatus _, hstatus _, nofun⟩
  · simp only [List.forall_mem_cons]
    exact ⟨hstatus _, hstatus _, hstatus _, hstatus _, hstatus _, nofun⟩
  · simp only [List.forall_mem_cons]
    exact ⟨hnumber _, hnumber _, hnumber _, hnumber _, hnumber _, hnumber _, hnumber _, hnumber _,
      nofun⟩

end Sys2Proof.Machine
end

section
/-! PROOFS for the family 40_framing_codec.md: the checksum is a CRC-8 on the accumulator's high byte,
linear, and changed by a change of any one byte (R122, R123, R126, R131); each operation of the Framing
Codec as its exact next state (R121 to R130). -/

namespace Sys2Proof.Machine

open Claims (crc8Step crc8Byte flipBit WritesDatagram)

/-! ## The checksum is a CRC-8 on the high byte (R126) -/

/-- An accumulator whose low byte is zero, spelled as the statement does. -/
theorem append_zeroByte (c : Byte) : c ++ 0x00#8 = (c.zeroExtend 16 <<< 8 : Acc) := by
  have h := BitVec.setWidth_append_eq_shiftLeft_setWidth_or (b := c) (b' := 0x00#8) (w'' := 16)
  rw [BitVec.setWidth_eq] at h
  rw [h]
  simp

theorem highByte_shiftLeft_one (c : Byte) :
    (c.zeroExtend 16 <<< 8 : Acc) <<< 1 = (c <<< 1).zeroExtend 16 <<< 8 := by
  apply BitVec.eq_of_getLsbD_eq
  intro i hi
  interval_cases i <;> simp

/-- With the low byte zero an inner step keeps it zero: the constant after the shift, `0x0700`, has
its ones in the high byte (R122, R126). -/
theorem crcStep_highByte (c : Byte) :
    crcStep (c.zeroExtend 16 <<< 8) = (crc8Step c).zeroExtend 16 <<< 8 := by
  have hbit : (c.zeroExtend 16 <<< 8 : Acc).getLsbD 15 = c.getLsbD 7 := by simp
  have hpoly : CRC_POLY16 <<< 1 = (0x07#8 : Byte).zeroExtend 16 <<< 8 := by decide
  rw [crcStep, crc8Step, hbit]
  split
  · rw [BitVec.shiftLeft_xor_distrib, highByte_shiftLeft_one, hpoly, highByte_xor]
  · exact highByte_shiftLeft_one c

theorem crcByte_highByte (c b : Byte) :
    crcByte (c.zeroExtend 16 <<< 8) b = (crc8Byte c b).zeroExtend 16 <<< 8 := by
  simp only [crcByte, ← highByte_xor, crcSteps, crcStep_highByte, crc8Byte]

theorem crcFold_highByte (bs : List Byte) (c : Byte) :
    crcFold (c.zeroExtend 16 <<< 8) bs = (bs.foldl crc8Byte c).zeroExtend 16 <<< 8 := by
  induction bs generalizing c with
  | nil => rfl
  | cons b bs ih => rw [crcFold_cons, crcByte_highByte, ih, List.foldl_cons]

/-- The checksum is the plain CRC-8 of its bytes (R126). -/
theorem crcRaw_eq_foldl (bs : List Byte) : crcRaw bs = bs.foldl crc8Byte 0x00#8 := by
  have hfold : crcFold 0#16 bs = _ := crcFold_highByte bs 0x00#8
  rw [crcRaw, hfold, ← append_zeroByte, BitVec.extractLsb'_append_eq_left]

/-! ## It is linear over exclusive or (R126) -/

theorem crcFold_zipWith_xor {as bs : List Byte} (h : as.length = bs.length) (x y : Acc) :
    crcFold (x ^^^ y) (List.zipWith (· ^^^ ·) as bs) = crcFold x as ^^^ crcFold y bs := by
  induction as generalizing bs x y with
  | nil => cases bs with
    | nil => rfl
    | cons b bs => cases h
  | cons a as ih => cases bs with
    | nil => cases h
    | cons b bs =>
      rw [List.zipWith_cons_cons, crcFold_cons, crcByte_xor, ih (Nat.succ.inj h)]
      rfl

theorem crcRaw_zipWith_xor {as bs : List Byte} (h : as.length = bs.length) :
    crcRaw (List.zipWith (· ^^^ ·) as bs) = crcRaw as ^^^ crcRaw bs := by
  have hfold := crcFold_zipWith_xor h 0#16 0#16
  rw [BitVec.xor_self] at hfold
  rw [crcRaw, hfold, BitVec.extractLsb'_xor]
  rfl

theorem crcRaw_zeros (n : Nat) : crcRaw (List.replicate n 0x00#8) = 0x00#8 := by
  rw [crcRaw_eq_foldl]
  induction n with
  | zero => rfl
  | succ n ih => exact ih

/-- Exclusive or of one byte of a list changes the checksum by that of the byte among zeros. -/
theorem crcRaw_set_xor {bs : List Byte} {o : Nat} (h : o < bs.length) (e : Byte) :
    crcRaw (bs.set o (bs[o] ^^^ e)) =
      crcRaw bs ^^^ crcRaw ((List.replicate bs.length 0x00#8).set o e) := by
  rw [← crcRaw_zipWith_xor (by simp)]
  congr 1
  refine List.ext_getElem (by simp) fun i h1 h2 => ?_
  rw [List.getElem_zipWith, List.getElem_set, List.getElem_set]
  by_cases hi : o = i
  · subst hi; simp
  · simp [hi]

/-! ## A change of one byte changes it (R131) -/

theorem byte_eq_of_shiftLeft_one {x y : Byte} (htop : x.getLsbD 7 = y.getLsbD 7)
    (hshift : x <<< 1 = y <<< 1) : x = y := by
  apply BitVec.eq_of_getLsbD_eq
  intro i hi
  by_cases h7 : i = 7
  · rw [h7, htop]
  · have hi7 : i + 1 < 8 := by omega
    have hbit : (x <<< 1).getLsbD (i + 1) = (y <<< 1).getLsbD (i + 1) := by rw [hshift]
    simpa [BitVec.getLsbD_shiftLeft, hi7, -BitVec.getLsbD_eq_getElem] using hbit

/-- The generator has the constant term 1, so bit 0 of the result is the bit that was shifted out. -/
theorem crc8Step_getLsbD_zero (c : Byte) : (crc8Step c).getLsbD 0 = c.getLsbD 7 := by
  rw [crc8Step]
  cases hc : c.getLsbD 7 <;> simp

theorem crc8Step_injective : Function.Injective crc8Step := by
  intro x y h
  have htop : x.getLsbD 7 = y.getLsbD 7 := by
    rw [← crc8Step_getLsbD_zero, ← crc8Step_getLsbD_zero, h]
  refine byte_eq_of_shiftLeft_one htop ?_
  rw [crc8Step, crc8Step, htop] at h
  split at h
  · exact (BitVec.xor_left_inj _).mp h
  · exact h

theorem crc8Byte_eq_iff {c b c' b' : Byte} :
    crc8Byte c b = crc8Byte c' b' ↔ c ^^^ b = c' ^^^ b' := by
  simp only [crc8Byte, crc8Step_injective.eq_iff]

theorem foldl_crc8Byte_injective (bs : List Byte) :
    Function.Injective fun c => bs.foldl crc8Byte c := by
  induction bs with
  | nil => exact fun _ _ h => h
  | cons b bs ih => exact fun _ _ h => (BitVec.xor_left_inj _).mp (crc8Byte_eq_iff.mp (ih h))

/-- Lists that differ in one byte have different checksums. -/
theorem crcRaw_set_eq_iff {bs : List Byte} {o : Nat} (h : o < bs.length) (v : Byte) :
    crcRaw (bs.set o v) = crcRaw bs ↔ v = bs[o] := by
  refine ⟨fun heq => ?_, fun hv => by rw [hv, List.set_getElem_self]⟩
  have hsplit : bs = bs.take o ++ bs[o] :: bs.drop (o + 1) := by simp
  rw [List.set_eq_take_append_cons_drop, if_pos h, crcRaw_eq_foldl, crcRaw_eq_foldl,
    congrArg (List.foldl crc8Byte 0x00#8) hsplit, List.foldl_append, List.foldl_append,
    List.foldl_cons, List.foldl_cons] at heq
  exact (BitVec.xor_right_inj _).mp (crc8Byte_eq_iff.mp (foldl_crc8Byte_injective _ heq))

/-! ## The checksum of a datagram (R123 to R125, R130) -/

/-- The stored checksum does not enter the computed one (R123). -/
theorem computeChecksum_set_checksum (d : Datagram) (v : Byte) :
    computeChecksum (d.set 4 v) = computeChecksum d := by
  rw [computeChecksum, Vector.set_set, computeChecksum]

theorem computeChecksum_eq_crcRaw (d : Datagram) :
    computeChecksum d = crcRaw (d.toList.take 4 ++ [0x00#8] ++ d.toList.drop 5) := by
  rw [computeChecksum, Vector.toList_set, List.set_eq_take_append_cons_drop, if_pos (by simp),
    List.append_assoc]
  rfl

/-- `check_checksum` after `set_checksum` is true (R130). -/
theorem checkChecksum_setChecksum (d : Datagram) : checkChecksum (setChecksum d) = true := by
  rw [checkChecksum, setChecksum, computeChecksum_set_checksum, Vector.getElem_set_self]
  exact decide_eq_true rfl

/-- The covered bytes, with the checksum read as zero, are the cells of the datagram. -/
theorem zeroedChecksum_getElem (d : Datagram) {o : Nat} (ho : o < 32) (h4 : o ≠ 4) :
    (d.set 4 0x00#8).toList[o]'(by simpa using ho) = d[o] := by
  rw [← cell_eq _ ho, Vector.getElem_set_ne _ _ (Ne.symm h4)]

/-- Writing a covered byte writes it in the list the checksum is taken of. -/
theorem computeChecksum_set (d : Datagram) {o : Nat} (ho : o < 32) (h4 : o ≠ 4) (v : Byte) :
    computeChecksum (d.set o v) = crcRaw ((d.set 4 0x00#8).toList.set o v) := by
  rw [computeChecksum, Vector.set_comm _ _ h4, Vector.toList_set]

/-- A matching checksum no longer matches after a change of any one byte, be it the checksum or a byte
it covers (R131). -/
theorem checkChecksum_set_of_ne {d : Datagram} (hd : checkChecksum d = true) {o : Nat} (ho : o < 32)
    {v : Byte} (hv : v ≠ d[o]) : checkChecksum (d.set o v) = false := by
  have hstored : d[4] = computeChecksum d := of_decide_eq_true hd
  refine decide_eq_false fun heq => hv ?_
  by_cases h4 : o = 4
  · subst h4
    rw [Vector.getElem_set_self, computeChecksum_set_checksum] at heq
    rw [heq, hstored]
  · rw [Vector.getElem_set_ne _ _ h4, hstored, computeChecksum_set d ho h4] at heq
    exact ((crcRaw_set_eq_iff _ v).mp heq.symm).trans (zeroedChecksum_getElem d ho h4)

/-! ## Flipped bits (R131) -/

theorem flipBit_eq_set (d : Datagram) {o : Nat} (ho : o < 32) (k : Nat) :
    flipBit d o k = d.set o (d[o] ^^^ (1#8 <<< k)) := by
  rw [flipBit, setIfInBounds_eq_set d ho, List.getD_eq_getElem _ _ (by simpa using ho),
    ← cell_eq d ho]

/-- A bit flipped outside the checksum changes the computed checksum by that of the bit alone. -/
theorem computeChecksum_flipBit (d : Datagram) {o : Nat} (ho : o < 32) (h4 : o ≠ 4) (k : Nat) :
    computeChecksum (flipBit d o k) =
      computeChecksum d ^^^ crcRaw ((List.replicate 32 0x00#8).set o (1#8 <<< k)) := by
  rw [flipBit_eq_set d ho, computeChecksum_set d ho h4, ← zeroedChecksum_getElem d ho h4,
    crcRaw_set_xor, Vector.length_toList, computeChecksum]

theorem flipBit_checksum (d : Datagram) {o : Nat} (ho : o < 32) (h4 : o ≠ 4) (k : Nat) :
    (flipBit d o k)[4] = d[4] := by
  rw [flipBit_eq_set d ho, Vector.getElem_set_ne _ _ h4]

theorem one_shiftLeft_ne_zero {k : Nat} (hk : k < 8) : 1#8 <<< k ≠ 0x00#8 := by
  interval_cases k <;> decide

/-- Bit 0 of offset 1 stands 127 places before bit 1 of offset 17, and `x^127` is 1 modulo the generator,
so the two bits have one checksum (R131). -/
theorem crcRaw_oneBit_period :
    crcRaw ((List.replicate 32 0x00#8).set 17 (1#8 <<< 1)) =
      crcRaw ((List.replicate 32 0x00#8).set 1 (1#8 <<< 0)) := by decide +kernel

/-! ## The operations as next states (R121, R123, R125, R128) -/

theorem exec_init {s : State} (hb : s.rstate.busy = false) (d : DReg) (src dst proto : Byte) :
    exec (.init d src dst proto) s = .next (s.writeDatagram d (initFrame src dst proto)) :=
  accepting_of_terminal hb _

theorem exec_fromBytes {s : State} (hb : s.rstate.busy = false) (d : DReg) (bytes : Datagram) :
    exec (.fromBytes d bytes) s = .next (s.writeDatagram d bytes) := accepting_of_terminal hb _

section
variable {s : State} {d : DReg} (hb : s.rstate.busy = false) (hv : (s.reg d).valid = true)
include hb hv

theorem exec_computeChecksum : exec (.computeChecksum d) s =
    .next (s.returning (.checksum (computeChecksum (s.reg d).cells))) := by
  rw [exec, execComputeChecksum, reading_of_valid hb hv]

theorem exec_checkChecksum : exec (.checkChecksum d) s =
    .next (s.returning (.verdict (checkChecksum (s.reg d).cells))) := by
  rw [exec, execCheckChecksum, reading_of_valid hb hv]

end

/-! ## A written cell (R124, R129) -/

theorem writeCell_getElem (d : DReg) (p : Nat) (v : Byte) (s : State) {o : Nat} (ho : o < 32) :
    ((s.writeCell d p v).reg d).cells[o] = if o = p then v else (s.reg d).cells[o] := by
  rw [State.reg_writeCell_self, Vector.getElem_setIfInBounds ho]
  simp only [eq_comm]

theorem onlyReg_writeCell (d : DReg) (o : Nat) (v : Byte) (s : State) :
    OnlyReg d s (s.writeCell d o v) := by
  simp [OnlyReg, SameReader, SameInputs]

/-! ## The statements on the checksum -/

/-- Settles O7: an inner step with the low byte zero is a step of the CRC-8. -/
theorem checksumActsOnTheHighByte : Obligations.ChecksumActsOnTheHighByte := by
  intro c b
  rw [append_zeroByte, append_zeroByte, crcByte_highByte]

/-- Settles O8: each byte's step distributes over exclusive or and keeps zero. -/
theorem checksumIsLinear : Obligations.ChecksumIsLinear :=
  ⟨fun _ _ h => crcRaw_zipWith_xor h, crcRaw_zeros⟩

/-- Settles O10: the stored checksum is the computed one, which does not depend on it. -/
theorem checkAfterSetIsTrue : Obligations.CheckAfterSetIsTrue := by
  refine ⟨checkChecksum_setChecksum, fun d s hb hv => ?_⟩
  have hcells : ((s.writeCell d 4 (computeChecksum (s.reg d).cells)).reg d).cells =
      setChecksum (s.reg d).cells := by
    rw [State.reg_writeCell_self, setIfInBounds_eq_set _ (by decide), setChecksum]
  have hcheck := exec_checkChecksum (s := s.writeCell d 4 (computeChecksum (s.reg d).cells)) (d := d)
    (by rwa [State.writeCell_rstate]) (by rwa [State.reg_writeCell_self])
  rw [hcells, checkChecksum_setChecksum] at hcheck
  exact ⟨_, _, exec_setChecksum hb hv, hcheck, State.returning_resultPort _ _⟩

/-- Settles O11: a flipped bit changes one byte; the two bits of the example change the computed
checksum by the same byte, and neither is in the stored one. -/
theorem singleBitFlipsAreDetected : Obligations.SingleBitFlipsAreDetected := by
  intro d hd
  refine ⟨fun o k ho hk => ?_, ?_⟩
  · rw [flipBit_eq_set d ho]
    refine checkChecksum_set_of_ne hd ho fun h => one_shiftLeft_ne_zero hk ?_
    exact (BitVec.xor_right_inj d[o]).mp (h.trans BitVec.xor_zero.symm)
  · have hstored : d[4] = computeChecksum d := of_decide_eq_true hd
    rw [checkChecksum, flipBit_checksum _ (by decide) (by decide),
      flipBit_checksum _ (by decide) (by decide), computeChecksum_flipBit _ (by decide) (by decide),
      computeChecksum_flipBit _ (by decide) (by decide), crcRaw_oneBit_period, BitVec.xor_assoc,
      BitVec.xor_self, BitVec.xor_zero]
    exact decide_eq_true hstored

/-- Settles O6: the values the spec works out. -/
theorem checksumWorkedValues : Obligations.ChecksumWorkedValues := by
  unfold Obligations.ChecksumWorkedValues
  decide +kernel

/-- Settles O9: the checksum is computed with offset 4 set to zero, whatever was there. -/
theorem computedChecksumIgnoresStoredOne : Obligations.ComputedChecksumIgnoresStoredOne := by
  intro d v
  rw [setIfInBounds_eq_set d (by decide)]
  exact ⟨computeChecksum_set_checksum d v, computeChecksum_eq_crcRaw d⟩

/-! ## The statements on the operations -/

/-- Settles O13: `INIT` writes one whole datagram. -/
theorem initWritesAFreshDatagram : Obligations.InitWritesAFreshDatagram := by
  intro d src dst proto s hb
  refine ⟨_, exec_init hb d src dst proto, ?_⟩
  have hbytes : (initFrame src dst proto).toList =
      [0x55#8, src, dst, proto, 0x00#8] ++ List.replicate 26 0x00#8 ++ [0x2A#8] := by
    rw [initFrame, frameBytes_toList, Vector.toList_replicate]
    rfl
  rw [← hbytes]
  exact writesDatagram_writeDatagram d _ s

/-- Settles O14: both read the register and return. -/
theorem computeAndCheckOnlyReturn : Obligations.ComputeAndCheckOnlyReturn := by
  intro d s hb hv
  rw [← computeChecksum_eq_crcRaw]
  exact ⟨exec_computeChecksum hb hv, exec_checkChecksum hb hv⟩

/-- Settles O15: `SET_CHECKSUM` writes the cell of the checksum. -/
theorem setChecksumStoresOneCell : Obligations.SetChecksumStoresOneCell := by
  intro d s hb hv
  refine ⟨_, exec_setChecksum hb hv, ?_, fun o ho => ?_, ?_, onlyReg_writeCell d _ _ s⟩
  · rw [writeCell_getElem d 4 _ s (by decide), if_pos rfl, computeChecksum_eq_crcRaw]
  · exact (writeCell_getElem d 4 _ s o.isLt).trans (if_neg fun h => ho (Fin.ext h))
  · rwa [State.reg_writeCell_self]

/-- Settles O16: `AS_BYTES` emits and returns the cells and does nothing else. -/
theorem asBytesEmitsTheCellsInOrder : Obligations.AsBytesEmitsTheCellsInOrder :=
  fun _ _ hb hv => exec_asBytes_of_valid hb hv

/-- Settles O17: the register `FROM_BYTES` wrote is valid and holds the bytes `AS_BYTES` gives. -/
theorem fromBytesThenAsBytesIsIdentity : Obligations.FromBytesThenAsBytesIsIdentity := by
  intro d bytes s hb
  have hout := exec_asBytes_of_valid (s := s.writeDatagram d bytes) (d := d)
    (by rwa [State.writeDatagram_rstate]) (by rw [State.reg_writeDatagram_self])
  rw [State.reg_writeDatagram_self] at hout
  exact ⟨_, exec_fromBytes hb d bytes, writesDatagram_writeDatagram d bytes s, _, hout, by simp, by simp,
    by simp⟩

/-- Settles O18: `WRITE_PAYLOAD` writes the cell at the frame offset of its payload offset. -/
theorem writePayloadStoresOneCell : Obligations.WritePayloadStoresOneCell := by
  intro d p v s hb hv hp
  refine ⟨_, exec_writePayload hb hv hp v, fun o => ?_, ?_, onlyReg_writeCell d _ _ s⟩
  · exact writeCell_getElem d _ v s o.isLt
  · rwa [State.reg_writeCell_self]

end Sys2Proof.Machine
end

section
/-! PROOFS for the family 41_stream_reader.md: each transition of a read attempt as its next state (R142
to R151), an attempt that retries forever (R154), a frame with one corrupted payload byte, and the
agreement of an attempt with the function `read(s)` (R156). -/

namespace Sys2Proof.Machine

open Claims (Raises)

/-! ## The transitions (R142 to R151) -/

/-- A pull answer offered to the block is its instruction (R50, R109). -/
theorem exec_pullResult (r : PullResult) (s : State) : exec r.instr s = offer r s := by
  cases r <;> rfl

theorem exec_pullResult_of_pulling {s : State} (hp : s.rstate.pulling = true) (r : PullResult) :
    exec r.instr s = .next (s.takePull r) := (exec_pullResult r s).trans (offer_pulling hp)

theorem RState.pulling_of_eq {r : RState} (h : r = .awaitStart ∨ r = .readingBody) : r.pulling = true := by
  rcases h with rfl | rfl <;> rfl

/-- A first byte that is no start sentinel fails the attempt (R144). -/
theorem takeByte_of_noStart {s : State} {b : Byte} (hs : s.rstate = .awaitStart) (hb : b ≠ START) :
    s.takeByte b = s.pulled.raise .noStartByte := if_pos ⟨hs, hb⟩

/-- Every other byte is stored (R143, R145, R146). -/
theorem takeByte_of_stored {s : State} {b : Byte} (h : ¬(s.rstate = .awaitStart ∧ b ≠ START)) :
    s.takeByte b = s.pulled.storeByte b := if_neg h

/-- The byte stored with `n` bytes before it stands at offset `n` (R143, R145, R146). -/
theorem storeByte_at {s : State} {n : Fin 32} (hc : s.cnt = BitVec.ofNat 6 n.val) (b : Byte) :
    s.pulled.storeByte b = { s with
      rx := { s.rx with cells := s.rx.cells.set n.val b }
      cnt := BitVec.ofNat 6 (n.val + 1)
      rstate := afterStored (n.val + 1)
      resultPort := none, pullCtx := some s.ctx } := by
  have hcnt : s.cnt.toNat = n.val := by rw [hc, BitVec.toNat_ofNat]; omega
  have hnext : s.cnt + 1#6 = BitVec.ofNat 6 (n.val + 1) := by rw [hc, BitVec.ofNat_add]
  rw [State.storeByte, State.pulled_cnt, State.pulled_rx, hcnt, hnext,
    setIfInBounds_eq_set _ n.isLt]
  rfl

/-- A failure raised by a pull, as the claims say it (R216). -/
theorem raises_pulled (k : Failure) (s : State) : Raises k (some s.ctx) s (s.pulled.raise k) := rfl

/-- A failure raised by the validating step, as the claims say it (R216). -/
theorem raises_quiet (k : Failure) (s : State) : Raises k none s (s.quiet.raise k) := rfl

/-- The stop sentinel is tested first (R150, R214). -/
theorem verdictOf_of_noStop {d : Datagram} (h : d[31] ≠ STOP) : verdictOf d = .failed .noEndByte :=
  if_neg h

/-- The validating step raises the failure of the verdict (R150). -/
theorem step_of_verdict_failed {s : State} {k : Failure} (hr : s.resetPin = false)
    (hv : s.rstate = .validating) (hk : verdictOf s.rx.cells = .failed k) :
    step s = .next (s.quiet.raise k) := by
  rw [step_of_validating hr hv, validate_of_failed hk]

/-- The validating step on bytes judged to be `OK` makes `RX` readable and ends the attempt (R150). -/
theorem step_of_verdict_ok {s : State} (hr : s.resetPin = false) (hv : s.rstate = .validating)
    (hd : verdictOf s.rx.cells = .ok) : step s = .next { s with
      rx := { s.rx with valid := true }, result := some .ok, rstate := .ok
      resultPort := some (.readResult .ok (s.cfg.codeOf .ok) (some s.rx.cells)), pullCtx := none } := by
  rw [step_of_validating hr hv]
  rcases validate_cases s with ⟨-, ht⟩ | ⟨k, hk, -⟩
  · rw [ht]
  · rw [hd] at hk; cases hk

/-- With no request ready a terminal block stays as it is (R151). -/
theorem requestStep_of_empty {s : State} (hs : s.requests = []) : requestStep s = .next s.quiet := by
  rw [requestStep, hs]

/-! ## Retries (R147, R154) -/

/-- Retries pulled one a step leave the state they met, the stream and the ports apart. -/
theorem runSteps_retries (n : Nat) : ∀ {s : State} {rest : List StreamWord}, s.cfg.wf →
    s.resetPin = false → s.rstate.pulling = true →
    s.stream = List.replicate n (pullWord s.cfg .retry) ++ rest →
    ∃ v x, runSteps n s = .next (({ s with stream := rest } : State).showing v x) := by
  induction n with
  | zero =>
    intro s rest _ _ _ hs
    obtain rfl : s.stream = rest := hs
    exact ⟨s.resultPort, s.pullCtx, rfl⟩
  | succ n ih =>
    intro s rest hw hr hp hs
    rw [List.replicate_succ, List.cons_append] at hs
    obtain ⟨v, x, hrun⟩ :=
      ih (s := ({ s with stream := List.replicate n (pullWord s.cfg .retry) ++ rest } : State).pulled)
        hw hr hp rfl
    exact ⟨v, x, (runSteps_succ (step_of_pullWord hw hr hp hs)).trans hrun⟩

/-! ## A payload byte of a frame -/

/-- Payload offset `p` is frame offset `p + 5` (R10). -/
theorem frameBytes_set_payload (src dst proto k : Byte) (payload : Payload) (p : Fin 26) (v : Byte) :
    frameBytes src dst proto k (payload.set p v) =
      (frameBytes src dst proto k payload).set (p.val + 5) v := by
  refine Vector.toList_inj.mp ?_
  rw [Vector.toList_set, frameBytes_toList, frameBytes_toList, Vector.toList_set, List.append_assoc,
    List.append_assoc, List.set_append_right _ _ (by simp), List.set_append_left _ _ (by simp)]
  rfl

theorem frameBytes_getElem_payload (src dst proto k : Byte) (payload : Payload) (p : Fin 26) :
    (frameBytes src dst proto k payload)[p.val + 5] = payload[p] := by
  rw [← payloadByte_payloadOf _ p.isLt, payloadOf_frameBytes, payloadByte,
    List.getD_eq_getElem _ _ (by simp)]
  simp

/-! ## The function `read(s)` (R156) -/

section
variable {buf : Datagram} {n : Nat} (hn : n ≠ 32) (rest : List PullResult)

theorem readLoop_full (rs : List PullResult) : readLoop buf 32 rs = some (readVerdict buf rs) := by
  cases rs <;> rfl

include hn

theorem readLoop_nil : readLoop buf n [] = none := if_neg hn

theorem readLoop_retry : readLoop buf n (.retry :: rest) = readLoop buf n rest := by
  rw [readLoop, if_neg hn]

theorem readLoop_abort :
    readLoop buf n (.abort :: rest) = some (.failed .aborted, none, rest) := by
  rw [readLoop, if_neg hn]

theorem readLoop_other :
    readLoop buf n (.other :: rest) = some (.failed .unknown, none, rest) := by
  rw [readLoop, if_neg hn]

theorem readLoop_noStart {b : Byte} (h : n = 0 ∧ b ≠ START) :
    readLoop buf n (.byte b :: rest) = some (.failed .noStartByte, none, rest) := by
  rw [readLoop, if_neg hn, if_pos h]

theorem readLoop_store {b : Byte} (h : ¬(n = 0 ∧ b ≠ START)) :
    readLoop buf n (.byte b :: rest) = readLoop (buf.setIfInBounds n b) (n + 1) rest := by
  rw [readLoop, if_neg hn, if_neg h]

end

/-- The loop looks at no byte of its buffer that it has not stored. -/
theorem readLoop_congr {rs : List PullResult} {buf buf' : Datagram} {n : Nat}
    (h : ∀ o (ho : o < 32), o < n → buf[o] = buf'[o]) : readLoop buf n rs = readLoop buf' n rs := by
  have hfull : n = 32 → buf = buf' := fun hn => Vector.ext fun o ho => h o ho (by omega)
  induction rs generalizing buf buf' n with
  | nil =>
    by_cases hn : n = 32
    · rw [hfull hn]
    · rw [readLoop_nil hn, readLoop_nil hn]
  | cons r rest ih =>
    by_cases hn : n = 32
    · rw [hfull hn]
    cases r with
    | retry => rw [readLoop_retry hn, readLoop_retry hn, ih h hfull]
    | abort => rw [readLoop_abort hn, readLoop_abort hn]
    | other => rw [readLoop_other hn, readLoop_other hn]
    | byte b =>
      by_cases hb : n = 0 ∧ b ≠ START
      · rw [readLoop_noStart hn rest hb, readLoop_noStart hn rest hb]
      · have hset : ∀ o (ho : o < 32), o < n + 1 →
            (buf.setIfInBounds n b)[o] = (buf'.setIfInBounds n b)[o] := by
          intro o ho hlt
          rw [Vector.getElem_setIfInBounds ho, Vector.getElem_setIfInBounds ho]
          split
          · rfl
          · exact h o ho (by omega)
        rw [readLoop_store hn rest hb, readLoop_store hn rest hb]
        exact ih hset fun hn' => Vector.ext fun o ho => hset o ho (by omega)

/-- Where nothing is stored yet, `read(s)` may begin with any buffer. -/
theorem readAttempt_eq_readLoop (buf : Datagram) (rs : List PullResult) :
    readAttempt rs = readLoop buf 0 rs := readLoop_congr nofun

/-! ## An attempt under way -/

/-- The reader's state with `n` bytes of an attempt stored (R25, R26). -/
def readerAt (n : Nat) : RState := if n = 0 then .awaitStart else afterStored n

theorem readerAt_busy (n : Nat) : (readerAt n).busy = true := by
  unfold readerAt
  split
  · rfl
  · exact afterStored_busy n

theorem readerAt_pulling {n : Nat} (h : n ≠ 32) : (readerAt n).pulling = true := by
  unfold readerAt afterStored
  rw [if_neg h]
  split <;> rfl

theorem readerAt_eq_awaitStart {n : Nat} : readerAt n = .awaitStart ↔ n = 0 := by
  unfold readerAt afterStored
  split
  · exact iff_of_true rfl ‹_›
  · split <;> exact iff_of_false nofun ‹_›

/-- A state of a running attempt: it has stored `CNT` bytes and has no result yet. Of the block's
invariant it asks only what the agreement with `read(s)` needs: nothing of `RX` or `CTX`. -/
structure InAttempt (s : State) : Prop where
  cfg_wf : s.cfg.wf
  resetPin : s.resetPin = false
  result : s.result = none
  cnt_le : s.cnt.toNat ≤ 32
  rstate : s.rstate = readerAt s.cnt.toNat

namespace InAttempt

variable {s : State} (h : InAttempt s)
include h

theorem busy : s.rstate.busy = true := by rw [h.rstate, readerAt_busy]

theorem validating (hn : s.cnt.toNat = 32) : s.rstate = .validating := by rw [h.rstate, hn]; rfl

theorem pulling (hn : s.cnt.toNat ≠ 32) : s.rstate.pulling = true := by
  rw [h.rstate, readerAt_pulling hn]

theorem awaitStart_iff : s.rstate = .awaitStart ↔ s.cnt.toNat = 0 := by
  rw [h.rstate, readerAt_eq_awaitStart]

theorem with_stream (ws : List StreamWord) : InAttempt { s with stream := ws } :=
  ⟨h.cfg_wf, h.resetPin, h.result, h.cnt_le, h.rstate⟩

theorem pulled : InAttempt s.pulled := ⟨h.cfg_wf, h.resetPin, h.result, h.cnt_le, h.rstate⟩

/-- A stored byte leaves the attempt running (R143, R145, R146). -/
theorem storeByte (hn : s.cnt.toNat ≠ 32) (b : Byte) : InAttempt (s.pulled.storeByte b) := by
  have hle := h.cnt_le
  have hcnt := storeByte_cnt b (s := s) (by omega)
  refine ⟨h.cfg_wf, h.resetPin, h.result, by omega, ?_⟩
  rw [hcnt, State.storeByte_rstate, State.pulled_cnt, readerAt, if_neg (Nat.succ_ne_zero _)]

end InAttempt

/-! ## An attempt against `read(s)` (R156) -/

/-- A state that shows an outcome of `read(s)`: the result, with the datagram only when it is `OK`,
and the rest of the pull results unread. -/
structure Shows (t : State) (r : ReadResult) (d : Option Datagram) (rest : List PullResult) :
    Prop where
  result : t.result = some r
  terminal : t.rstate.busy = false
  stream : t.stream = rest.map (pullWord t.cfg)
  resultPort : t.resultPort = some (.readResult r (t.cfg.codeOf r) d)
  ok : r = .ok → d = some t.rx.cells ∧ t.rx.valid = true

/-- The run of an attempt on the pull results `rs`: to the outcome of `read(s)` where there is one, and
to the end of the stream, still busy, where there is none. -/
def Follows (s : State) (rs : List PullResult) :
    Option (ReadResult × Option Datagram × List PullResult) → Prop
  | some (r, d, rest) => ∃ n t, runSteps n s = .next t ∧ t.cfg = s.cfg ∧ Shows t r d rest
  | none => ∃ t, runSteps rs.length s = .next t ∧ t.rstate.busy = true ∧ t.result = none ∧
      t.stream = []

/-- A step that pulls one result leaves the others to the run behind it. -/
theorem Follows.of_step {s t : State} {r : PullResult} {rest : List PullResult}
    {o : Option (ReadResult × Option Datagram × List PullResult)} (hstep : step s = .next t)
    (hcfg : t.cfg = s.cfg) (h : Follows t rest o) : Follows s (r :: rest) o := by
  cases o with
  | none =>
    obtain ⟨u, hrun, hu⟩ := h
    exact ⟨u, (runSteps_succ hstep).trans hrun, hu⟩
  | some o =>
    obtain ⟨n, u, hrun, hc, hu⟩ := h
    exact ⟨n + 1, u, (runSteps_succ hstep).trans hrun, hc.trans hcfg, hu⟩

/-- A step that ends the attempt shows its outcome. -/
theorem Follows.of_shows {s t : State} {rs : List PullResult} {r : ReadResult} {d : Option Datagram}
    {rest : List PullResult} (hstep : step s = .next t) (hcfg : t.cfg = s.cfg)
    (h : Shows t r d rest) : Follows s rs (some (r, d, rest)) :=
  ⟨1, t, runSteps_one hstep, hcfg, h⟩

/-- A raised failure is an outcome without a datagram (R216). -/
theorem shows_raise (k : Failure) {s : State} {rest : List PullResult}
    (hs : s.stream = rest.map (pullWord s.cfg)) : Shows (s.raise k) (.failed k) none rest :=
  ⟨rfl, rfl, hs, rfl, nofun⟩

/-- The validating step shows the verdict of `read(s)` on the captured bytes (R150). -/
theorem follows_validate {s : State} {rs : List PullResult} (hr : s.resetPin = false)
    (hv : s.rstate = .validating) (hs : s.stream = rs.map (pullWord s.cfg)) :
    Follows s rs (some (readVerdict s.rx.cells rs)) := by
  have hstep := step_of_validating hr hv
  unfold readVerdict
  rcases validate_cases s with ⟨hd, ht⟩ | ⟨k, hd, ht⟩ <;> rw [ht] at hstep <;> rw [hd]
  · exact .of_shows hstep rfl ⟨rfl, rfl, hs, rfl, fun _ => ⟨rfl, rfl⟩⟩
  · exact .of_shows hstep rfl (shows_raise k hs)

/-- A running attempt follows the loop of `read(s)` from the bytes it has stored, one step for each
pull result. -/
theorem follows_readLoop (rs : List PullResult) : ∀ {s : State}, InAttempt s →
    s.stream = rs.map (pullWord s.cfg) → Follows s rs (readLoop s.rx.cells s.cnt.toNat rs) := by
  induction rs with
  | nil =>
    intro s h hs
    by_cases hn : s.cnt.toNat = 32
    · rw [hn, readLoop_full]
      exact follows_validate h.resetPin (h.validating hn) hs
    · rw [readLoop_nil hn]
      exact ⟨s, rfl, h.busy, h.result, hs⟩
  | cons r rest ih =>
    intro s h hs
    by_cases hn : s.cnt.toNat = 32
    · rw [hn, readLoop_full]
      exact follows_validate h.resetPin (h.validating hn) hs
    have hstep := step_of_pullWord h.cfg_wf h.resetPin (h.pulling hn) hs
    have h1 := h.with_stream (rest.map (pullWord s.cfg))
    cases r with
    | retry =>
      rw [readLoop_retry hn]
      exact .of_step hstep rfl (ih h1.pulled rfl)
    | abort =>
      rw [readLoop_abort hn]
      exact .of_shows hstep rfl (shows_raise .aborted rfl)
    | other =>
      rw [readLoop_other hn]
      exact .of_shows hstep rfl (shows_raise .unknown rfl)
    | byte b =>
      change step s = .next (State.takeByte b _) at hstep
      by_cases hb : s.cnt.toNat = 0 ∧ b ≠ START
      · rw [readLoop_noStart hn rest hb]
        rw [takeByte_of_noStart (h1.awaitStart_iff.mpr hb.1) hb.2] at hstep
        exact .of_shows hstep rfl (shows_raise .noStartByte rfl)
      · have hcnt := storeByte_cnt b (s := { s with stream := rest.map (pullWord s.cfg) })
          (lt_of_le_of_ne h.cnt_le hn)
        have hrest := ih (h1.storeByte hn b) rfl
        rw [hcnt] at hrest
        rw [readLoop_store hn rest hb]
        rw [takeByte_of_stored fun hs => hb ⟨h1.awaitStart_iff.mp hs.1, hs.2⟩] at hstep
        exact .of_step hstep rfl hrest

/-! ## The statements -/

/-- Settles O40: an attempt at its start follows the loop of `read(s)` from its own cells. -/
theorem attemptAgreesWithTheReadFunction : Obligations.AttemptAgreesWithTheReadFunction := by
  intro s rs hw hs hc hres hr hstream
  have hcnt : s.cnt.toNat = 0 := by rw [hc]; rfl
  have h : InAttempt s := ⟨hw, hr, hres, by rw [hcnt]; decide, by rw [hs, hcnt]; rfl⟩
  have hfollows := follows_readLoop rs h hstream
  rw [hcnt, ← readAttempt_eq_readLoop] at hfollows
  refine ⟨fun r d rest hread => ?_, fun hread => ?_⟩ <;> rw [hread] at hfollows
  · obtain ⟨n, t, hrun, hcfg, ht⟩ := hfollows
    rw [← hcfg]
    exact ⟨n, t, hrun, ht.result, ht.terminal, ht.stream, ht.resultPort, ht.ok⟩
  · exact hfollows

/-- Settles O12: the changed byte is one the checksum covers, and both sentinels still stand. -/
theorem oneCorruptedPayloadByteIsBadCrc : Obligations.OneCorruptedPayloadByteIsBadCrc := by
  intro s src dst proto k payload p v hw hr hs hc hvalid hv
  have hcheck : checkChecksum (frameBytes src dst proto k (payload.set p v)) = false := by
    rw [frameBytes_set_payload]
    refine checkChecksum_set_of_ne hvalid (by omega) ?_
    rwa [frameBytes_getElem_payload]
  have hverdict : verdictOf (frameBytes src dst proto k (payload.set p v)) = .failed .badCrc8 := by
    rw [verdictOf_of_stop (frameBytes_stop ..), hcheck]
    rfl
  obtain ⟨t, ht, hrun⟩ :=
    run_frame_start hw hr hs hc (frameBytes_start src dst proto k (payload.set p v))
  obtain ⟨hrstate, hresult, hrx, -⟩ := validate_storeBytes_failed hc hverdict
  exact ⟨t, _, (exec_datagram ..).trans ht, hrun, hrstate, hresult, hrx⟩

/-- Settles O42: the run leaves everything but the stream and the output ports. -/
theorem retriesHangForAsLongAsTheyCome : Obligations.RetriesHangForAsLongAsTheyCome := by
  intro n s rest hw hr hs hstream
  obtain ⟨v, x, hrun⟩ := runSteps_retries n hw hr (RState.pulling_of_eq hs) hstream
  exact ⟨_, hrun, rfl, rfl, ⟨rfl, rfl, rfl, rfl⟩, rfl, rfl, rfl⟩

/-- Settles O30: a terminal reader takes the request. -/
theorem readStartsAnAttempt : Obligations.ReadStartsAnAttempt :=
  fun ctx _ hb => exec_read_of_terminal hb ctx

/-- Settles O31: the start sentinel is the byte stored at offset 0. -/
theorem startSentinelIsStored : Obligations.StartSentinelIsStored := by
  intro s hs hc
  refine ⟨none, (exec_pullResult_of_pulling (RState.pulling_of_eq (.inl hs)) (.byte START)).trans ?_⟩
  rw [State.takePull, takeByte_start, storeByte_at (n := 0) hc]
  rfl

/-- Settles O32: a first byte that is not the start sentinel raises the failure. -/
theorem otherFirstByteIsNoStartByte : Obligations.OtherFirstByteIsNoStartByte := by
  intro s b hs hb
  refine ⟨_, exec_pullResult_of_pulling (RState.pulling_of_eq (.inl hs)) (.byte b), ?_⟩
  rw [State.takePull, takeByte_of_noStart hs hb]
  exact raises_pulled .noStartByte s

/-- Settles O33: a byte of the body is stored whatever it is, and the 32nd completes the capture. -/
theorem bodyByteIsStoredAtItsOffset : Obligations.BodyByteIsStoredAtItsOffset := by
  intro s b n _ hs hc
  have hafter : afterStored (n.val + 1) = if n.val = 31 then .validating else .readingBody := by
    simp only [afterStored, Nat.succ_inj]
  refine ⟨none, (exec_pullResult_of_pulling (RState.pulling_of_eq (.inr hs)) (.byte b)).trans ?_⟩
  rw [State.takePull, takeByte_body b hs, storeByte_at hc, hafter]

/-- Settles O34: a pull that answers `RETRY` only shows `CTX`. -/
theorem retryChangesNothing : Obligations.RetryChangesNothing :=
  fun _ hs => ⟨none, exec_pullResult_of_pulling (RState.pulling_of_eq hs) .retry⟩

/-- Settles O35: either answer raises its failure. -/
theorem abortAndOtherFailTheAttempt : Obligations.AbortAndOtherFailTheAttempt := by
  intro s hs
  have hexec := exec_pullResult_of_pulling (RState.pulling_of_eq hs)
  exact ⟨⟨_, hexec .abort, raises_pulled .aborted s⟩, ⟨_, hexec .other, raises_pulled .unknown s⟩⟩

/-- Settles O36: the three cases are those of the verdict. -/
theorem validatingStepGivesTheVerdict : Obligations.ValidatingStepGivesTheVerdict := by
  intro s hr hv
  refine ⟨fun hstop => ?_, fun hstop hcheck => ?_, fun hstop hcheck => ?_⟩
  · exact ⟨_, step_of_verdict_failed hr hv (verdictOf_of_noStop hstop), raises_quiet .noEndByte s⟩
  · have hd : verdictOf s.rx.cells = .failed .badCrc8 := by
      rw [verdictOf_of_stop hstop, hcheck]
      rfl
    exact ⟨_, step_of_verdict_failed hr hv hd, raises_quiet .badCrc8 s⟩
  · have hd : verdictOf s.rx.cells = .ok := by rw [verdictOf_of_stop hstop, if_pos hcheck]
    exact ⟨_, step_of_verdict_ok hr hv hd⟩

/-- Settles O39: outside the pulling states what is offered stays unread. -/
theorem nothingIsPulledOutsideAnAttempt : Obligations.NothingIsPulledOutsideAnAttempt := by
  intro s r src dst proto k payload hp
  exact ⟨(exec_pullResult r s).trans (offer_idle hp), (exec_datagram ..).trans (offerFrame_idle hp)⟩

/-- Settles O49: a terminal reader looks at the operation port alone. -/
theorem terminalBlockPullsNothing : Obligations.TerminalBlockPullsNothing := by
  intro s hr hb hs
  rw [step_of_terminal hr hb, requestStep_of_empty hs]
  rfl

end Sys2Proof.Machine
end

section
/-! PROOFS for the family 42_command_layer.md: a message and its payload (R90 to R97, R175), the frames
the two conversions build (R171, R172), what `FROM_DATAGRAM` and `DISCRIMINATE` answer (R173, R174), and
the message rows (R180 to R189). -/

namespace Sys2Proof

/-! ## The discriminator table (R96) -/

theorem Config.typeOf_eq_some_iff {c : Config} (h : c.wf) {b : Byte} {T : MsgType} :
    c.typeOf b = some T ↔ c.discOf T = b :=
  ⟨Config.discOf_of_typeOf, fun e => e ▸ c.typeOf_discOf h T⟩

theorem Config.typeOf_eq_none_iff {c : Config} {b : Byte} :
    c.typeOf b = none ↔ ∀ T, c.discOf T ≠ b := by
  simp [Config.typeOf, List.find?_eq_none, MsgType.mem_all]

/-- Bit 7 of a discriminator is the direction of its type. -/
theorem Config.discOf_direction {c : Config} (h : c.wf) (T : MsgType) :
    (c.discOf T).getLsbD 7 = T.isResponse := by
  obtain ⟨⟨-, hdir⟩, -⟩ := h
  exact hdir T T.mem_all

/-! ## Which payload encodes a message (R90, R175) -/

/-- An encoded message is zero at every payload byte but 0 that no field covers. -/
theorem Message.payload_padding {c : Config} (m : Message) {o : Nat} (ho : o < 26) (h1 : 1 ≤ o)
    (hpad : ∀ sl ∈ c.slots m.type, ¬(sl.offset ≤ o ∧ o < sl.offset + sl.width)) :
    (m.payload c)[o] = 0x00#8 := by
  have hnone : c.slotAt m.type o = none :=
    Config.slotAt_eq_none.mpr fun sl hs => by simpa [Slot.covers] using hpad sl hs
  rw [m.getElem_payload c o ho, if_neg (by omega), hnone]
  rfl

/-- A payload encodes a message exactly when its byte 0 is the discriminator, the fields stand at their
offsets and the padding is zero. -/
theorem Message.payload_eq_iff {c : Config} (h : c.wf) (m : Message) (p : Payload) :
    m.payload c = p ↔
      p[0] = c.discOf m.type ∧
      (∀ sl ∈ c.slots m.type, ∀ k < sl.width,
        (m.fieldBytes c.intOrder sl.field).getD k 0x00#8 = payloadByte p (sl.offset + k)) ∧
      ∀ o : Fin 26, 1 ≤ o.val →
        (∀ sl ∈ c.slots m.type, ¬(sl.offset ≤ o.val ∧ o.val < sl.offset + sl.width)) →
        p[o] = 0x00#8 := by
  constructor
  · rintro rfl
    exact ⟨m.payload_zero c, fun sl hs k hk => (m.payloadByte_payload h hs hk).symm,
      fun o h1 hpad => m.payload_padding o.isLt h1 hpad⟩
  · rintro ⟨hzero, hfields, hpad⟩
    ext1 o ho
    by_cases h0 : o = 0
    · subst h0
      rw [m.payload_zero, hzero]
    · by_cases hc : ∃ sl ∈ c.slots m.type, sl.offset ≤ o ∧ o < sl.offset + sl.width
      · obtain ⟨sl, hs, hlo, hhi⟩ := hc
        obtain ⟨k, rfl⟩ := Nat.exists_eq_add_of_le hlo
        have hk : k < sl.width := by omega
        rw [← payloadByte_eq ho, ← payloadByte_eq ho, m.payloadByte_payload h hs hk]
        exact hfields sl hs k hk
      · have hc' : ∀ sl ∈ c.slots m.type, ¬(sl.offset ≤ o ∧ o < sl.offset + sl.width) :=
          fun sl hs hcov => hc ⟨sl, hs, hcov⟩
        have h1 : 1 ≤ o := Nat.pos_of_ne_zero h0
        exact (m.payload_padding ho h1 hc').trans (hpad ⟨o, ho⟩ h1 hc').symm

/-- Byte `k` of a field that `decode_T` returns is the payload byte at that offset of the field. -/
theorem Message.fieldBytes_messageOf_getD {c : Config} (h : c.wf) {T : MsgType} (p : Payload)
    {sl : Slot} (hs : sl ∈ c.slots T) {k : Nat} (hk : k < sl.width) :
    ((messageOf c T p).fieldBytes c.intOrder sl.field).getD k 0x00#8 =
      payloadByte p (sl.offset + k) := by
  rw [fieldBytes_messageOf h p hs, List.getD_eq_getElem _ _ (by rwa [slotBytes_length])]
  simp [slotBytes]

/-! ## A layout that packs its fields (R98 to R107) -/

/-- The slots follow one another without a gap, the first at payload offset `n`. -/
def packedFrom : Nat → List Slot → Bool
  | _, [] => true
  | n, sl :: sls => sl.offset == n && packedFrom (n + sl.width) sls

/-- The default layout packs the fields of every type behind the discriminator. -/
theorem packedFrom_default (T : MsgType) : packedFrom 1 (Config.default.slots T) = true := by
  cases T <;> rfl

theorem slotBytes_eq_take_drop {sl : Slot} (p : Payload) (h : sl.offset + sl.width ≤ 26) :
    slotBytes sl p = (p.toList.drop sl.offset).take sl.width := by
  apply List.ext_getElem
  · rw [slotBytes_length, List.length_take, List.length_drop, Vector.length_toList]
    omega
  · intro k hk _
    rw [slotBytes_length] at hk
    simp [slotBytes, payloadByte_eq (show sl.offset + k < 26 by omega)]

/-- A payload from offset `n` on is the bytes of the slots packed there, then the rest. -/
theorem drop_eq_flatMap_slotBytes (p : Payload) {sls : List Slot} :
    ∀ {n : Nat}, packedFrom n sls = true → (∀ sl ∈ sls, sl.offset + sl.width ≤ 26) →
      p.toList.drop n = sls.flatMap (slotBytes · p) ++
        p.toList.drop (n + (sls.flatMap (slotBytes · p)).length) := by
  induction sls with
  | nil => intro n _ _; rfl
  | cons sl sls ih =>
    intro n hp hb
    simp only [packedFrom, Bool.and_eq_true, beq_iff_eq] at hp
    obtain ⟨rfl, hp⟩ := hp
    obtain ⟨hsl, hb⟩ := List.forall_mem_cons.mp hb
    have hsplit : p.toList.drop sl.offset =
        slotBytes sl p ++ p.toList.drop (sl.offset + sl.width) := by
      rw [slotBytes_eq_take_drop p hsl, ← List.drop_drop, List.take_append_drop]
    rw [hsplit, ih hp hb, List.flatMap_cons, List.append_assoc, List.length_append, slotBytes_length,
      Nat.add_assoc]

/-- The fields of a message that fits are found one after another at their slots. -/
theorem Message.flatMap_slotBytes_payload {c : Config} (h : c.wf) {m : Message}
    (hm : m.fits c = true) :
    (c.slots m.type).flatMap (slotBytes · (m.payload c)) =
      m.fields.flatMap (·.value.toBytes c.intOrder) := by
  have hall : List.Forall₂ (fun sl a => slotBytes sl (m.payload c) = a.value.toBytes c.intOrder)
      (c.slots m.type) m.fields :=
    ((List.forall₂_and_left _ _).mpr ⟨fun _ h => h, Message.value_of_fits h hm⟩).imp
      fun _ _ ⟨hs, ⟨_, hf⟩, hv⟩ => slotBytes_payload h m hs hf hv
  have hmap : (c.slots m.type).map (slotBytes · (m.payload c)) =
      m.fields.map (·.value.toBytes c.intOrder) :=
    List.forall₂_eq_eq_eq ▸ List.forall₂_map_left_iff.mpr (List.forall₂_map_right_iff.mpr hall)
  rw [List.flatMap_def, List.flatMap_def, hmap]

/-- The last of the packed slots ends where their widths add up to. -/
theorem packedFrom_end_le {sls : List Slot} : ∀ {n : Nat}, packedFrom n sls = true →
    ∀ sl ∈ sls, sl.offset + sl.width ≤ n + (sls.map Slot.width).sum := by
  induction sls with
  | nil => intro n _ sl hs; cases hs
  | cons a sls ih =>
    intro n hp sl hs
    simp only [packedFrom, Bool.and_eq_true, beq_iff_eq] at hp
    obtain ⟨rfl, hp⟩ := hp
    rw [List.map_cons, List.sum_cons, ← Nat.add_assoc]
    rcases List.mem_cons.mp hs with rfl | hs
    · exact Nat.le_add_right _ _
    · exact ih hp sl hs

/-- Behind its last field an encoded message is zero. -/
theorem Message.drop_payload_eq_zeros {c : Config} (m : Message) {e n : Nat} (he : 1 ≤ e)
    (hn : e + n = 26) (hend : ∀ sl ∈ c.slots m.type, sl.offset + sl.width ≤ e) :
    (m.payload c).toList.drop e = List.replicate n 0x00#8 := by
  apply List.ext_getElem
  · rw [List.length_drop, Vector.length_toList, List.length_replicate]
    omega
  · intro k hk _
    rw [List.length_drop, Vector.length_toList] at hk
    rw [List.getElem_drop, Vector.getElem_toList, List.getElem_replicate]
    refine m.payload_padding (by omega) (by omega) fun sl hs hcov => ?_
    have := hend sl hs
    omega

/-- Under a layout that packs the fields, a message that fits is encoded as its discriminator, the bytes
of its fields one after another, and zeros. -/
theorem Message.toList_payload_of_packed {c : Config} (h : c.wf) {m : Message}
    (hm : m.fits c = true) (hp : packedFrom 1 (c.slots m.type) = true) {n : Nat}
    (hn : 1 + (m.fields.flatMap (·.value.toBytes c.intOrder)).length + n = 26) :
    (m.payload c).toList =
      [c.discOf m.type] ++ m.fields.flatMap (·.value.toBytes c.intOrder) ++
        List.replicate n 0x00#8 := by
  have hhead : (m.payload c).toList = c.discOf m.type :: (m.payload c).toList.drop 1 := by
    rw [← m.payload_zero c]
    simpa using List.drop_eq_getElem_cons (l := (m.payload c).toList) (i := 0) (by simp)
  have hbody := drop_eq_flatMap_slotBytes (m.payload c) hp fun sl hs => (c.slot_bounds h hs).2.2
  have hlen : ((c.slots m.type).map Slot.width).sum =
      (m.fields.flatMap (·.value.toBytes c.intOrder)).length := by
    rw [← Message.flatMap_slotBytes_payload h hm, List.length_flatMap]
    simp only [slotBytes_length]
  have htail := m.drop_payload_eq_zeros (c := c) (Nat.le_add_right 1 _) hn
    (hlen ▸ packedFrom_end_le hp)
  rw [Message.flatMap_slotBytes_payload h hm, htail] at hbody
  rw [hhead, hbody]
  rfl

/-! ## The operands of a message row (R98 to R107) -/

/-- The value a row has for a field of its message. -/
def Message.operand (m : Message) : Field → Value
  | .status => .bytes [m.statusByte]
  | .uid => .bytes m.uniqueId.toList
  | .micrometers => .int (m.intAt .micrometers)
  | .actualMicrometers => .int (m.intAt .actualMicrometers)
  | f => .bytes (m.bytesAt f)

/-- The message a row sends: the operands its type names, then the further fields of its envelope. -/
def Message.ofRow (m : Message) : Message :=
  ⟨m.type, m.type.named.map (fun f => ⟨f, m.operand f⟩) ++ m.further⟩

/-- The operand for a field of the layout has the bytes the message gives the field. -/
theorem Message.fieldBytes_eq_operand {c : Config} (h : c.wf) {m : Message} (hm : m.fits c = true)
    {sl : Slot} (hs : sl ∈ c.slots m.type) :
    m.fieldBytes c.intOrder sl.field = (m.operand sl.field).toBytes c.intOrder := by
  have hbytes (hi : sl.field.isInteger = false) := (Message.fieldBytes_bytesAt h hm hs hi).1
  have hint := Message.fieldBytes_intAt h hm hs
  have hstatus := Message.fieldBytes_status h hm hs
  have huid := Message.fieldBytes_uid h hm hs
  cases hf : sl.field with
  | status => exact hstatus hf
  | uid => exact huid hf
  | micrometers | actualMicrometers => rw [hf] at hint; exact hint rfl rfl
  | _ => rw [hf] at hbytes; exact hbytes rfl

/-- The row of a message that fits sends the payload of the message. -/
theorem Message.payload_ofRow {c : Config} (h : c.wf) {m : Message} (hm : m.fits c = true) :
    m.ofRow.payload c = m.payload c := by
  refine Message.payload_operands (by simp [Function.comp_def]) fun a ha sl hs hf => ?_
  obtain ⟨f, -, rfl⟩ := List.mem_map.mp ha
  obtain rfl : sl.field = f := hf
  exact Message.fieldBytes_eq_operand h hm hs

end Sys2Proof

namespace Sys2Proof.Machine

open Claims (framed WritesDatagram ReturnsOnly intWritten)

/-! ## The conversions (R171, R172) -/

/-- A checksummed frame written into a register, as the claims say it. -/
theorem writesDatagram_frameBytes (d : DReg) (src dst proto : Byte) {msg : Payload}
    {bytes : List Byte} (hmsg : msg.toList = bytes) (s : State) :
    WritesDatagram d (framed src dst proto bytes) s
      (s.writeDatagram d (setChecksum (frameBytes src dst proto 0#8 msg))) := by
  rw [← hmsg, ← setChecksum_frameBytes]
  exact writesDatagram_writeDatagram d _ s

section
variable {s : State} (hb : s.rstate.busy = false)
include hb

/-- A request conversion writes the frame from the controller, its message as the payload. -/
theorem sendRequest_writes (d : DReg) (dst : Byte) {msg : Payload} {bytes : List Byte}
    (hmsg : msg.toList = bytes) :
    sendRequest d dst msg s = .next (s.writeDatagram d (requestFrame dst msg)) ∧
      WritesDatagram d (framed 0x00#8 dst 0xA1#8 bytes) s
        (s.writeDatagram d (requestFrame dst msg)) := by
  refine ⟨accepting_of_terminal hb _, ?_⟩
  rw [requestFrame_eq]
  exact writesDatagram_frameBytes d ADDR_CONTROLLER dst PROTO_PHASON hmsg s

/-- A response conversion writes the frame to the controller, its message as the payload. -/
theorem sendResponse_writes (d : DReg) (src : Byte) {msg : Payload} {bytes : List Byte}
    (hmsg : msg.toList = bytes) :
    sendResponse d src msg s = .next (s.writeDatagram d (responseFrame src msg)) ∧
      WritesDatagram d (framed src 0x00#8 0xA1#8 bytes) s
        (s.writeDatagram d (responseFrame src msg)) := by
  refine ⟨accepting_of_terminal hb _, ?_⟩
  rw [responseFrame_eq]
  exact writesDatagram_frameBytes d src ADDR_CONTROLLER PROTO_PHASON hmsg s

end

/-- The frame of a message: the conversion of the direction of its type. -/
def messageFrame (c : Config) (a : Byte) (m : Message) : Datagram :=
  if m.type.isResponse then responseFrame a (m.payload c) else requestFrame a (m.payload c)

theorem setChecksum_proto (d : Datagram) : (setChecksum d)[3] = d[3] := by
  rw [setChecksum, Vector.getElem_set_ne _ _ (by decide)]

theorem messageFrame_proto (c : Config) (a : Byte) (m : Message) :
    (messageFrame c a m)[3] = PROTO_PHASON := by
  unfold messageFrame
  split
  · rw [responseFrame_eq, setChecksum_proto, frameBytes_proto]
  · rw [requestFrame_eq, setChecksum_proto, frameBytes_proto]

theorem payloadOf_messageFrame (c : Config) (a : Byte) (m : Message) :
    payloadOf (messageFrame c a m) = m.payload c := by
  unfold messageFrame
  split
  · rw [responseFrame_eq, payloadOf_setChecksum, payloadOf_frameBytes]
  · rw [requestFrame_eq, payloadOf_setChecksum, payloadOf_frameBytes]

/-- A message row is the conversion of its message (R180 to R189). -/
theorem exec_instr {s : State} (hb : s.rstate.busy = false) (d : DReg) (a : Byte) (m : Message) :
    exec (m.instr d a) s = .next (s.writeDatagram d (messageFrame s.cfg a m.ofRow)) := by
  obtain ⟨T, fs⟩ := m
  cases T <;> exact accepting_of_terminal hb _

/-! ## Reading a payload (R173, R174) -/

theorem payloadOf_zero (g : Datagram) : (payloadOf g)[0] = g[5] := by
  simp [payloadOf]

/-- Datagrams with the same 26 payload bytes have the same payload. -/
theorem payloadOf_congr {g g' : Datagram}
    (h : ∀ o : Fin 32, 5 ≤ o.val → o.val ≤ 30 → g'[o] = g[o]) : payloadOf g' = payloadOf g := by
  ext1 p hp
  simp only [payloadOf, Vector.getElem_ofFn]
  exact h ⟨p + 5, by omega⟩ (Nat.le_add_left 5 p) (by show p + 5 ≤ 30; omega)

/-- The type index of a type names it (R96). -/
theorem messageType_index (T : MsgType) : messageType (BitVec.ofNat 4 T.index.val) = some T := by
  cases T <;> rfl

theorem exec_discriminate {s : State} {d : DReg} {g : Datagram} (hb : s.rstate.busy = false)
    (hg : s.reg d = ⟨g, true⟩) :
    exec (.discriminate d) s = .next (ReturnsOnly (discriminateOf s.cfg g) s) := by
  rw [exec, execDiscriminate, reading_of_valid hb (by rw [hg]), hg]
  rfl

/-- What `kind` can be: foreign, or what the table finds for the discriminator. -/
theorem kindOf_cases (c : Config) (g : Datagram) :
    (g[3] ≠ PROTO_PHASON ∧ kindOf c g = .notPhason) ∨
    (g[3] = PROTO_PHASON ∧ ∃ T, c.typeOf g[5] = some T ∧ kindOf c g = .message T) ∨
    (g[3] = PROTO_PHASON ∧ c.typeOf g[5] = none ∧ kindOf c g = .unknown) := by
  by_cases h : g[3] = PROTO_PHASON
  · cases hT : c.typeOf g[5] <;> simp [kindOf, h, hT]
  · simp [kindOf, h]

theorem kindOf_eq_notPhason_iff {c : Config} {g : Datagram} :
    kindOf c g = .notPhason ↔ g[3] ≠ PROTO_PHASON := by
  rcases kindOf_cases c g with ⟨h, hk⟩ | ⟨h, T, -, hk⟩ | ⟨h, -, hk⟩ <;> simp [h, hk]

theorem kindOf_eq_message_iff {c : Config} (hc : c.wf) {g : Datagram} {T : MsgType} :
    kindOf c g = .message T ↔ g[3] = PROTO_PHASON ∧ c.discOf T = g[5] := by
  rw [← c.typeOf_eq_some_iff hc]
  rcases kindOf_cases c g with ⟨h, hk⟩ | ⟨h, T', hT, hk⟩ | ⟨h, hT, hk⟩ <;> simp [*]

theorem kindOf_eq_unknown_iff {c : Config} {g : Datagram} :
    kindOf c g = .unknown ↔ g[3] = PROTO_PHASON ∧ ∀ T, c.discOf T ≠ g[5] := by
  rw [← c.typeOf_eq_none_iff]
  rcases kindOf_cases c g with ⟨h, hk⟩ | ⟨h, T, hT, hk⟩ | ⟨h, hT, hk⟩ <;> simp [*]

/-- `DISCRIMINATE` of the frame of a message names its discriminator, direction and type. -/
theorem discriminateOf_messageFrame {c : Config} (h : c.wf) (a : Byte) (m : Message) :
    discriminateOf c (messageFrame c a m) =
      .discriminated true (c.discOf m.type) m.type.isResponse (.message m.type) := by
  have hproto := messageFrame_proto c a m
  have hdisc : (messageFrame c a m)[5] = c.discOf m.type := by
    rw [← payloadOf_zero, payloadOf_messageFrame, m.payload_zero]
  have hkind := (kindOf_eq_message_iff h).mpr ⟨hproto, hdisc.symm⟩
  rw [discriminateOf, hkind, hdisc, c.discOf_direction h, decide_eq_true hproto]

/-! ## The message rows under the default layout (R180 to R189) -/

theorem wf_default (o : IntOrder) : ({ Config.default with intOrder := o } : Config).wf := by
  cases o <;> decide

/-- The payload of a message of the default layout: its discriminator, its fields one after another in
the byte order of the configuration, zeros. -/
theorem toList_payload_default {c : Config} {o : IntOrder}
    (hc : c = { Config.default with intOrder := o }) {m : Message} (hm : m.fits Config.default = true)
    {bytes : List Byte} (hbytes : m.fields.flatMap (·.value.toBytes o) = bytes) (n : Nat)
    (hn : 1 + bytes.length + n = 26) :
    (m.payload c).toList = [Config.default.discOf m.type] ++ bytes ++ List.replicate n 0x00#8 := by
  subst hc hbytes
  exact Message.toList_payload_of_packed (wf_default o) hm (packedFrom_default m.type) hn

/-- A fitting first field, then fields that fit the other slots. -/
theorem fieldsFit_cons {sl : Slot} {a : Assign} {sls : List Slot} {fs : Fields}
    (hfield : a.field = sl.field) (hvalue : a.value.fits sl = true) (hrest : fieldsFit sls fs = true) :
    fieldsFit (sl :: sls) (a :: fs) = true := by
  simp [fieldsFit, hfield, hvalue, hrest]

/-- An identifier fits a slot of 12 bytes (R93). -/
theorem fits_uid (uid : Uid) (p : Nat) : (Value.bytes uid.toList).fits ⟨.uid, p, 12⟩ = true := by
  simp [Value.fits, Slot.isInteger, Field.isInteger]

theorem queryByUidReq_fits (uid : Uid) :
    (Message.queryByUidReq uid []).fits Config.default = true :=
  fieldsFit_cons rfl (fits_uid uid 1) rfl

theorem getFeederInfoResp_fits (st ver y mo dd : Byte) (uid : Uid) :
    (Message.getFeederInfoResp st [ver] [y] [mo] [dd] uid []).fits Config.default = true :=
  fieldsFit_cons rfl rfl <| fieldsFit_cons rfl rfl <| fieldsFit_cons rfl rfl <|
    fieldsFit_cons rfl rfl <| fieldsFit_cons rfl rfl <| fieldsFit_cons rfl (fits_uid uid 6) rfl

/-! ## The statements -/

/-- Settles O28: the row writes the frame of the message, whose payload decodes to the message and whose
discriminator is that of its type. -/
theorem messageSurvivesTheDatagram : Obligations.MessageSurvivesTheDatagram := by
  intro d a m s hb hw hm
  have hrow := exec_instr hb d a m
  have hframe : messageFrame s.cfg a m.ofRow = messageFrame s.cfg a m := by
    rw [messageFrame, Message.payload_ofRow hw hm]; rfl
  rw [hframe] at hrow
  have hbusy : (s.writeDatagram d (messageFrame s.cfg a m)).rstate.busy = false := by
    rwa [State.writeDatagram_rstate]
  have hreg := State.reg_writeDatagram_self d (messageFrame s.cfg a m) s
  refine ⟨_, _, _, _, hrow, exec_fromDatagram_view hbusy hreg (messageType_index m.type), rfl,
    ?_, ?_, exec_discriminate hbusy hreg, ?_⟩
  · rw [State.writeDatagram_cfg, payloadOf_messageFrame]
    exact messageOf_payload hw hm
  · rw [State.writeDatagram_cfg, payloadOf_messageFrame]
    exact m.payload_zero s.cfg
  · rw [State.writeDatagram_cfg, discriminateOf_messageFrame hw]
    rfl

/-- Settles O22: the view is that of the payload, which the 26 bytes determine. -/
theorem fromDatagramIsATotalView : Obligations.FromDatagramIsATotalView := by
  intro d t s hb hv ht
  obtain ⟨T, hT, hindex⟩ := messageType_of_le ht
  refine ⟨_, exec_fromDatagram hb hv hT, hindex, payloadOf_zero _, fun s' hb' hv' hc hcells => ?_⟩
  rw [exec_fromDatagram hb' hv' hT, hc, payloadOf_congr hcells]
  rfl

/-- Settles O25: the kind is foreign, the type the table names, or unknown. -/
theorem discriminateClassifiesThePayload : Obligations.DiscriminateClassifiesThePayload := by
  intro d s g hb hg hw
  exact ⟨kindOf s.cfg g, exec_discriminate hb hg, kindOf_eq_notPhason_iff,
    fun T => kindOf_eq_message_iff hw, kindOf_eq_unknown_iff⟩

/-- Settles O29: both laws are the characterisation of the payload that encodes a message. -/
theorem encodeAndDecodeOfMessages : Obligations.EncodeAndDecodeOfMessages := by
  intro c hw
  refine ⟨fun m => ⟨m.payload_zero c, fun sl hs k hk => m.payloadByte_payload hw hs hk,
    fun o h1 hpad => m.payload_padding o.isLt h1 hpad, messageOf_payload hw⟩, fun T p => ?_⟩
  have hfields : ∀ sl ∈ c.slots T, ∀ k < sl.width,
      ((messageOf c T p).fieldBytes c.intOrder sl.field).getD k 0x00#8 =
        payloadByte p (sl.offset + k) :=
    fun sl hs k hk => Message.fieldBytes_messageOf_getD hw p hs hk
  refine ⟨rfl, rfl, messageOf_fits c T p, hfields, ?_⟩
  rw [Message.payload_eq_iff hw]
  exact ⟨fun ⟨hzero, _, hpad⟩ => ⟨hzero, hpad⟩, fun ⟨hzero, hpad⟩ => ⟨hzero, hfields, hpad⟩⟩

/-- Settles O26: each row is a request conversion of its message, whose fields the default layout
packs. -/
theorem requestMessagesBuildTheirFrames : Obligations.RequestMessagesBuildTheirFrames := by
  intro d dst q um uid o s hb hc
  exact ⟨_, _, _, _, _,
    sendRequest_writes hb d dst (toList_payload_default hc rfl rfl 25 rfl),
    sendRequest_writes hb d dst (toList_payload_default hc rfl rfl 25 rfl),
    sendRequest_writes hb d dst (toList_payload_default hc rfl (bytes := q :: intWritten o um)
      (by cases o <;> rfl) 20 (by cases o <;> rfl)),
    sendRequest_writes hb d dst (toList_payload_default hc rfl rfl 24 rfl),
    sendRequest_writes hb d dst (toList_payload_default hc (queryByUidReq_fits uid)
      (List.append_nil uid.toList) 13 (by simp))⟩

/-- Settles O27: each row is a response conversion of its message, whose fields the default layout
packs. -/
theorem responseMessagesBuildTheirFrames : Obligations.ResponseMessagesBuildTheirFrames := by
  intro d src st ver y mo dd q um uid o s hb hc
  exact ⟨_, _, _, _, _,
    sendResponse_writes hb d src (toList_payload_default hc (getFeederInfoResp_fits st ver y mo dd uid)
      (congrArg ([st, ver, y, mo, dd] ++ ·) (List.append_nil uid.toList)) 8 (by simp)),
    sendResponse_writes hb d src (toList_payload_default hc rfl rfl 24 rfl),
    sendResponse_writes hb d src (toList_payload_default hc rfl rfl 23 rfl),
    sendResponse_writes hb d src (toList_payload_default hc rfl
      (bytes := [st, q] ++ intWritten o um) (by cases o <;> rfl) 19 (by cases o <;> rfl)),
    sendResponse_writes hb d src (toList_payload_default hc rfl rfl 24 rfl)⟩

/-- Settles O20: a request conversion writes the frame, whose checksum was set last. -/
theorem requestToDatagramWrapsTheMessage : Obligations.RequestToDatagramWrapsTheMessage := by
  intro d dst msg s hb
  obtain ⟨hexec, hwrites⟩ := sendRequest_writes hb d dst (msg := msg) rfl
  exact ⟨_, hexec, hwrites, by rw [State.reg_writeDatagram_self]; exact checkChecksum_setChecksum _⟩

/-- Settles O21: a response conversion writes the frame, whose checksum was set last. -/
theorem responseToDatagramWrapsTheMessage : Obligations.ResponseToDatagramWrapsTheMessage := by
  intro d src msg s hb
  obtain ⟨hexec, hwrites⟩ := sendResponse_writes hb d src (msg := msg) rfl
  exact ⟨_, hexec, hwrites, by rw [State.reg_writeDatagram_self]; exact checkChecksum_setChecksum _⟩

end Sys2Proof.Machine
end
